-- ==== Sys2Proof/Word.lean ====
section
/-!
DEFINITION. The machine's words and byte strings (spec 00_scope.md R5, R7, R8).
Registers, lengths and addresses are 32-bit unsigned words; everything the ciphers, hashes and codecs work on is a
byte string, index 0 first.  Lengths and region ends are computed as natural numbers (R6), so they never wrap.
-/

namespace Sys2Proof

/-- A register value: 32 bits, unsigned (R5 `REG_WIDTH`, R8). -/
abbrev Word := BitVec 32

/-- A byte, 0 to 255 (R7). -/
abbrev Byte := BitVec 8

/-- A byte string, index 0 first (R7). -/
abbrev Bytes := List Byte

/-- `zeros(n)` of R7. -/
abbrev zeros (n : Nat) : Bytes := List.replicate n 0

end Sys2Proof
end

