-- ==== Sys2Proof/Config.lean ====
section
/-!
DEFINITION. What an implementation of the block fixes, and the values the spec leaves open.
`Params` holds the three OPEN parameters of 00_scope.md R5 as plain data, so that a state names them and every
statement about all states holds for every choice of them.  The `opaque` constants have no body: nothing can be
proved about the value of any of them, so a theorem that mentions one holds whatever it is.
-/

namespace Sys2Proof

/-- The OPEN parameters of R5 (93_implementation_defined.md U1 to U3). -/
structure Params where
  /-- `BUF_SIZE`: the size of buffer memory in bytes, 1 to 2^32. -/
  bufSize : Nat
  /-- `BUF_BASE`: the host address of byte 0 of buffer memory. -/
  bufBase : Nat
  /-- `REG_BASE`: the host address of the register block. -/
  regBase : Nat
  deriving DecidableEq, Repr

/-- The values R5 admits for `BUF_SIZE`. -/
abbrev Params.Admitted (p : Params) : Prop := 1 ≤ p.bufSize ∧ p.bufSize ≤ 2 ^ 32

/-- The parameters `State.reset` carries.  DESIGN CHOICE (log entry 1): 4096 bytes as in 95_test_vectors.md, buffer
memory at host address 0, the register block above every possible buffer memory. -/
def Params.chosen : Params := { bufSize := 4096, bufBase := 0, regBase := 0x100000000 }

/-- `LATENCY` of R5 and R303 (U4): how many host ticks pass between the acceptance and the completion of the `n`-th
command.  Finite, and otherwise free (log entry 2). -/
opaque Config.latency : Nat → Nat

/-- The `n`-th unspecified byte the machine meets: a byte of a write region after an execute-phase error (R81), after
an abandoned command (R291), or read by the host from a running command's write region (R86).  Log entry 3. -/
opaque Config.freeByte : Nat → Byte

/-- The `n`-th answer of the entropy source (R57, R276; U12, U13): a byte, or failure.  Log entry 4. -/
opaque Config.entropyAnswer : Nat → Option Byte

/-- How much entropy an abandoned command had already drawn when reset stopped it (R291).  Log entry 9. -/
opaque Config.drawnBeforeReset : Nat → Nat

end Sys2Proof
end

