-- ==== Sys2Proof/Syntax.lean ====
section
/-!
DEFINITION. The commands of the engine (spec 30_encoding.md R100, R101, R105): one constructor for each row of
spec/opcode_table.json.  No command word carries an operand, so no constructor has an argument: every command reads
its operands from the latched registers.
-/

namespace Sys2Proof

/-- The 14 legal commands of R101 and R104. -/
inductive Instr where
  /-- FWD: forward transform with one key (R140). -/
  | fwd
  /-- INV: inverse transform with one key (R141). -/
  | inv
  /-- INV.Z: the same, with the result length depadded (R141, R144). -/
  | invZ
  /-- CFWD: cascade forward over the key table (R142). -/
  | cfwd
  /-- CINV: cascade inverse over the key table (R143). -/
  | cinv
  /-- CINV.Z: the same, with the result length depadded (R143, R144). -/
  | cinvZ
  /-- KCHK: validate the key table (R173). -/
  | kchk
  /-- KGEN: generate keys (R177). -/
  | kgen
  /-- SEAL: seal the key table into a vault (R206). -/
  | vaultSeal
  /-- UNSEAL: unseal a vault into keys (R215). -/
  | vaultUnseal
  /-- B64E: Base64 encode (R234). -/
  | b64e
  /-- B64D: Base64 decode (R235). -/
  | b64d
  /-- ENC: encrypt to an artifact (R236). -/
  | enc
  /-- DEC: decrypt an artifact (R237). -/
  | dec
  deriving DecidableEq, Repr

/-- The fields of a command word (R100). -/
structure CommandWord where
  /-- bits[7:0]: the operation code. -/
  op : BitVec 8
  /-- bit 8: depad. -/
  z : Bool
  /-- bits[31:9]: reserved, must be 0. -/
  rsv : BitVec 23
  deriving DecidableEq, Repr

end Sys2Proof
end

