-- ==== Sys2Proof/Machine/State.lean ====
section
/-!
DEFINITION. The state of the machine (spec 10_state.md, 20_memory.md R71): the host-visible registers, the engine's
latched context and hidden state, buffer memory, the entropy source, and the inputs waiting at the block's host side.
State is plain data.  What a field means is said here; how it is read and written is said in the other files.
-/

namespace Sys2Proof.Machine

/-- The error codes of R261.  `encodeFailed` and `noData` have codes and are never produced (R278). -/
inductive ErrCode where
  | success
  | illegalCommand
  | capacityExceeded
  | blockLength
  | overlap
  | noKeys
  | invalidLength
  | lengthMismatch
  | invalidKey
  | encodeFailed
  | decodeFailed
  | readFailed
  | writeFailed
  | noData
  | randomBytes
  | keySize
  | wrongPasswordOrCorrupt
  deriving DecidableEq, Repr

/-- The operand registers SRC_ADDR to KG_COUNT (R42 to R47). -/
structure Operands where
  srcAddr : Word
  srcLen : Word
  dstAddr : Word
  dstCap : Word
  scrAddr : Word
  scrCap : Word
  keytabAddr : Word
  keyCount : Word
  pwdAddr : Word
  pwdLen : Word
  kgBits : Word
  kgCount : Word
  deriving DecidableEq, Repr

/-- All operand registers 0: their reset values (R32). -/
def Operands.zero : Operands :=
  { srcAddr := 0, srcLen := 0, dstAddr := 0, dstCap := 0, scrAddr := 0, scrCap := 0,
    keytabAddr := 0, keyCount := 0, pwdAddr := 0, pwdLen := 0, kgBits := 0, kgCount := 0 }

/-- The latched context (R54): the private copy of CMD and the operand registers taken at acceptance. -/
structure Latch where
  cmd : Word
  ops : Operands
  deriving DecidableEq, Repr

/-- The phase of a running command (R53). -/
inductive Phase where
  | checking
  | executing
  | completing
  deriving DecidableEq, Repr

/-- The two byte buffers of a cipher pass (R52). -/
structure PassBuffers where
  /-- The current key buffer. -/
  keyBuf : Bytes
  /-- The staging "previous block" buffer. -/
  stage : Bytes
  deriving DecidableEq, Repr

/-- What the sequencer holds during a command only (R52, R53), and the ticks left before it completes (R5 `LATENCY`).
The engine runs a command whole in the step that completes it, so between steps the hidden fields hold the values
acceptance gave them; nothing reads them across commands (U14). -/
structure Sequencer where
  /-- Host ticks before completion: the model's own counter for `LATENCY`. -/
  wait : Nat
  phase : Phase
  buffers : PassBuffers
  /-- The byte position `j` of the current pass. -/
  bytePos : Nat
  /-- The block index `b` of the current pass. -/
  block : Nat
  /-- The pass index of a cascade. -/
  pass : Nat
  /-- The round index of a vault command. -/
  round : Nat
  /-- The segment counter of a key derivation. -/
  segment : Nat
  /-- The accumulated hex text of the key being derived. -/
  hexText : Bytes
  deriving DecidableEq, Repr

/-- The entropy source (R57): its ready indication, the answers it is going to give (the outside world's input, `none`
a failure), and how many it has given.  Once the listed answers are used up, answers are free values. -/
structure Entropy where
  ready : Bool
  answers : List (Option Byte)
  drawn : Nat
  deriving DecidableEq, Repr

/-- The width of a host access (R72, R73). -/
inductive Width where
  | byte
  | half
  | word
  deriving DecidableEq, Repr

/-- What the outside world can do to the block in one tick (R2, R72, R73, R290, R57). -/
inductive Input where
  /-- A host read at a host address. -/
  | read (width : Width) (addr : Nat)
  /-- A host write at a host address; a narrow write uses the low bytes of the value. -/
  | write (width : Width) (addr : Nat) (value : Word)
  /-- The host polls STATUS and goes on once BUSY = 0 (the `wait` of R111). -/
  | waitDone
  /-- The host does nothing for one tick. -/
  | idle
  /-- The reset input is asserted and released (R290). -/
  | reset
  /-- The entropy source changes its ready indication (R38). -/
  | entropyReady (ready : Bool)
  deriving DecidableEq, Repr

/-- The host side of the block: the inputs still to come, first one first, and the values host reads have returned,
newest first. -/
structure HostPort where
  pending : List Input
  received : List Word
  deriving DecidableEq, Repr

/-- Buffer memory (R71): address and byte pairs, addresses strictly rising, none holding `unwritten`. -/
abbrev Memory := List Host.Cell

/-- What an unlisted address reads as.  DESIGN CHOICE (log entry 6), unsafe: the spec leaves buffer memory unspecified
at power-on, and the programs of 95_test_vectors.md start from zeros. -/
def unwritten : Byte := 0

/-- The machine. -/
structure State where
  /-- The OPEN parameters; no step changes them. -/
  params : Params
  /-- CTRL bit 0, `IE` (R34). -/
  ie : Bool
  /-- STATUS bit 1, `DONE` (R36). -/
  done : Bool
  /-- STATUS bit 2, `CMD_OVERRUN` (R37). -/
  overrun : Bool
  /-- STATUS bits[15:8], `ERR` (R39). -/
  err : ErrCode
  /-- CMD: the last accepted command word (R41). -/
  cmd : Word
  /-- SRC_ADDR to KG_COUNT (R42 to R47). -/
  ops : Operands
  resultLen : Word
  resultCount : Word
  resultKlen : Word
  errInfo : Word
  /-- The latched context (R54). -/
  latch : Latch
  /-- The running command's sequencer; `none` when the engine is idle.  BUSY (R35) is read off it. -/
  sequencer : Option Sequencer
  /-- Buffer memory (R58, R71). -/
  mem : Memory
  entropy : Entropy
  host : HostPort
  /-- How many commands the host has had accepted: the model's own counter, which `Config.latency` is applied to. -/
  accepted : Nat
  /-- How many free values have been used: the model's own counter, which `Config.freeByte` and
  `Config.drawnBeforeReset` are applied to. -/
  freeUsed : Nat
  deriving DecidableEq, Repr

/-- Why a run stops with a fault. -/
inductive Fault where
  /-- Raised by a host write into a region of the running command (R86, R294, U9: "a model treats such a write as a
  fault").  No instruction raises it.  Safe: the model stops where the hardware goes on with unspecified results. -/
  | busyRegionWrite
  deriving DecidableEq, Repr

/-- Why the model refuses. -/
inductive Refusal where
  /-- Raised by an arm of `exec` whose instruction has no meaning yet; no arm does.  Safe. -/
  | notModelled (mnemonic : String)
  /-- Raised by a host access to the register block that is not a naturally aligned 32-bit access (R73, U10: "the model
  refuses it").  No instruction raises it.  Safe. -/
  | registerAccess
  /-- Raised by a host access with a byte outside the register block and buffer memory (R72, U11: "the model refuses
  it").  No instruction raises it.  Safe. -/
  | outsideBlock
  deriving DecidableEq, Repr

/-- The machine right after reset (R32, R59, R290): every register at its reset value, the engine idle, buffer memory
with nothing listed.  The spec's values; the model's own are the parameters (log entry 1), the ready indication
(log entry 10), the unobservable latch (log entry 8), and its counters at 0 (log entries 2 and 3). -/
def State.reset : State :=
  { params := Params.chosen
    ie := false, done := false, overrun := false, err := .success
    cmd := 0, ops := Operands.zero
    resultLen := 0, resultCount := 0, resultKlen := 0, errInfo := 0
    latch := { cmd := 0, ops := Operands.zero }
    sequencer := none
    mem := []
    entropy := { ready := true, answers := [], drawn := 0 }
    host := { pending := [], received := [] }
    accepted := 0, freeUsed := 0 }

end Sys2Proof.Machine
end

