-- ==== Sys2Proof/Machine/Ops.lean ====
section
/-!
DEFINITION. The named operations over memory, the entropy source and the life of a command: reading and writing
buffer memory (spec 20_memory.md R70, R71; 00_scope.md R9), drawing entropy (10_state.md R57; 60_exceptions.md R276),
acceptance (R89), completion (R93) and error completion (R262), which is this block's one form of exception (R260).
-/

namespace Sys2Proof.Machine

/-! ### Buffer memory -/

/-- The canonical form: addresses strictly rising, no entry equal to what an unlisted address reads as. -/
abbrev Memory.wf (m : Memory) : Prop :=
  m.Pairwise (fun c d => c.1 < d.1) ∧ ∀ c ∈ m, c.2 ≠ unwritten

/-- Every listed address lies in buffer memory (R71). -/
abbrev Memory.Within (m : Memory) (size : Nat) : Prop := ∀ c ∈ m, c.1 < size

/-- Read one byte. -/
def Memory.read : Memory → Nat → Byte
  | [], _ => unwritten
  | (b, v) :: m, a => if a = b then v else Memory.read m a

/-- Write one byte, keeping the canonical form. -/
def Memory.write : Memory → Nat → Byte → Memory
  | [], a, v => if v = unwritten then [] else [(a, v)]
  | (b, u) :: m, a, v =>
    if a < b then (if v = unwritten then (b, u) :: m else (a, v) :: (b, u) :: m)
    else if a = b then (if v = unwritten then m else (a, v) :: m)
    else (b, u) :: Memory.write m a v

/-- `MemRead(addr, n)` (R9). -/
def Memory.readBytes (m : Memory) (a : Nat) : Nat → Bytes
  | 0 => []
  | n + 1 => m.read a :: m.readBytes (a + 1) n

/-- `MemWrite(addr, |v|, v)` (R9): the last byte first, so that each byte goes in before those already written. -/
def Memory.writeBytes (m : Memory) (a : Nat) : Bytes → Memory
  | [] => m
  | v :: vs => (m.writeBytes (a + 1) vs).write a v

/-- The little-endian value of a byte string (R70). -/
def littleEndianValue : Bytes → Nat
  | [] => 0
  | b :: bs => b.toNat + 256 * littleEndianValue bs

/-- The `n` little-endian bytes of a number (R70). -/
def littleEndianBytes : Nat → Nat → Bytes
  | 0, _ => []
  | n + 1, v => BitVec.ofNat 8 v :: littleEndianBytes n (v / 256)

/-- `MemRead32(addr)` (R9): a little-endian word of memory, as an unbounded number (R6). -/
def Memory.read32 (m : Memory) (a : Nat) : Nat := littleEndianValue (m.readBytes a 4)

/-! ### Entropy -/

/-- The entropy source's next answer: the next listed one, or a free value once none is listed. -/
def Entropy.answer (e : Entropy) : Option Byte :=
  match e.answers with
  | [] => Config.entropyAnswer e.drawn
  | r :: _ => r

/-- The entropy source after it has given one answer. -/
def Entropy.advance (e : Entropy) : Entropy :=
  { e with answers := e.answers.drop 1, drawn := e.drawn + 1 }

/-- `Draw(n)` (R9, R276): `n` bytes one after another, or `none` at the first failure; the bytes already drawn are then
discarded, and the source has moved on past them. -/
def Entropy.draw : Nat → Entropy → Option Bytes × Entropy
  | 0, e => (some [], e)
  | n + 1, e =>
    match e.answer with
    | none => (none, e.advance)
    | some b =>
      match Entropy.draw n e.advance with
      | (none, e') => (none, e')
      | (some bs, e') => (some (b :: bs), e')

/-- The entropy source after `n` answers that nobody kept (R291). -/
def Entropy.skip : Nat → Entropy → Entropy
  | 0, e => e
  | n + 1, e => Entropy.skip n e.advance

/-! ### Free bytes -/

/-- `n` unspecified bytes, from the `k`-th free value on. -/
def freeBytes (k : Nat) : Nat → Bytes
  | 0 => []
  | n + 1 => Config.freeByte k :: freeBytes (k + 1) n

/-! ### The life of a command -/

/-- STATUS.BUSY (R35): a command is running. -/
def State.busy (s : State) : Bool := s.sequencer.isSome

/-- The sequencer as acceptance initialises it (R89), `wait` ticks before completion. -/
def Sequencer.start (wait : Nat) : Sequencer :=
  { wait := wait, phase := .checking, buffers := { keyBuf := [], stage := [] }, bytePos := 0, block := 0, pass := 0,
    round := 1, segment := 0, hexText := [] }

/-- Acceptance of the command word `w` (R89), one atomic step: CMD is written, the context latched, BUSY set, and the
report of the command before cleared.  CMD_OVERRUN is kept (R37). -/
def State.accept (s : State) (w : Word) (wait : Nat) : State :=
  { s with
    cmd := w
    latch := { cmd := w, ops := s.ops }
    sequencer := some (Sequencer.start wait)
    done := false
    err := .success
    resultLen := 0
    resultCount := 0
    resultKlen := 0
    errInfo := 0 }

/-- Completion (R93), one atomic step: the command's memory becomes visible, the report is written, DONE is set and
BUSY cleared. -/
def State.complete (s : State) (mem : Memory) (code : ErrCode) (info len count klen : Nat) : State :=
  { s with
    mem := mem
    resultLen := BitVec.ofNat 32 len
    resultCount := BitVec.ofNat 32 count
    resultKlen := BitVec.ofNat 32 klen
    errInfo := BitVec.ofNat 32 info
    err := code
    done := true
    sequencer := none }

/-- Successful completion with the given memory and results (R80, R93). -/
def State.succeed (s : State) (mem : Memory) (len count klen : Nat) : State :=
  s.complete mem .success 0 len count klen

/-- What `raise Err(code, info)` carries (R9). -/
structure Raise where
  code : ErrCode
  info : Nat := 0
  deriving DecidableEq, Repr

/-- Error completion (R262), the block's one exception: the code and ERR_INFO are recorded, the results are 0, no
address is saved and control goes nowhere.  Memory stays as it is: the form for errors of the check phase (R81). -/
def State.raise (s : State) (e : Raise) : State :=
  s.complete s.mem e.code e.info 0 0 0

/-- Check a condition of the check phase: go on if it holds, raise otherwise. -/
def demand (p : Prop) [Decidable p] (code : ErrCode) (info : Nat := 0) : Except Raise Unit :=
  if p then .ok () else .error { code := code, info := info }

/-- The end of a command: the state its execute phase ended in, or an error completion of its check phase with memory
unchanged (R81, R262).  Either way the command completes. -/
def State.conclude (s : State) (outcome : Except Raise State) : Host.Outcome State Fault Refusal :=
  match outcome with
  | .ok t => .next t
  | .error e => .next (s.raise e)

end Sys2Proof.Machine
end

