-- ==== Sys2Proof/Machine/Flags.lean ====
section
/-!
DEFINITION. The block's only flags: the fields of STATUS (spec 10_state.md R35 to R40, R51), the code of each error
(60_exceptions.md R261), and the interrupt output computed from them (R56, R268).
-/

namespace Sys2Proof.Machine

/-- The numeric value of an error code, as STATUS.ERR holds it (R261). -/
def ErrCode.value : ErrCode → Byte
  | .success => 0x00
  | .illegalCommand => 0x01
  | .capacityExceeded => 0x02
  | .blockLength => 0x03
  | .overlap => 0x04
  | .noKeys => 0x10
  | .invalidLength => 0x11
  | .lengthMismatch => 0x12
  | .invalidKey => 0x13
  | .encodeFailed => 0x20
  | .decodeFailed => 0x21
  | .readFailed => 0x30
  | .writeFailed => 0x31
  | .noData => 0x32
  | .randomBytes => 0x40
  | .keySize => 0x41
  | .wrongPasswordOrCorrupt => 0x50

/-- The STATUS word a host reads: BUSY, DONE, CMD_OVERRUN and RNG_OK in bits 0 to 3, ERR in bits[15:8], every other bit
0 (R35 to R40). -/
def State.statusWord (s : State) : Word :=
  (0 : BitVec 16) ++
    (s.err.value ++
      ((0 : BitVec 4) ++
        (BitVec.ofBool s.entropy.ready ++
          (BitVec.ofBool s.overrun ++ (BitVec.ofBool s.done ++ BitVec.ofBool s.busy : BitVec 2) : BitVec 3) : BitVec 4)
        : BitVec 8) : BitVec 16)

/-- The CTRL word a host reads: `IE` in bit 0, every other bit 0 (R34). -/
def State.ctrlWord (s : State) : Word := BitVec.zeroExtend 32 (BitVec.ofBool s.ie)

/-- A host write of STATUS (R40): bit 1 clears DONE, bit 2 clears CMD_OVERRUN, every other bit is ignored. -/
def State.writeStatus (s : State) (v : Word) : State :=
  { s with done := s.done && !v.getLsbD 1, overrun := s.overrun && !v.getLsbD 2 }

/-- A host write of CTRL (R34): bit 0 is stored, the other bits are ignored. -/
def State.writeCtrl (s : State) (v : Word) : State :=
  { s with ie := v.getLsbD 0 }

/-- The interrupt output (R56, R268): CTRL.IE and STATUS.DONE. -/
def State.irq (s : State) : Bool := s.ie && s.done

end Sys2Proof.Machine
end

