-- ==== Sys2Proof/Machine/Operands.lean ====
section
/-!
DEFINITION. How commands name their operands: regions of buffer memory given by pairs of latched registers, the table
of each command's regions (spec 20_memory.md R75), the bounds and overlap checks on them (R76, R77), and the key table
(30_encoding.md R106).  Addresses and lengths are unbounded numbers (00_scope.md R6).
-/

namespace Sys2Proof.Machine

/-- Which registers name a region. -/
inductive RegionKind where
  | src
  | pwd
  | keytab
  | key
  | scr
  | dst
  deriving DecidableEq, Repr

/-- A region `[addr, addr + len)` (R13). -/
structure Region where
  kind : RegionKind
  addr : Nat
  len : Nat
  deriving DecidableEq, Repr

/-- `a` is the address of a byte of the region. -/
abbrev Region.Covers (r : Region) (a : Nat) : Prop := r.addr ≤ a ∧ a < r.addr + r.len

/-- In bounds (R76): empty, or ending inside buffer memory. -/
abbrev Region.InBounds (r : Region) (size : Nat) : Prop := r.len = 0 ∨ r.addr + r.len ≤ size

/-- Two regions intersect (R77). -/
abbrev Region.Intersects (r q : Region) : Prop :=
  r.len ≠ 0 ∧ q.len ≠ 0 ∧ r.addr < q.addr + q.len ∧ q.addr < r.addr + r.len

/-- The bytes of a region. -/
def Region.bytes (r : Region) (m : Memory) : Bytes := m.readBytes r.addr r.len

/-- How many bytes of a region, from its start, lie in buffer memory. -/
def Region.lengthInside (r : Region) (size : Nat) : Nat := min r.len (size - r.addr)

/-! ### The regions the latched registers name (R42 to R46) -/

def Latch.src (l : Latch) : Region := ⟨.src, l.ops.srcAddr.toNat, l.ops.srcLen.toNat⟩
def Latch.pwd (l : Latch) : Region := ⟨.pwd, l.ops.pwdAddr.toNat, l.ops.pwdLen.toNat⟩
def Latch.scr (l : Latch) : Region := ⟨.scr, l.ops.scrAddr.toNat, l.ops.scrCap.toNat⟩
def Latch.dst (l : Latch) : Region := ⟨.dst, l.ops.dstAddr.toNat, l.ops.dstCap.toNat⟩

/-- The key table of `k` descriptors, 8 bytes each (R75, R106). -/
def Latch.keytab (l : Latch) (k : Nat) : Region := ⟨.keytab, l.ops.keytabAddr.toNat, 8 * k⟩

/-- The key region of descriptor `i` (R106). -/
def Latch.keyRegion (l : Latch) (m : Memory) (i : Nat) : Region :=
  ⟨.key, m.read32 (l.ops.keytabAddr.toNat + 8 * i), m.read32 (l.ops.keytabAddr.toNat + 8 * i + 4)⟩

/-! ### The region table (R75) -/

/-- A command's row of R75: its fixed read regions and write regions in the order of R76, the number of key
descriptors it reads, and whether SRC and DST may be the same place (R77). -/
structure CommandRow where
  reads : List Region
  writes : List Region
  keyCount : Nat
  inPlace : Bool
  deriving DecidableEq, Repr

/-- The row of FWD and INV: the first key descriptor only. -/
def Latch.singleKeyRow (l : Latch) : CommandRow :=
  { reads := [l.src, l.keytab (min l.ops.keyCount.toNat 1)], writes := [l.dst]
    keyCount := min l.ops.keyCount.toNat 1, inPlace := true }

/-- The row of CFWD and CINV. -/
def Latch.cascadeRow (l : Latch) : CommandRow :=
  { reads := [l.src, l.keytab l.ops.keyCount.toNat], writes := [l.dst]
    keyCount := l.ops.keyCount.toNat, inPlace := true }

/-- The row of KCHK. -/
def Latch.checkRow (l : Latch) : CommandRow :=
  { reads := [l.keytab l.ops.keyCount.toNat], writes := [], keyCount := l.ops.keyCount.toNat, inPlace := false }

/-- The row of KGEN. -/
def Latch.generateRow (l : Latch) : CommandRow :=
  { reads := [], writes := [l.dst], keyCount := 0, inPlace := false }

/-- The row of SEAL. -/
def Latch.sealRow (l : Latch) : CommandRow :=
  { reads := [l.pwd, l.keytab l.ops.keyCount.toNat], writes := [l.scr, l.dst]
    keyCount := l.ops.keyCount.toNat, inPlace := false }

/-- The row of UNSEAL. -/
def Latch.unsealRow (l : Latch) : CommandRow :=
  { reads := [l.src, l.pwd], writes := [l.scr, l.dst], keyCount := 0, inPlace := false }

/-- The row of B64E and B64D. -/
def Latch.base64Row (l : Latch) : CommandRow :=
  { reads := [l.src], writes := [l.dst], keyCount := 0, inPlace := false }

/-- The row of ENC and DEC. -/
def Latch.artifactRow (l : Latch) : CommandRow :=
  { reads := [l.src, l.keytab l.ops.keyCount.toNat], writes := [l.scr, l.dst]
    keyCount := l.ops.keyCount.toNat, inPlace := false }

/-- R75: the row of each command. -/
def Latch.row (l : Latch) : Instr → CommandRow
  | .fwd => l.singleKeyRow
  | .inv => l.singleKeyRow
  | .invZ => l.singleKeyRow
  | .cfwd => l.cascadeRow
  | .cinv => l.cascadeRow
  | .cinvZ => l.cascadeRow
  | .kchk => l.checkRow
  | .kgen => l.generateRow
  | .vaultSeal => l.sealRow
  | .vaultUnseal => l.unsealRow
  | .b64e => l.base64Row
  | .b64d => l.base64Row
  | .enc => l.artifactRow
  | .dec => l.artifactRow

/-! ### The fixed-region checks (R76, R77) -/

/-- The one allowed intersection (R77, R145): SRC and DST of a cipher command at the same address. -/
abbrev CommandRow.Excuses (row : CommandRow) (w r : Region) : Prop :=
  row.inPlace = true ∧ r.kind = .src ∧ w.kind = .dst ∧ r.addr = w.addr

/-- No write region intersects another region of the row, but for the allowed case (R77). -/
abbrev CommandRow.Disjoint (row : CommandRow) : Prop :=
  (∀ w ∈ row.writes, ∀ r ∈ row.reads, w.Intersects r → row.Excuses w r) ∧
    row.writes.Pairwise (fun w v => ¬ w.Intersects v)

/-- Steps 2 to 4 of R264: bounds of the read regions, bounds of the write regions, overlap. -/
def checkRegions (size : Nat) (row : CommandRow) : Except Raise Unit := do
  demand (∀ r ∈ row.reads, r.InBounds size) .readFailed
  demand (∀ w ∈ row.writes, w.InBounds size) .writeFailed
  demand row.Disjoint .overlap

/-! ### Hazards on the regions of a running command (R86, R294) -/

/-- The key regions of a row: those its descriptors name, when the key table itself is in bounds. -/
def Latch.keyRegions (l : Latch) (m : Memory) (size : Nat) (row : CommandRow) : List Region :=
  if (l.keytab row.keyCount).InBounds size then (List.range row.keyCount).map (l.keyRegion m) else []

/-- All regions of a command, key regions included (R75). -/
def Latch.allRegions (l : Latch) (m : Memory) (size : Nat) (i : Instr) : List Region :=
  (l.row i).reads ++ (l.row i).writes ++ l.keyRegions m size (l.row i)

end Sys2Proof.Machine
end

