-- ==== Sys2Proof/Machine/Registers.lean ====
section
/-!
DEFINITION. The register block (spec 10_state.md R30 to R50): the register map, what a host read of each register
returns and what a host write of each one does.
-/

namespace Sys2Proof.Machine

/-- The registers of R32, and the reserved offsets 0x050 to 0x0FC (R50). -/
inductive Reg where
  | id
  | ctrl
  | status
  | cmd
  | srcAddr
  | srcLen
  | dstAddr
  | dstCap
  | scrAddr
  | scrCap
  | keytabAddr
  | keyCount
  | pwdAddr
  | pwdLen
  | kgBits
  | kgCount
  | resultLen
  | resultCount
  | resultKlen
  | errInfo
  | reserved
  deriving DecidableEq, Repr

/-- The size of the register block in bytes (R32). -/
def registerBlockSize : Nat := 0x100

/-- The register at a word index of the block, that is at byte offset four times the index (R32). -/
def regAt : Nat → Reg
  | 0x00 => .id
  | 0x01 => .ctrl
  | 0x02 => .status
  | 0x03 => .cmd
  | 0x04 => .srcAddr
  | 0x05 => .srcLen
  | 0x06 => .dstAddr
  | 0x07 => .dstCap
  | 0x08 => .scrAddr
  | 0x09 => .scrCap
  | 0x0A => .keytabAddr
  | 0x0B => .keyCount
  | 0x0C => .pwdAddr
  | 0x0D => .pwdLen
  | 0x0E => .kgBits
  | 0x0F => .kgCount
  | 0x10 => .resultLen
  | 0x11 => .resultCount
  | 0x12 => .resultKlen
  | 0x13 => .errInfo
  | _ => .reserved

/-- The byte offset of a register (R32); the first reserved one for `reserved`. -/
def Reg.offset : Reg → Nat
  | .id => 0x00
  | .ctrl => 0x04
  | .status => 0x08
  | .cmd => 0x0C
  | .srcAddr => 0x10
  | .srcLen => 0x14
  | .dstAddr => 0x18
  | .dstCap => 0x1C
  | .scrAddr => 0x20
  | .scrCap => 0x24
  | .keytabAddr => 0x28
  | .keyCount => 0x2C
  | .pwdAddr => 0x30
  | .pwdLen => 0x34
  | .kgBits => 0x38
  | .kgCount => 0x3C
  | .resultLen => 0x40
  | .resultCount => 0x44
  | .resultKlen => 0x48
  | .errInfo => 0x4C
  | .reserved => 0x50

/-- The identity constant (R33). -/
def identity : Word := 0x45454107

/-- What a host read of a register returns; a register read has no side effect (R73). -/
def State.readReg (s : State) : Reg → Word
  | .id => identity
  | .ctrl => s.ctrlWord
  | .status => s.statusWord
  | .cmd => s.cmd
  | .srcAddr => s.ops.srcAddr
  | .srcLen => s.ops.srcLen
  | .dstAddr => s.ops.dstAddr
  | .dstCap => s.ops.dstCap
  | .scrAddr => s.ops.scrAddr
  | .scrCap => s.ops.scrCap
  | .keytabAddr => s.ops.keytabAddr
  | .keyCount => s.ops.keyCount
  | .pwdAddr => s.ops.pwdAddr
  | .pwdLen => s.ops.pwdLen
  | .kgBits => s.ops.kgBits
  | .kgCount => s.ops.kgCount
  | .resultLen => s.resultLen
  | .resultCount => s.resultCount
  | .resultKlen => s.resultKlen
  | .errInfo => s.errInfo
  | .reserved => 0

/-- A host write of CMD (R41): accepted when the engine is idle, with a latency the implementation chooses (R89, R303);
dropped with CMD_OVERRUN set when it is busy (R90). -/
def State.writeCmd (s : State) (v : Word) : State :=
  if s.busy then { s with overrun := true }
  else { s.accept v (Config.latency s.accepted) with accepted := s.accepted + 1 }

/-- What a host write of a register does.  A write to an operand register is stored at once and reaches the next command
only (R87, R297); writes to read-only registers and reserved offsets are ignored (R33, R48 to R50). -/
def State.writeReg (s : State) (r : Reg) (v : Word) : State :=
  match r with
  | .id => s
  | .ctrl => s.writeCtrl v
  | .status => s.writeStatus v
  | .cmd => s.writeCmd v
  | .srcAddr => { s with ops := { s.ops with srcAddr := v } }
  | .srcLen => { s with ops := { s.ops with srcLen := v } }
  | .dstAddr => { s with ops := { s.ops with dstAddr := v } }
  | .dstCap => { s with ops := { s.ops with dstCap := v } }
  | .scrAddr => { s with ops := { s.ops with scrAddr := v } }
  | .scrCap => { s with ops := { s.ops with scrCap := v } }
  | .keytabAddr => { s with ops := { s.ops with keytabAddr := v } }
  | .keyCount => { s with ops := { s.ops with keyCount := v } }
  | .pwdAddr => { s with ops := { s.ops with pwdAddr := v } }
  | .pwdLen => { s with ops := { s.ops with pwdLen := v } }
  | .kgBits => { s with ops := { s.ops with kgBits := v } }
  | .kgCount => { s with ops := { s.ops with kgCount := v } }
  | .resultLen => s
  | .resultCount => s
  | .resultKlen => s
  | .errInfo => s
  | .reserved => s

end Sys2Proof.Machine
end

