-- ==== Sys2Proof/WellFormed.lean ====
section
/-!
DEFINITION. Which command words are legal (spec 30_encoding.md R103), one check for each of the rule's three
conditions.  An `Instr` has no field that could be ill-formed; the term that is checked is the command word.
-/

namespace Sys2Proof

/-- `w[31:9] = 0`. -/
abbrev CommandWord.ReservedClear (c : CommandWord) : Prop := c.rsv = 0

/-- `w[7:0] in {0x01 .. 0x0C}`. -/
abbrev CommandWord.OpKnown (c : CommandWord) : Prop := 1 ≤ c.op.toNat ∧ c.op.toNat ≤ 12

/-- `w[8] = 0 or w[7:0] in {0x02, 0x04}`. -/
abbrev CommandWord.DepadAllowed (c : CommandWord) : Prop := c.z = false ∨ c.op = 0x02 ∨ c.op = 0x04

/-- `legal(w)` of R103. -/
abbrev CommandWord.Legal (c : CommandWord) : Prop := c.ReservedClear ∧ c.OpKnown ∧ c.DepadAllowed

end Sys2Proof
end

