-- ==== Sys2Proof/Decode.lean ====
section
/-!
DEFINITION. Decoding and encoding of command words (spec 30_encoding.md R100 to R104).
Decoding is total on 32-bit words and rejects by name; a rejected word is not refused by the machine, it completes
with `IllegalCommand` (Machine/Engine.lean).
-/

namespace Sys2Proof

/-- Why a word is no legal command (R103). -/
inductive IllegalWord where
  /-- A bit of `RSV` is set. -/
  | reservedBits
  /-- `OP` is 0x00 or 0x0D to 0xFF. -/
  | reservedOp
  /-- `Z` is set with an operation other than INV or CINV. -/
  | depadNotAllowed
  deriving DecidableEq, Repr

/-- The fields of a word, as R100 places them. -/
def fieldsOf (w : Word) : CommandWord :=
  { op := w.extractLsb' 0 8, z := w.getLsbD 8, rsv := w.extractLsb' 9 23 }

/-- The word whose fields are given: the inverse of `fieldsOf`. -/
def wordOf (c : CommandWord) : Word :=
  c.rsv ++ (BitVec.ofBool c.z ++ c.op : BitVec 9)

/-- The opcode map of R101: the command of an operation code without and with `Z`. -/
def commandOf (op : Nat) (z : Bool) : Except IllegalWord Instr :=
  match op, z with
  | 0x01, false => .ok .fwd
  | 0x02, false => .ok .inv
  | 0x02, true => .ok .invZ
  | 0x03, false => .ok .cfwd
  | 0x04, false => .ok .cinv
  | 0x04, true => .ok .cinvZ
  | 0x05, false => .ok .kchk
  | 0x06, false => .ok .kgen
  | 0x07, false => .ok .vaultSeal
  | 0x08, false => .ok .vaultUnseal
  | 0x09, false => .ok .b64e
  | 0x0A, false => .ok .b64d
  | 0x0B, false => .ok .enc
  | 0x0C, false => .ok .dec
  | n, _ => if 1 ≤ n ∧ n ≤ 12 then .error .depadNotAllowed else .error .reservedOp

/-- The decoder of R103. -/
def decode (w : Word) : Except IllegalWord Instr :=
  if (fieldsOf w).rsv = 0 then commandOf (fieldsOf w).op.toNat (fieldsOf w).z else .error .reservedBits

/-- The command words of R101, in the order of its table. -/
def encode : Instr → Word
  | .fwd => 0x00000001
  | .inv => 0x00000002
  | .invZ => 0x00000102
  | .cfwd => 0x00000003
  | .cinv => 0x00000004
  | .cinvZ => 0x00000104
  | .kchk => 0x00000005
  | .kgen => 0x00000006
  | .vaultSeal => 0x00000007
  | .vaultUnseal => 0x00000008
  | .b64e => 0x00000009
  | .b64d => 0x0000000A
  | .enc => 0x0000000B
  | .dec => 0x0000000C

/-- A little-endian word from its four bytes (R70): the form in which a host stores a command word. -/
def leWord (b0 b1 b2 b3 : Byte) : Word := b3 ++ (b2 ++ (b1 ++ b0 : BitVec 16) : BitVec 24)

/-- The decoder on bytes: a command is one 32-bit word (R108), stored least significant byte first (R70). -/
def decodeBytes : Bytes → Option Instr
  | [b0, b1, b2, b3] =>
    match decode (leWord b0 b1 b2 b3) with
    | .ok i => some i
    | .error _ => none
  | _ => none

/-- The instruction the decoder reads from the bits `w` of an opcode-table row of `nbits` bits: bits above `nbits`
are 0, and the word is laid out least significant byte first. -/
def decodeTableWord (nbits w : Nat) : Option Instr :=
  let v := w % 2 ^ nbits
  if v < 2 ^ 32 then
    decodeBytes [BitVec.ofNat 8 v, BitVec.ofNat 8 (v / 2 ^ 8), BitVec.ofNat 8 (v / 2 ^ 16), BitVec.ofNat 8 (v / 2 ^ 24)]
  else none

end Sys2Proof
end

