-- ==== Sys2Proof/Machine/Sha.lean ====
section
/-!
DEFINITION. The engine's SHA-512 and SHA-256 units (spec 60_exceptions.md R273; 00_scope.md R5 `HASH512`, `HASH256`).
The spec names the algorithms and takes them from FIPS 180-4 as general knowledge (93_implementation_defined.md G1), so
this file is PRESUMED (log entry 5).  The two units share one shape and differ in word width, constants and rotations.
-/

namespace Sys2Proof.Machine

/-- What distinguishes SHA-256 from SHA-512: block and length-field sizes in bytes, the amounts of the four sigma
functions (three rotations, or two rotations and a shift), the initial hash value and the round constants. -/
structure ShaVariant (w : Nat) where
  blockBytes : Nat
  lengthBytes : Nat
  bigSigma0 : Nat × Nat × Nat
  bigSigma1 : Nat × Nat × Nat
  smallSigma0 : Nat × Nat × Nat
  smallSigma1 : Nat × Nat × Nat
  initial : List (BitVec w)
  roundConstants : List (BitVec w)

/-- The eight working variables, and equally the eight words of a hash value. -/
structure ShaWords (w : Nat) where
  a : BitVec w
  b : BitVec w
  c : BitVec w
  d : BitVec w
  e : BitVec w
  f : BitVec w
  g : BitVec w
  h : BitVec w

/-- The initial hash value of SHA-256: square roots of the first eight primes. -/
def sha256Initial : List (BitVec 32) :=
  [0x6a09e667, 0xbb67ae85, 0x3c6ef372, 0xa54ff53a, 0x510e527f, 0x9b05688c, 0x1f83d9ab, 0x5be0cd19]

/-- The round constants of SHA-256: cube roots of the first 64 primes. -/
def sha256RoundConstants : List (BitVec 32) :=
  [0x428a2f98, 0x71374491, 0xb5c0fbcf, 0xe9b5dba5, 0x3956c25b, 0x59f111f1, 0x923f82a4, 0xab1c5ed5] ++
  [0xd807aa98, 0x12835b01, 0x243185be, 0x550c7dc3, 0x72be5d74, 0x80deb1fe, 0x9bdc06a7, 0xc19bf174] ++
  [0xe49b69c1, 0xefbe4786, 0x0fc19dc6, 0x240ca1cc, 0x2de92c6f, 0x4a7484aa, 0x5cb0a9dc, 0x76f988da] ++
  [0x983e5152, 0xa831c66d, 0xb00327c8, 0xbf597fc7, 0xc6e00bf3, 0xd5a79147, 0x06ca6351, 0x14292967] ++
  [0x27b70a85, 0x2e1b2138, 0x4d2c6dfc, 0x53380d13, 0x650a7354, 0x766a0abb, 0x81c2c92e, 0x92722c85] ++
  [0xa2bfe8a1, 0xa81a664b, 0xc24b8b70, 0xc76c51a3, 0xd192e819, 0xd6990624, 0xf40e3585, 0x106aa070] ++
  [0x19a4c116, 0x1e376c08, 0x2748774c, 0x34b0bcb5, 0x391c0cb3, 0x4ed8aa4a, 0x5b9cca4f, 0x682e6ff3] ++
  [0x748f82ee, 0x78a5636f, 0x84c87814, 0x8cc70208, 0x90befffa, 0xa4506ceb, 0xbef9a3f7, 0xc67178f2]

/-- The initial hash value of SHA-512. -/
def sha512Initial : List (BitVec 64) :=
  [0x6a09e667f3bcc908, 0xbb67ae8584caa73b, 0x3c6ef372fe94f82b, 0xa54ff53a5f1d36f1] ++
  [0x510e527fade682d1, 0x9b05688c2b3e6c1f, 0x1f83d9abfb41bd6b, 0x5be0cd19137e2179]

/-- The round constants of SHA-512: cube roots of the first 80 primes. -/
def sha512RoundConstants : List (BitVec 64) :=
  [0x428a2f98d728ae22, 0x7137449123ef65cd, 0xb5c0fbcfec4d3b2f, 0xe9b5dba58189dbbc] ++
  [0x3956c25bf348b538, 0x59f111f1b605d019, 0x923f82a4af194f9b, 0xab1c5ed5da6d8118] ++
  [0xd807aa98a3030242, 0x12835b0145706fbe, 0x243185be4ee4b28c, 0x550c7dc3d5ffb4e2] ++
  [0x72be5d74f27b896f, 0x80deb1fe3b1696b1, 0x9bdc06a725c71235, 0xc19bf174cf692694] ++
  [0xe49b69c19ef14ad2, 0xefbe4786384f25e3, 0x0fc19dc68b8cd5b5, 0x240ca1cc77ac9c65] ++
  [0x2de92c6f592b0275, 0x4a7484aa6ea6e483, 0x5cb0a9dcbd41fbd4, 0x76f988da831153b5] ++
  [0x983e5152ee66dfab, 0xa831c66d2db43210, 0xb00327c898fb213f, 0xbf597fc7beef0ee4] ++
  [0xc6e00bf33da88fc2, 0xd5a79147930aa725, 0x06ca6351e003826f, 0x142929670a0e6e70] ++
  [0x27b70a8546d22ffc, 0x2e1b21385c26c926, 0x4d2c6dfc5ac42aed, 0x53380d139d95b3df] ++
  [0x650a73548baf63de, 0x766a0abb3c77b2a8, 0x81c2c92e47edaee6, 0x92722c851482353b] ++
  [0xa2bfe8a14cf10364, 0xa81a664bbc423001, 0xc24b8b70d0f89791, 0xc76c51a30654be30] ++
  [0xd192e819d6ef5218, 0xd69906245565a910, 0xf40e35855771202a, 0x106aa07032bbd1b8] ++
  [0x19a4c116b8d2d0c8, 0x1e376c085141ab53, 0x2748774cdf8eeb99, 0x34b0bcb5e19b48a8] ++
  [0x391c0cb3c5c95a63, 0x4ed8aa4ae3418acb, 0x5b9cca4f7763e373, 0x682e6ff3d6b2b8a3] ++
  [0x748f82ee5defb2fc, 0x78a5636f43172f60, 0x84c87814a1f0ab72, 0x8cc702081a6439ec] ++
  [0x90befffa23631e28, 0xa4506cebde82bde9, 0xbef9a3f7b2c67915, 0xc67178f2e372532b] ++
  [0xca273eceea26619c, 0xd186b8c721c0c207, 0xeada7dd6cde0eb1e, 0xf57d4f7fee6ed178] ++
  [0x06f067aa72176fba, 0x0a637dc5a2c898a6, 0x113f9804bef90dae, 0x1b710b35131c471b] ++
  [0x28db77f523047d84, 0x32caab7b40c72493, 0x3c9ebe0a15c9bebc, 0x431d67c49c100d4c] ++
  [0x4cc5d4becb3e42b6, 0x597f299cfc657e2a, 0x5fcb6fab3ad6faec, 0x6c44198c4a475817]

/-- SHA-256 as FIPS 180-4 defines it. -/
def sha256Variant : ShaVariant 32 where
  blockBytes := 64
  lengthBytes := 8
  bigSigma0 := (2, 13, 22)
  bigSigma1 := (6, 11, 25)
  smallSigma0 := (7, 18, 3)
  smallSigma1 := (17, 19, 10)
  initial := sha256Initial
  roundConstants := sha256RoundConstants

/-- SHA-512 as FIPS 180-4 defines it. -/
def sha512Variant : ShaVariant 64 where
  blockBytes := 128
  lengthBytes := 16
  bigSigma0 := (28, 34, 39)
  bigSigma1 := (14, 18, 41)
  smallSigma0 := (1, 8, 7)
  smallSigma1 := (19, 61, 6)
  initial := sha512Initial
  roundConstants := sha512RoundConstants

/-- The exclusive-or of three rotations (the capital sigmas). -/
def shaRotations {w : Nat} (r : Nat × Nat × Nat) (x : BitVec w) : BitVec w :=
  x.rotateRight r.1 ^^^ x.rotateRight r.2.1 ^^^ x.rotateRight r.2.2

/-- The exclusive-or of two rotations and a shift (the small sigmas). -/
def shaShifted {w : Nat} (r : Nat × Nat × Nat) (x : BitVec w) : BitVec w :=
  x.rotateRight r.1 ^^^ x.rotateRight r.2.1 ^^^ (x >>> r.2.2)

/-- A big-endian value of a byte string. -/
def bigEndianValue (x : Bytes) : Nat :=
  x.foldl (fun n b => n * 256 + b.toNat) 0

/-- The `n` big-endian bytes of a number. -/
def bigEndianBytes : Nat → Nat → Bytes
  | 0, _ => []
  | n + 1, v => BitVec.ofNat 8 (v >>> (8 * n)) :: bigEndianBytes n v

/-- Cut a byte string into `n` words of `size` bytes each, big-endian. -/
def bigEndianWords (w size : Nat) : Nat → Bytes → List (BitVec w)
  | 0, _ => []
  | n + 1, x => BitVec.ofNat w (bigEndianValue (x.take size)) :: bigEndianWords w size n (x.drop size)

/-- The padding of FIPS 180-4 section 5.1: a 0x80 byte, the fewest zero bytes, and the message's length in bits. -/
def shaPad {w : Nat} (v : ShaVariant w) (x : Bytes) : Bytes :=
  let used := (x.length + 1 + v.lengthBytes) % v.blockBytes
  x ++ 0x80#8 :: (zeros ((v.blockBytes - used) % v.blockBytes) ++ bigEndianBytes v.lengthBytes (8 * x.length))

/-- One round on the working variables, with schedule word `wt` and constant `kt`. -/
def shaRound {w : Nat} (v : ShaVariant w) (kt wt : BitVec w) (r : ShaWords w) : ShaWords w :=
  let t1 := r.h + shaRotations v.bigSigma1 r.e + ((r.e &&& r.f) ^^^ (~~~r.e &&& r.g)) + kt + wt
  let t2 := shaRotations v.bigSigma0 r.a + ((r.a &&& r.b) ^^^ (r.a &&& r.c) ^^^ (r.b &&& r.c))
  { a := t1 + t2, b := r.a, c := r.b, d := r.c, e := r.d + t1, f := r.e, g := r.f, h := r.g }

/-- The message schedule as a sliding window of 16 words: the window's first word is the round's own, and the word
that enters is `W_(t+16)`. -/
def shaSlide {w : Nat} (v : ShaVariant w) (window : List (BitVec w)) : List (BitVec w) :=
  window.drop 1 ++
    [shaShifted v.smallSigma1 (window.getD 14 0) + window.getD 9 0 +
      shaShifted v.smallSigma0 (window.getD 1 0) + window.getD 0 0]

/-- All rounds of one block, one for each round constant. -/
def shaRounds {w : Nat} (v : ShaVariant w) : List (BitVec w) → List (BitVec w) → ShaWords w → ShaWords w
  | [], _, r => r
  | kt :: ks, window, r => shaRounds v ks (shaSlide v window) (shaRound v kt (window.getD 0 0) r)

/-- Word-wise sum of two hash values. -/
def ShaWords.add {w : Nat} (x y : ShaWords w) : ShaWords w :=
  { a := x.a + y.a, b := x.b + y.b, c := x.c + y.c, d := x.d + y.d,
    e := x.e + y.e, f := x.f + y.f, g := x.g + y.g, h := x.h + y.h }

/-- The compression of one block into the hash value so far. -/
def shaCompress {w : Nat} (v : ShaVariant w) (acc : ShaWords w) (block : Bytes) : ShaWords w :=
  acc.add (shaRounds v v.roundConstants (bigEndianWords w (w / 8) 16 block) acc)

/-- Compress the first `n` blocks of a padded message, in order. -/
def shaBlocks {w : Nat} (v : ShaVariant w) : Nat → Bytes → ShaWords w → ShaWords w
  | 0, _, acc => acc
  | n + 1, x, acc => shaBlocks v n (x.drop v.blockBytes) (shaCompress v acc (x.take v.blockBytes))

/-- The initial hash value as words. -/
def ShaVariant.start {w : Nat} (v : ShaVariant w) : ShaWords w :=
  { a := v.initial.getD 0 0, b := v.initial.getD 1 0, c := v.initial.getD 2 0, d := v.initial.getD 3 0,
    e := v.initial.getD 4 0, f := v.initial.getD 5 0, g := v.initial.getD 6 0, h := v.initial.getD 7 0 }

/-- The digest: the eight words of the final hash value, each big-endian. -/
def ShaWords.digest {w : Nat} (r : ShaWords w) : Bytes :=
  [r.a, r.b, r.c, r.d, r.e, r.f, r.g, r.h].flatMap (fun x => bigEndianBytes (w / 8) x.toNat)

/-- A whole SHA-2 hash of a byte string. -/
def shaHash {w : Nat} (v : ShaVariant w) (x : Bytes) : Bytes :=
  let padded := shaPad v x
  (shaBlocks v (padded.length / v.blockBytes) padded v.start).digest

/-- `HASH512` of R5 and R9: SHA-512, 64 bytes. -/
def hash512 (x : Bytes) : Bytes := shaHash sha512Variant x

/-- `HASH256` of R5 and R9: SHA-256, 32 bytes. -/
def hash256 (x : Bytes) : Bytes := shaHash sha256Variant x

end Sys2Proof.Machine
end

