-- ==== Sys2Proof/Machine/Keys.lean ====
section
/-!
DEFINITION. Keys (spec 41_keys.md): the key-table phase every keyed command runs (R170), validation (R171, R172), key
derivation (R174 to R176), and the commands KCHK (R173) and KGEN (R177).  Key material is the ASCII text of a key
(00_scope.md R10); no definition here reads hex text as a number.
-/

namespace Sys2Proof.Machine

/-! ### Hex text -/

/-- A hex character: `0-9`, `A-F` or `a-f` (R11). -/
abbrev IsHexChar (c : Byte) : Prop :=
  (0x30 ≤ c.toNat ∧ c.toNat ≤ 0x39) ∨ (0x41 ≤ c.toNat ∧ c.toNat ≤ 0x46) ∨ (0x61 ≤ c.toNat ∧ c.toNat ≤ 0x66)

/-- `"0123456789abcdef"[h]` (R12). -/
def hexDigit (h : Nat) : Byte := BitVec.ofNat 8 (if h < 10 then 0x30 + h else 0x61 + (h - 10))

/-- `hex(x)` (R12): two digits a byte, the high half first, in lower case. -/
def hexText : Bytes → Bytes
  | [] => []
  | b :: bs => hexDigit (b.toNat / 16) :: hexDigit (b.toNat % 16) :: hexText bs

/-! ### Validation -/

/-- A validated key set: the keys' common length and the keys in order (R13 KeySet). -/
structure KeySet where
  len : Nat
  keys : List Bytes
  deriving DecidableEq, Repr

/-- `ValidateKeys(ks)` (R171): no keys, then the first key's length, then the lowest key of another length, then the
lowest key with a character that is no hex character (R172). -/
def validateKeys (ks : List Bytes) : Except Raise KeySet :=
  match ks with
  | [] => .error { code := .noKeys }
  | k :: _ =>
    if k.length = 0 ∨ k.length % 64 ≠ 0 then .error { code := .invalidLength, info := 1 }
    else
      match ks.findIdx? (fun q => decide (q.length ≠ k.length)) with
      | some i => .error { code := .lengthMismatch, info := i + 1 }
      | none =>
        match ks.findIdx? (fun q => q.any (fun c => decide (¬ IsHexChar c))) with
        | some i => .error { code := .invalidKey, info := i + 1 }
        | none => .ok { len := k.length, keys := ks }

/-- The descriptor loop of R170: the regions of `n` descriptors from the `i`-th on, each checked for bounds and then
against the command's write regions. -/
def readDescriptors (l : Latch) (m : Memory) (size : Nat) (writes : List Region) :
    Nat → Nat → Except Raise (List Region)
  | 0, _ => .ok []
  | n + 1, i => do
    let r := l.keyRegion m i
    demand (r.InBounds size) .readFailed (i + 1)
    demand (∀ w ∈ writes, ¬ r.Intersects w) .overlap (i + 1)
    let rs ← readDescriptors l m size writes n (i + 1)
    pure (r :: rs)

/-- `KeyPhase(k)` (R170). -/
def keyPhase (s : State) (row : CommandRow) : Except Raise KeySet := do
  demand (row.keyCount ≠ 0) .noKeys
  let regions ← readDescriptors s.latch s.mem s.params.bufSize row.writes row.keyCount 0
  validateKeys (regions.map (fun r => r.bytes s.mem))

/-! ### KCHK -/

/-- KCHK (R173). -/
def execKchk (s : State) : Host.Outcome State Fault Refusal :=
  s.conclude do
    let row := s.latch.checkRow
    checkRegions s.params.bufSize row
    let ks ← keyPhase s row
    pure (s.succeed s.mem 0 row.keyCount ks.len)

/-! ### Key derivation -/

/-- The loop of `DeriveKey` (R174) with `need` bits to go and the hex text `acc` so far; `fuel` bounds the number of
segments. -/
def deriveSegments : Nat → Nat → Bytes → Entropy → Option Bytes × Entropy
  | 0, _, acc, e => (some acc, e)
  | fuel + 1, need, acc, e =>
    if need = 0 then (some acc, e)
    else if 256 < need then
      match e.draw 64 with
      | (none, e') => (none, e')
      | (some seed, e') => deriveSegments fuel (need - 512) (acc ++ hexText (hash512 seed)) e'
    else
      match e.draw 32 with
      | (none, e') => (none, e')
      | (some seed, e') => deriveSegments fuel (need - 256) (acc ++ hexText (hash256 seed)) e'

/-- `DeriveKey(B)` (R174): every segment takes at least 256 bits off the need, so `B / 256` of them suffice. -/
def deriveKey (bits : Nat) (e : Entropy) : Option Bytes × Entropy := deriveSegments (bits / 256) bits [] e

/-- The key loop of KGEN (R177): `n` keys of `bits` bits, key 0 first, one after another with no separator (R107). -/
def deriveKeys (bits : Nat) : Nat → Entropy → Option Bytes × Entropy
  | 0, e => (some [], e)
  | n + 1, e =>
    match deriveKey bits e with
    | (none, e') => (none, e')
    | (some k, e') =>
      match deriveKeys bits n e' with
      | (none, e'') => (none, e'')
      | (some ks, e'') => (some (k ++ ks), e'')

/-! ### Errors of the execute phase -/

/-- Leave every byte of a region that lies in buffer memory unspecified: each becomes a free value (R81, R291). -/
def State.scrambleRegion (s : State) (r : Region) : State :=
  { s with
    mem := s.mem.writeBytes r.addr (freeBytes s.freeUsed (r.lengthInside s.params.bufSize))
    freeUsed := s.freeUsed + r.lengthInside s.params.bufSize }

/-- Leave the in-bounds bytes of several regions unspecified. -/
def State.scramble (s : State) (regions : List Region) : State :=
  regions.foldl State.scrambleRegion s

/-- Error completion in the execute phase: the write regions hold unspecified bytes (R81, R262). -/
def State.raiseUnspecified (s : State) (row : CommandRow) (code : ErrCode) : State :=
  (s.scramble row.writes).raise { code := code }

/-! ### KGEN -/

/-- What the check phase of KGEN settles: the bits and the characters of each key, and how many keys. -/
structure GenerationPlan where
  bits : Nat
  count : Nat
  keyLen : Nat
  deriving DecidableEq, Repr

/-- The check phase of KGEN (R177, R178). -/
def planGeneration (s : State) : Except Raise GenerationPlan := do
  checkRegions s.params.bufSize s.latch.generateRow
  let bits := s.latch.ops.kgBits.toNat
  let count := s.latch.ops.kgCount.toNat
  demand (bits ≠ 0 ∧ bits % 256 = 0) .keySize
  demand (count * (bits / 4) ≤ s.latch.dst.len) .capacityExceeded
  pure { bits := bits, count := count, keyLen := bits / 4 }

/-- The execute phase of KGEN: derive the keys and write them, or report a failed draw (R179). -/
def generate (s : State) (p : GenerationPlan) : State :=
  match deriveKeys p.bits p.count s.entropy with
  | (none, e) => { s with entropy := e }.raiseUnspecified s.latch.generateRow .randomBytes
  | (some keys, e) =>
    { s with entropy := e }.succeed (s.mem.writeBytes s.latch.dst.addr keys) (p.count * p.keyLen) p.count p.keyLen

/-- KGEN (R177). -/
def execKgen (s : State) : Host.Outcome State Fault Refusal :=
  s.conclude do
    let p ← planGeneration s
    pure (generate s p)

end Sys2Proof.Machine
end

