-- ==== Sys2Proof/Machine/Cipher.lean ====
section
/-!
DEFINITION. The CipherEngine (spec 40_cipher.md): the pure forward and inverse transforms and their cascades (R130 to
R137), depadding (R147), and the commands FWD, INV, CFWD, CINV with their `.Z` forms (R139 to R146).
-/

namespace Sys2Proof.Machine

/-! ### The pure functions -/

/-- The least integer not below `n / d` (R7). -/
def ceilDiv (n d : Nat) : Nat := (n + d - 1) / d

/-- The padded length of `n` bytes under key length `len` (R130). -/
def paddedLength (n len : Nat) : Nat := ceilDiv n len * len

/-- Byte-wise exclusive-or (R7). -/
def xorBytes (x y : Bytes) : Bytes := List.zipWith (· ^^^ ·) x y

/-- The byte-by-byte chain of R131 from byte position `j` on: each byte is XORed with the key buffer, goes to the
output and to the stage, and when a block completes the stage becomes the key buffer. -/
def forwardBytes (len : Nat) : Bytes → Nat → PassBuffers → Bytes
  | [], _, _ => []
  | d :: ds, j, p =>
    let c := d ^^^ p.keyBuf.getD (j % len) 0
    let stage := p.stage.set (j % len) c
    c :: forwardBytes len ds (j + 1) { keyBuf := if j % len = len - 1 then stage else p.keyBuf, stage := stage }

/-- `Forward(D, K)` (R131). -/
def forward (data key : Bytes) : Bytes :=
  forwardBytes key.length (data ++ zeros (paddedLength data.length key.length - data.length)) 0
    { keyBuf := key, stage := zeros key.length }

/-- `x[b·len .. (b+1)·len)`. -/
def blockOf (len : Nat) (x : Bytes) (b : Nat) : Bytes := (x.drop (b * len)).take len

/-- `out[at .. at + |v|) <- v`. -/
def splice (out : Bytes) (pos : Nat) (v : Bytes) : Bytes := out.take pos ++ v ++ out.drop (pos + v.length)

/-- The loop of R133 over the blocks below `n`, the last one first. -/
def inverseBlocks (data key : Bytes) : Nat → Bytes → Bytes
  | 0, out => out
  | b + 1, out =>
    let blockKey := if b = 0 then key else blockOf key.length data (b - 1)
    inverseBlocks data key b (splice out (b * key.length) (xorBytes (blockOf key.length data b) blockKey))

/-- `Inverse(C, K)` (R133). -/
def inverse (data key : Bytes) : Bytes :=
  inverseBlocks data key (data.length / key.length) (zeros data.length)

/-- `CascadeForward(D, ks)` (R135): key 0 first. -/
def cascadeForward (data : Bytes) (keys : List Bytes) : Bytes := keys.foldl forward data

/-- `CascadeInverse(C, ks)` (R136): the last key first. -/
def cascadeInverse (data : Bytes) (keys : List Bytes) : Bytes := keys.reverse.foldl inverse data

/-- `StripZeros(x)` (R147): the bytes up to the last one that is not 0x00. -/
def stripZeros : Bytes → Bytes
  | [] => []
  | b :: bs =>
    match stripZeros bs with
    | [] => if b = 0 then [] else [b]
    | c :: cs => b :: c :: cs

/-! ### The cipher commands -/

/-- The shared shape of FWD and CFWD (R140, R142): prologue (R139), key phase, capacity, then the transform from SRC to
DST.  Only the row and the transform of the key list differ. -/
def forwardCommand (s : State) (row : CommandRow) (transform : Bytes → List Bytes → Bytes) :
    Host.Outcome State Fault Refusal :=
  s.conclude do
    checkRegions s.params.bufSize row
    let ks ← keyPhase s row
    let padded := paddedLength s.latch.src.len ks.len
    demand (padded ≤ s.latch.dst.len) .capacityExceeded
    let out := transform (s.latch.src.bytes s.mem) ks.keys
    pure (s.succeed (s.mem.writeBytes s.latch.dst.addr out) padded row.keyCount ks.len)

/-- The shared shape of INV and CINV (R141, R143): as `forwardCommand`, with the block-length check; `depad` is the Z
bit, which changes RESULT_LEN only (R144). -/
def inverseCommand (s : State) (row : CommandRow) (depad : Bool) (transform : Bytes → List Bytes → Bytes) :
    Host.Outcome State Fault Refusal :=
  s.conclude do
    checkRegions s.params.bufSize row
    let ks ← keyPhase s row
    demand (s.latch.src.len % ks.len = 0) .blockLength
    demand (s.latch.src.len ≤ s.latch.dst.len) .capacityExceeded
    let out := transform (s.latch.src.bytes s.mem) ks.keys
    let len := if depad then (stripZeros out).length else s.latch.src.len
    pure (s.succeed (s.mem.writeBytes s.latch.dst.addr out) len row.keyCount ks.len)

/-- The key of a one-key command: descriptor 0's (R140). -/
def firstKey (keys : List Bytes) : Bytes := keys.headD []

/-- FWD (R140). -/
def execFwd (s : State) : Host.Outcome State Fault Refusal :=
  forwardCommand s s.latch.singleKeyRow (fun data keys => forward data (firstKey keys))

/-- INV with Z = 0 (R141). -/
def execInv (s : State) : Host.Outcome State Fault Refusal :=
  inverseCommand s s.latch.singleKeyRow false (fun data keys => inverse data (firstKey keys))

/-- INV.Z (R141, R144). -/
def execInvZ (s : State) : Host.Outcome State Fault Refusal :=
  inverseCommand s s.latch.singleKeyRow true (fun data keys => inverse data (firstKey keys))

/-- CFWD (R142). -/
def execCfwd (s : State) : Host.Outcome State Fault Refusal :=
  forwardCommand s s.latch.cascadeRow cascadeForward

/-- CINV with Z = 0 (R143). -/
def execCinv (s : State) : Host.Outcome State Fault Refusal :=
  inverseCommand s s.latch.cascadeRow false cascadeInverse

/-- CINV.Z (R143, R144). -/
def execCinvZ (s : State) : Host.Outcome State Fault Refusal :=
  inverseCommand s s.latch.cascadeRow true cascadeInverse

end Sys2Proof.Machine
end

