-- ==== Sys2Proof/Machine/Base64.lean ====
section
/-!
DEFINITION. The Base64 codec (spec 43_envelope.md R230 to R233): the RFC 4648 standard alphabet with `=` padding, no
line breaks, and a strict decoder that ignores a final group's unused bits.
-/

namespace Sys2Proof.Machine

/-- The character of a 6-bit value (R230): `A`-`Z`, `a`-`z`, `0`-`9`, `+`, `/`. -/
def base64Char (v : Nat) : Byte :=
  BitVec.ofNat 8
    (if v < 26 then 0x41 + v
     else if v < 52 then 0x61 + (v - 26)
     else if v < 62 then 0x30 + (v - 52)
     else if v = 62 then 0x2B
     else 0x2F)

/-- The 6-bit value of a character of the alphabet; `none` for any other byte. -/
def base64Value (c : Byte) : Option Nat :=
  let n := c.toNat
  if 0x41 ≤ n ∧ n ≤ 0x5A then some (n - 0x41)
  else if 0x61 ≤ n ∧ n ≤ 0x7A then some (n - 0x61 + 26)
  else if 0x30 ≤ n ∧ n ≤ 0x39 then some (n - 0x30 + 52)
  else if n = 0x2B then some 62
  else if n = 0x2F then some 63
  else none

/-- The padding character `=`. -/
def base64Pad : Byte := 0x3D

/-- A character of the alphabet. -/
abbrev IsBase64Char (c : Byte) : Prop := (base64Value c).isSome = true

/-- `B64Enc(x)` (R230). -/
def base64Encode : Bytes → Bytes
  | b0 :: b1 :: b2 :: rest =>
    base64Char (b0.toNat / 4) ::
      base64Char (b0.toNat % 4 * 16 + b1.toNat / 16) ::
        base64Char (b1.toNat % 16 * 4 + b2.toNat / 64) ::
          base64Char (b2.toNat % 64) :: base64Encode rest
  | [b0, b1] =>
    [base64Char (b0.toNat / 4), base64Char (b0.toNat % 4 * 16 + b1.toNat / 16), base64Char (b1.toNat % 16 * 4),
      base64Pad]
  | [b0] => [base64Char (b0.toNat / 4), base64Char (b0.toNat % 4 * 16), base64Pad, base64Pad]
  | [] => []

/-- `|B64Enc(x)|` of a string of `n` bytes (R231). -/
def base64Length (n : Nat) : Nat := 4 * ceilDiv n 3

/-- `B64Valid(t)` (R232): whole groups of four, alphabet characters everywhere but for `=` in the last one or two places
of the last group. -/
def base64Valid : Bytes → Bool
  | [] => true
  | [c0, c1, c2, c3] =>
    decide (IsBase64Char c0) && decide (IsBase64Char c1) &&
      (decide (IsBase64Char c2 ∧ IsBase64Char c3) || decide (IsBase64Char c2 ∧ c3 = base64Pad) ||
        decide (c2 = base64Pad ∧ c3 = base64Pad))
  | c0 :: c1 :: c2 :: c3 :: rest =>
    decide (IsBase64Char c0) && decide (IsBase64Char c1) && decide (IsBase64Char c2) && decide (IsBase64Char c3) &&
      base64Valid rest
  | _ => false

/-- The three bytes of a group's four 6-bit values. -/
def base64Group (v0 v1 v2 v3 : Nat) : Byte × Byte × Byte :=
  (BitVec.ofNat 8 (v0 * 4 + v1 / 16), BitVec.ofNat 8 (v1 % 16 * 16 + v2 / 4), BitVec.ofNat 8 (v2 % 4 * 64 + v3))

/-- The 6-bit value a character stands for; the padding character stands for no bits. -/
def base64Bits (c : Byte) : Nat := (base64Value c).getD 0

/-- `B64Dec(t)` for a valid text (R233): a group ending `==` gives one byte, one ending `=` two, any other three.  The
unused bits of a final group are dropped. -/
def base64Decode : Bytes → Bytes
  | c0 :: c1 :: c2 :: c3 :: rest =>
    let g := base64Group (base64Bits c0) (base64Bits c1) (base64Bits c2) (base64Bits c3)
    if c2 = base64Pad then [g.1]
    else if c3 = base64Pad then [g.1, g.2.1]
    else g.1 :: g.2.1 :: g.2.2 :: base64Decode rest
  | _ => []

end Sys2Proof.Machine
end

