-- ==== Sys2Proof/Machine/Vault.lean ====
section
/-!
DEFINITION. The VaultCodec (spec 42_vault.md): the password key, the salted blob, the five rounds, the split of unsealed
bytes into candidate keys, and the commands SEAL (R206) and UNSEAL (R215).
-/

namespace Sys2Proof.Machine

/-- `VAULT_ROUNDS` (R200). -/
def vaultRounds : Nat := 5

/-- `PASSKEY_LEN` (R5, R201): the length of the hex text of a 512-bit digest. -/
def passKeyLength : Nat := 128

/-- The byte `"\n"` (R7). -/
def newline : Byte := 0x0A

/-- The passKey of a password (R201): the hex text of its SHA-512 digest. -/
def passKey (password : Bytes) : Bytes := hexText (hash512 password)

/-- The keys of a blob, each followed by a newline (R204). -/
def keyLines : List Bytes → Bytes
  | [] => []
  | k :: ks => k ++ newline :: keyLines ks

/-- The blob (R204): the salt and the keys, a newline after each. -/
def vaultBlob (salt : Bytes) (keys : List Bytes) : Bytes := salt ++ newline :: keyLines keys

/-- `|blob|` for `n` keys of `len` bytes (R204). -/
def blobLength (len n : Nat) : Nat := len / 2 + 1 + n * (len + 1)

/-- Apply a transform with the same key for a number of rounds. -/
def rounds (transform : Bytes → Bytes → Bytes) (key : Bytes) : Nat → Bytes → Bytes
  | 0, x => x
  | n + 1, x => rounds transform key n (transform x key)

/-- `SealRounds(blob, pk)` (R205). -/
def sealRounds (blob key : Bytes) : Bytes := rounds forward key vaultRounds blob

/-- `UnsealRounds(x, pk)` (R210). -/
def unsealRounds (x key : Bytes) : Bytes := rounds inverse key vaultRounds x

/-- `Split(y)` (R212): the segments between 0x0A bytes, as the first one and the others. -/
def splitLines : Bytes → Bytes × List Bytes
  | [] => ([], [])
  | b :: bs =>
    let rest := splitLines bs
    if b = newline then ([], rest.1 :: rest.2) else (b :: rest.1, rest.2)

/-- The candidate keys (R213): the non-empty segments but the first, or the only segment where there is just one. -/
def candidates (y : Bytes) : List Bytes :=
  match splitLines y with
  | (first, []) => [first].filter (fun k => decide (k ≠ []))
  | (_, others) => others.filter (fun k => decide (k ≠ []))

/-! ### SEAL -/

/-- What the check phase of SEAL settles. -/
structure SealPlan where
  keySet : KeySet
  sealedLen : Nat
  textLen : Nat
  deriving DecidableEq, Repr

/-- The check phase of SEAL (R206). -/
def planSeal (s : State) : Except Raise SealPlan := do
  let row := s.latch.sealRow
  checkRegions s.params.bufSize row
  let ks ← keyPhase s row
  let sealed := paddedLength (blobLength ks.len row.keyCount) passKeyLength
  demand (sealed ≤ s.latch.scr.len) .capacityExceeded
  let text := base64Length sealed
  demand (text ≤ s.latch.dst.len) .capacityExceeded
  pure { keySet := ks, sealedLen := sealed, textLen := text }

/-- The execute phase of SEAL (R206): the salt draw may fail (R203). -/
def sealVault (s : State) (p : SealPlan) : State :=
  match s.entropy.draw (p.keySet.len / 2) with
  | (none, e) => { s with entropy := e }.raiseUnspecified s.latch.sealRow .randomBytes
  | (some salt, e) =>
    let sealed := sealRounds (vaultBlob salt p.keySet.keys) (passKey (s.latch.pwd.bytes s.mem))
    let mem := (s.mem.writeBytes s.latch.scr.addr sealed).writeBytes s.latch.dst.addr (base64Encode sealed)
    { s with entropy := e }.succeed mem p.textLen s.latch.sealRow.keyCount p.keySet.len

/-- SEAL (R206). -/
def execSeal (s : State) : Host.Outcome State Fault Refusal :=
  s.conclude do
    let p ← planSeal s
    pure (sealVault s p)

/-! ### UNSEAL -/

/-- The execute phase of UNSEAL on the decoded bytes `x` (R215): rounds, strip, split, validate, write.  Every validation
error is reported as `WrongPasswordOrCorrupt` (R214). -/
def unsealVault (s : State) (x : Bytes) : State :=
  let plain := unsealRounds x (passKey (s.latch.pwd.bytes s.mem))
  match validateKeys (candidates (stripZeros plain)) with
  | .error _ => s.raiseUnspecified s.latch.unsealRow .wrongPasswordOrCorrupt
  | .ok ks =>
    let len := ks.keys.length * ks.len
    if len ≤ s.latch.dst.len then
      s.succeed ((s.mem.writeBytes s.latch.scr.addr plain).writeBytes s.latch.dst.addr ks.keys.flatten) len
        ks.keys.length ks.len
    else s.raiseUnspecified s.latch.unsealRow .capacityExceeded

/-- UNSEAL (R215). -/
def execUnseal (s : State) : Host.Outcome State Fault Refusal :=
  s.conclude do
    checkRegions s.params.bufSize s.latch.unsealRow
    let text := s.latch.src.bytes s.mem
    demand (base64Valid text = true) .decodeFailed
    let x := base64Decode text
    demand (x.length ≤ s.latch.scr.len) .capacityExceeded
    demand (x.length % passKeyLength = 0) .wrongPasswordOrCorrupt
    pure (unsealVault s x)

end Sys2Proof.Machine
end

