-- ==== Sys2Proof/Machine/Reset.lean ====
section
/-!
DEFINITION. The reset input (spec 70_reset_and_hazards.md R290, R291).
-/

namespace Sys2Proof.Machine

/-- Every register at its reset value, the engine idle (R290, R32, R59).  Buffer memory and the entropy source's
indication are kept, and the parameters are the machine's. -/
def State.resetRegisters (s : State) : State :=
  { s with
    ie := false
    done := false
    overrun := false
    err := .success
    cmd := 0
    ops := Operands.zero
    resultLen := 0
    resultCount := 0
    resultKlen := 0
    errInfo := 0
    latch := { cmd := 0, ops := Operands.zero }
    sequencer := none }

/-- The most entropy a command can draw: what its check phase allows KGEN and SEAL, nothing for any other (R176, R203). -/
def State.entropyBound (s : State) : Instr → Nat
  | .kgen =>
    match planGeneration s with
    | .ok p => p.count * (p.bits / 8)
    | .error _ => 0
  | .vaultSeal =>
    match planSeal s with
    | .ok p => p.keySet.len / 2
    | .error _ => 0
  | _ => 0

/-- What an abandoned command leaves (R291): the in-bounds bytes of its write regions unspecified, and the entropy it had
already drawn lost, a free amount up to what it could draw.  An illegal word has no regions. -/
def State.abandon (s : State) : State :=
  match decode s.latch.cmd with
  | .error _ => s
  | .ok i =>
    let lost := Config.drawnBeforeReset s.freeUsed % (s.entropyBound i + 1)
    { s with entropy := s.entropy.skip lost }.scramble (s.latch.row i).writes

/-- The reset input (R290), the same whether or not a command runs but for the command it abandons (R291). -/
def State.resetInput (s : State) : State :=
  (if s.busy then s.abandon else s).resetRegisters

end Sys2Proof.Machine
end

