-- ==== Sys2Proof/Machine/Bus.lean ====
section
/-!
DEFINITION. The host side of the block: what one host access, one poll and one reset do (spec 20_memory.md R70 to R73,
R83, R86; 70_reset_and_hazards.md R290, R294).
-/

namespace Sys2Proof.Machine

/-- The number of bytes of an access. -/
def Width.bytes : Width → Nat
  | .byte => 1
  | .half => 2
  | .word => 4

/-- What a host address names (R72, R73). -/
inductive BusTarget where
  | register (r : Reg)
  | buffer (offset : Nat)
  | badRegister
  | outside
  deriving DecidableEq, Repr

/-- The register block is reached at `REG_BASE` with aligned 32-bit accesses only (R73), buffer memory at `BUF_BASE`
with accesses of 1, 2 or 4 bytes that lie inside it whole (R72).  Where a platform overlays the two, the register block
answers (log entry 1).  DESIGN CHOICE (log entry 18): an access is aligned when its offset from `REG_BASE` is a multiple
of 4; R73 does not say what it measures alignment on where `REG_BASE` is none. -/
def busTarget (p : Params) (width : Width) (addr : Nat) : BusTarget :=
  if p.regBase ≤ addr ∧ addr < p.regBase + registerBlockSize then
    if width = .word ∧ (addr - p.regBase) % 4 = 0 then .register (regAt ((addr - p.regBase) / 4)) else .badRegister
  else if p.bufBase ≤ addr ∧ addr + width.bytes ≤ p.bufBase + p.bufSize then .buffer (addr - p.bufBase)
  else .outside

/-- The running command's regions, key regions included (R75); none when the engine is idle or the word is illegal. -/
def State.busyRegions (s : State) : List Region :=
  if s.busy then
    match decode s.latch.cmd with
    | .ok i => s.latch.allRegions s.mem s.params.bufSize i
    | .error _ => []
  else []

/-- The running command's write regions. -/
def State.busyWrites (s : State) : List Region :=
  if s.busy then
    match decode s.latch.cmd with
    | .ok i => (s.latch.row i).writes
    | .error _ => []
  else []

/-- Some byte of `[addr, addr + n)` lies in one of the regions. -/
abbrev Touches (regions : List Region) (addr n : Nat) : Prop :=
  ∃ r ∈ regions, ∃ k ∈ List.range n, r.Covers (addr + k)

/-- The bytes a host read returns: memory's, but a free value for each byte of a running command's write region (R86,
R294, U8).  The `k`-th free value is used for the byte that needs it. -/
def readVisible (m : Memory) (hidden : List Region) : Nat → Nat → Nat → Bytes
  | 0, _, _ => []
  | n + 1, addr, k =>
    (if ∃ r ∈ hidden, r.Covers addr then Config.freeByte k else m.read addr) ::
      readVisible m hidden n (addr + 1) (k + 1)

/-- The host receives a word. -/
def State.deliver (s : State) (v : Word) : State :=
  { s with host := { s.host with received := v :: s.host.received } }

/-- A host read of buffer memory (R72, R86): the bytes little-endian, zero-extended.  Only a read that touches a running
command's write region uses free values. -/
def State.readBuffer (s : State) (width : Width) (offset : Nat) : State :=
  let value := littleEndianValue (readVisible s.mem s.busyWrites width.bytes offset s.freeUsed)
  let used := if Touches s.busyWrites offset width.bytes then width.bytes else 0
  { s with freeUsed := s.freeUsed + used }.deliver (BitVec.ofNat 32 value)

/-- A host write of buffer memory (R70, R72): the low bytes of the value, little-endian.  A write into a region of the
running command is the fault of R294. -/
def State.writeBuffer (s : State) (width : Width) (offset : Nat) (v : Word) : Host.Outcome State Fault Refusal :=
  if Touches s.busyRegions offset width.bytes then .fault .busyRegionWrite
  else .next { s with mem := s.mem.writeBytes offset (littleEndianBytes width.bytes v.toNat) }

/-- A host read at a host address. -/
def State.hostRead (s : State) (width : Width) (addr : Nat) : Host.Outcome State Fault Refusal :=
  match busTarget s.params width addr with
  | .register r => .next (s.deliver (s.readReg r))
  | .buffer offset => .next (s.readBuffer width offset)
  | .badRegister => .refused .registerAccess
  | .outside => .refused .outsideBlock

/-- A host write at a host address. -/
def State.hostWrite (s : State) (width : Width) (addr : Nat) (v : Word) : Host.Outcome State Fault Refusal :=
  match busTarget s.params width addr with
  | .register r => .next (s.writeReg r v)
  | .buffer offset => s.writeBuffer width offset v
  | .badRegister => .refused .registerAccess
  | .outside => .refused .outsideBlock

/-- The state once the host's first pending input has been taken up. -/
def State.popInput (s : State) : State :=
  { s with host := { s.host with pending := s.host.pending.drop 1 } }

/-- What one input does. -/
def State.applyInput (s : State) (x : Input) : Host.Outcome State Fault Refusal :=
  match x with
  | .read width addr => s.hostRead width addr
  | .write width addr v => s.hostWrite width addr v
  | .waitDone => .next s
  | .idle => .next s
  | .reset => .next s.resetInput
  | .entropyReady b => .next { s with entropy := { s.entropy with ready := b } }

/-- One host tick: the first pending input is taken up, in host program order (R83).  A host that waits for completion
stays where it is while BUSY = 1 (R111); with nothing pending the block stays as it is. -/
def serveHost (s : State) : Host.Outcome State Fault Refusal :=
  match s.host.pending with
  | [] => .next s
  | x :: _ => if x = .waitDone ∧ s.busy = true then .next s else s.popInput.applyInput x

end Sys2Proof.Machine
end

