-- ==== Sys2Proof/Machine/Envelope.lean ====
section
/-!
DEFINITION. The envelope and artifact commands (spec 43_envelope.md): B64E (R234), B64D (R235), ENC (R236), DEC (R237).
-/

namespace Sys2Proof.Machine

/-- B64E (R234). -/
def execB64e (s : State) : Host.Outcome State Fault Refusal :=
  s.conclude do
    checkRegions s.params.bufSize s.latch.base64Row
    let len := base64Length s.latch.src.len
    demand (len ≤ s.latch.dst.len) .capacityExceeded
    pure (s.succeed (s.mem.writeBytes s.latch.dst.addr (base64Encode (s.latch.src.bytes s.mem))) len 0 0)

/-- B64D (R235). -/
def execB64d (s : State) : Host.Outcome State Fault Refusal :=
  s.conclude do
    checkRegions s.params.bufSize s.latch.base64Row
    let text := s.latch.src.bytes s.mem
    demand (base64Valid text = true) .decodeFailed
    let out := base64Decode text
    demand (out.length ≤ s.latch.dst.len) .capacityExceeded
    pure (s.succeed (s.mem.writeBytes s.latch.dst.addr out) out.length 0 0)

/-- ENC (R236). -/
def execEnc (s : State) : Host.Outcome State Fault Refusal :=
  s.conclude do
    let row := s.latch.artifactRow
    checkRegions s.params.bufSize row
    let ks ← keyPhase s row
    let padded := paddedLength s.latch.src.len ks.len
    demand (padded ≤ s.latch.scr.len) .capacityExceeded
    let len := base64Length padded
    demand (len ≤ s.latch.dst.len) .capacityExceeded
    let cipher := cascadeForward (s.latch.src.bytes s.mem) ks.keys
    let mem := (s.mem.writeBytes s.latch.scr.addr cipher).writeBytes s.latch.dst.addr (base64Encode cipher)
    pure (s.succeed mem len row.keyCount ks.len)

/-- DEC (R237). -/
def execDec (s : State) : Host.Outcome State Fault Refusal :=
  s.conclude do
    let row := s.latch.artifactRow
    checkRegions s.params.bufSize row
    let ks ← keyPhase s row
    let text := s.latch.src.bytes s.mem
    demand (base64Valid text = true) .decodeFailed
    let cipher := base64Decode text
    demand (cipher.length ≤ s.latch.scr.len) .capacityExceeded
    demand (cipher.length % ks.len = 0) .blockLength
    demand (cipher.length ≤ s.latch.dst.len) .capacityExceeded
    let plain := cascadeInverse cipher ks.keys
    let mem := (s.mem.writeBytes s.latch.scr.addr cipher).writeBytes s.latch.dst.addr plain
    pure (s.succeed mem (stripZeros plain).length row.keyCount ks.len)

end Sys2Proof.Machine
end

