-- ==== Sys2Proof/Machine/Dispatch.lean ====
section
/-!
DEFINITION. One arm per command: the meaning of each (spec 30_encoding.md R101).
-/

namespace Sys2Proof.Machine

/-- Run one command on the latched context and complete it (R93). -/
def exec (i : Instr) (s : State) : Host.Outcome State Fault Refusal :=
  match i with
  -- CipherEngine (40_cipher.md)
  | .fwd => Sys2Proof.Machine.execFwd s
  | .inv => Sys2Proof.Machine.execInv s
  | .invZ => Sys2Proof.Machine.execInvZ s
  | .cfwd => Sys2Proof.Machine.execCfwd s
  | .cinv => Sys2Proof.Machine.execCinv s
  | .cinvZ => Sys2Proof.Machine.execCinvZ s
  -- KeyValidator and KeyDerivation (41_keys.md)
  | .kchk => Sys2Proof.Machine.execKchk s
  | .kgen => Sys2Proof.Machine.execKgen s
  -- VaultCodec (42_vault.md)
  | .vaultSeal => Sys2Proof.Machine.execSeal s
  | .vaultUnseal => Sys2Proof.Machine.execUnseal s
  -- Base64Envelope and the artifact flows (43_envelope.md)
  | .b64e => Sys2Proof.Machine.execB64e s
  | .b64d => Sys2Proof.Machine.execB64d s
  | .enc => Sys2Proof.Machine.execEnc s
  | .dec => Sys2Proof.Machine.execDec s

end Sys2Proof.Machine
end

