-- ==== Sys2Proof/Machine/Engine.lean ====
section
/-!
DEFINITION. The engine and the order in which it and the host move (spec 20_memory.md R83, R89 to R93; 30_encoding.md
R103; 70_reset_and_hazards.md R303, R304).
-/

namespace Sys2Proof.Machine

/-- Run the latched command word: the command it decodes to, or the `IllegalCommand` completion (R103). -/
def runLatched (s : State) : Host.Outcome State Fault Refusal :=
  match decode s.latch.cmd with
  | .ok i => exec i s
  | .error _ => .next (s.raise { code := .illegalCommand })

/-- One tick.  While a command has latency left, the tick takes one off it and serves the host, so host accesses fall
anywhere between acceptance and completion; when none is left, the tick runs and completes the command.  When the engine
is idle the tick serves the host. -/
def tick (s : State) : Host.Outcome State Fault Refusal :=
  match s.sequencer with
  | none => serveHost s
  | some q =>
    match q.wait with
    | 0 => runLatched s
    | n + 1 => serveHost { s with sequencer := some { q with wait := n } }

end Sys2Proof.Machine
end

