-- ==== Sys2Proof/Machine/Step.lean ====
section
/-!
DEFINITION. The step of the machine, and the state in which the next step runs a given command word.
-/

namespace Sys2Proof.Machine

/-- One step of the machine. -/
def step (s : State) : Host.Outcome State Fault Refusal := tick s

/-- `s` with the command word `w` accepted as R89 says and no latency left, so that the next step runs it: the engine's
form of a fetch (R31: it fetches nothing, a command word is written to CMD).  Log entry 7. -/
def State.withFetchWord (s : State) (nbits w : Nat) : State :=
  s.accept (BitVec.ofNat 32 (w % 2 ^ nbits)) 0

end Sys2Proof.Machine
end

