-- ==== Sys2Proof/Machine/HostProgram.lean ====
section
/-!
DEFINITION. Host programs (spec 30_encoding.md R110, R111; 70_reset_and_hazards.md R305): the statements and
pseudo-instructions of the assembler syntax, the inputs each of them is, and the end of a run and its end state.
-/

namespace Sys2Proof.Machine

/-- A statement of a host program. -/
inductive HostStmt where
  /-- `wr NAME, v`. -/
  | wr (r : Reg) (v : Word)
  /-- `rd NAME`. -/
  | rd (r : Reg)
  /-- `st off, bytes`. -/
  | st (offset : Nat) (bytes : Bytes)
  /-- `ld off, n`. -/
  | ld (offset n : Nat)
  /-- A command mnemonic. -/
  | command (i : Instr)
  /-- `wait`. -/
  | wait
  /-- `run m`. -/
  | run (i : Instr)
  /-- `clr`. -/
  | clr
  /-- `desc T, i, a, l`. -/
  | desc (table i : Nat) (addr len : Word)
  /-- `cmd w`. -/
  | cmd (w : Word)
  deriving DecidableEq, Repr

/-- The host write of a register. -/
def registerWrite (p : Params) (r : Reg) (v : Word) : Input := .write .word (p.regBase + r.offset) v

/-- The host writes of a byte string, one byte at a time. -/
def bufferWrites (p : Params) (offset : Nat) : Bytes → List Input
  | [] => []
  | b :: bs => .write .byte (p.bufBase + offset) (b.zeroExtend 32) :: bufferWrites p (offset + 1) bs

/-- The host reads of a byte range, one byte at a time. -/
def bufferReads (p : Params) (offset : Nat) : Nat → List Input
  | 0 => []
  | n + 1 => .read .byte (p.bufBase + offset) :: bufferReads p (offset + 1) n

/-- The inputs of a statement: its expansion by R110 and R111. -/
def HostStmt.inputs (p : Params) : HostStmt → List Input
  | .wr r v => [registerWrite p r v]
  | .rd r => [.read .word (p.regBase + r.offset)]
  | .st offset bytes => bufferWrites p offset bytes
  | .ld offset n => bufferReads p offset n
  | .command i => [registerWrite p .cmd (encode i)]
  | .wait => [.waitDone]
  | .run i => [registerWrite p .cmd (encode i), .waitDone]
  | .clr => [registerWrite p .status 0x00000006]
  | .desc table i addr len =>
    bufferWrites p (table + 8 * i) (littleEndianBytes 4 addr.toNat ++ littleEndianBytes 4 len.toNat)
  | .cmd w => [registerWrite p .cmd w]

/-- The machine with a host program about to run, after whatever the host already had pending. -/
def State.loadProgram (s : State) (program : List HostStmt) : State :=
  { s with host := { s.host with pending := s.host.pending ++ program.flatMap (HostStmt.inputs s.params) } }

/-! ### The end of a run (R305) -/

/-- The host program has ended: its last statement has been taken up, whether or not a command still runs. -/
abbrev State.Ended (s : State) : Prop := s.host.pending = []

/-- The end state of a run that ends in `s`: its register values and buffer-memory bytes, but that the outputs of a command
still running are unspecified (93_implementation_defined.md U19), each byte of its write regions a free value.
DEDUCED (log entry 19): the result registers are no such outputs, they read 0 while BUSY = 1 (R296). -/
def State.endState (s : State) : State := s.scramble s.busyWrites

/-- Run a host program to its end: the end state at the first point where it has ended, or the stop that came before;
`none` when `fuel` steps do not reach either. -/
def runToEnd : Nat → State → Option (Host.Outcome State Fault Refusal)
  | 0, s => if s.Ended then some (.next s.endState) else none
  | fuel + 1, s =>
    if s.Ended then some (.next s.endState)
    else
      match step s with
      | .next t => runToEnd fuel t
      | .fault r => some (.fault r)
      | .refused r => some (.refused r)

end Sys2Proof.Machine
end

