-- ==== Sys2Proof/Safety.lean ====
section
/-!
DEFINITION. The terms claims are made in: the invariant of the machine, what it is for a command's regions and keys to be
in order, and the state a completed command leaves, written out field by field.
-/

namespace Sys2Proof.Machine

/-! ### The invariant -/

/-- What every step keeps: legal parameters, canonical memory inside the buffer (R71), only errors that can be produced
(R261, R278), a blank report and an unchanged CMD while a command runs (R41, R90, R296), no results beside an error
(R48), and an ERR_INFO only beside the errors that name a key (R49). -/
structure State.Inv (s : State) : Prop where
  params : s.params.Admitted
  memCanonical : s.mem.wf
  memInside : s.mem.Within s.params.bufSize
  errProduced : s.err ≠ .encodeFailed ∧ s.err ≠ .noData
  busyReport : s.busy = true →
    s.done = false ∧ s.err = .success ∧ s.resultLen = 0 ∧ s.resultCount = 0 ∧ s.resultKlen = 0 ∧ s.errInfo = 0
  busyCommand : s.busy = true → s.latch.cmd = s.cmd
  errorResults : s.err ≠ .success → s.resultLen = 0 ∧ s.resultCount = 0 ∧ s.resultKlen = 0
  errorInfo : s.errInfo ≠ 0 →
    s.err = .readFailed ∨ s.err = .overlap ∨ s.err = .invalidLength ∨ s.err = .lengthMismatch ∨ s.err = .invalidKey

/-! ### A command's operands in order -/

/-- The fixed-region checks of a row succeed: every region in bounds (R76) and no forbidden overlap (R77). -/
abbrev RegionsOk (s : State) (row : CommandRow) : Prop :=
  (∀ r ∈ row.reads, r.InBounds s.params.bufSize) ∧ (∀ w ∈ row.writes, w.InBounds s.params.bufSize) ∧ row.Disjoint

/-- A valid key set of `len`-byte keys (R13 KeySet, R171). -/
abbrev ValidKeys (ks : List Bytes) (len : Nat) : Prop :=
  ks ≠ [] ∧ len ≠ 0 ∧ len % 64 = 0 ∧ ∀ k ∈ ks, k.length = len ∧ ∀ c ∈ k, IsHexChar c

/-- The descriptors a row reads name regions in bounds and clear of the write regions (R170). -/
abbrev DescriptorOk (s : State) (row : CommandRow) (i : Nat) : Prop :=
  (s.latch.keyRegion s.mem i).InBounds s.params.bufSize ∧
    ∀ w ∈ row.writes, ¬ (s.latch.keyRegion s.mem i).Intersects w

/-- The key table of a row names the key set `ks`, and the set is valid: `KeyPhase` succeeds with it (R170, R171). -/
abbrev KeysOk (s : State) (row : CommandRow) (ks : List Bytes) (len : Nat) : Prop :=
  row.keyCount = ks.length ∧ ValidKeys ks len ∧
    ∀ i < row.keyCount, DescriptorOk s row i ∧ ks[i]? = some ((s.latch.keyRegion s.mem i).bytes s.mem)

/-! ### What a completed command leaves -/

/-- `s` with a command's report: every field a completion writes (R93), and no other. -/
def ended (s : State) (mem : Memory) (code : ErrCode) (info len count klen : Nat) : State :=
  { s with
    mem := mem
    sequencer := none
    done := true
    err := code
    errInfo := BitVec.ofNat 32 info
    resultLen := BitVec.ofNat 32 len
    resultCount := BitVec.ofNat 32 count
    resultKlen := BitVec.ofNat 32 klen }

/-- The report of an error found in the check phase: memory unchanged and the results 0 (R81, R262). -/
def failed (s : State) (code : ErrCode) (info : Nat) : State := ended s s.mem code info 0 0 0

/-! ### Terms of single rules -/

/-- The commands that read keys (R170). -/
def keyed : Instr → Bool
  | .fwd | .inv | .invZ | .cfwd | .cinv | .cinvZ | .kchk | .vaultSeal | .enc | .dec => true
  | .kgen | .vaultUnseal | .b64e | .b64d => false

/-- The operand registers in the order of their offsets 0x010 to 0x03C (R32). -/
def Operands.toList (o : Operands) : List Word :=
  [o.srcAddr, o.srcLen, o.dstAddr, o.dstCap, o.scrAddr, o.scrCap, o.keytabAddr, o.keyCount, o.pwdAddr, o.pwdLen,
    o.kgBits, o.kgCount]

/-- The operand registers a command reads (R105). -/
def Operands.readBy (o : Operands) : Instr → List Word
  | .fwd | .inv | .invZ | .cfwd | .cinv | .cinvZ =>
    [o.srcAddr, o.srcLen, o.dstAddr, o.dstCap, o.keytabAddr, o.keyCount]
  | .kchk => [o.keytabAddr, o.keyCount]
  | .kgen => [o.kgBits, o.kgCount, o.dstAddr, o.dstCap]
  | .vaultSeal =>
    [o.keytabAddr, o.keyCount, o.pwdAddr, o.pwdLen, o.scrAddr, o.scrCap, o.dstAddr, o.dstCap]
  | .vaultUnseal => [o.srcAddr, o.srcLen, o.pwdAddr, o.pwdLen, o.scrAddr, o.scrCap, o.dstAddr, o.dstCap]
  | .b64e | .b64d => [o.srcAddr, o.srcLen, o.dstAddr, o.dstCap]
  | .enc | .dec => [o.srcAddr, o.srcLen, o.keytabAddr, o.keyCount, o.scrAddr, o.scrCap, o.dstAddr, o.dstCap]

/-- The regions a command reads, key regions included (R75). -/
def readRegions (s : State) (i : Instr) : List Region :=
  (s.latch.row i).reads ++ s.latch.keyRegions s.mem s.params.bufSize (s.latch.row i)

/-- The byte ranges, as start and length, that a command which succeeds from `s` to `t` stores to: from the start of DST
and, for the four commands that have one, of SCR, as many bytes as its rule names (R80, R140 to R237). -/
def storedRanges (i : Instr) (s t : State) : List (Nat × Nat) :=
  match i with
  | .fwd | .cfwd | .kgen | .b64e | .b64d => [(s.latch.dst.addr, t.resultLen.toNat)]
  | .inv | .invZ | .cinv | .cinvZ => [(s.latch.dst.addr, s.latch.src.len)]
  | .kchk => []
  | .vaultSeal =>
    [(s.latch.scr.addr, paddedLength (blobLength t.resultKlen.toNat t.resultCount.toNat) passKeyLength),
      (s.latch.dst.addr, t.resultLen.toNat)]
  | .vaultUnseal =>
    [(s.latch.scr.addr, (base64Decode (s.latch.src.bytes s.mem)).length), (s.latch.dst.addr, t.resultLen.toNat)]
  | .enc =>
    [(s.latch.scr.addr, paddedLength s.latch.src.len t.resultKlen.toNat), (s.latch.dst.addr, t.resultLen.toNat)]
  | .dec =>
    [(s.latch.scr.addr, (base64Decode (s.latch.src.bytes s.mem)).length),
      (s.latch.dst.addr, (base64Decode (s.latch.src.bytes s.mem)).length)]

/-- `a` lies in none of the ranges. -/
abbrev Outside (ranges : List (Nat × Nat)) (a : Nat) : Prop := ∀ p ∈ ranges, a < p.1 ∨ p.1 + p.2 ≤ a

/-- The key that one key's seed bytes give, `units` times 256 bits (R175): SHA-512 segments of 64 seed bytes, then one
SHA-256 segment of 32 bytes when `units` is odd. -/
def keyOfSeed : Nat → Bytes → Bytes
  | 0, _ => []
  | 1, seed => hexText (hash256 (seed.take 32))
  | units + 2, seed => hexText (hash512 (seed.take 64)) ++ keyOfSeed units (seed.drop 64)

/-- The keys that the seed bytes of a whole KGEN give, `bits / 8` bytes a key, key 0 first (R176). -/
def keysOfSeeds (bits : Nat) : Nat → Bytes → Bytes
  | 0, _ => []
  | n + 1, seeds => keyOfSeed (bits / 256) (seeds.take (bits / 8)) ++ keysOfSeeds bits n (seeds.drop (bits / 8))

/-- Every byte of a salt after its first 0x0A is 0x0A too (R216). -/
abbrev SaltReopens (salt : Bytes) : Prop :=
  ∀ i < salt.length, ∀ j < salt.length, i < j → salt[i]? = some newline → salt[j]? = some newline

/-- A buffer access of `width` at `off` that reaches buffer memory: inside it whole (R72), and not at an address where
the platform has put the register block. -/
abbrev ReachesBuffer (p : Params) (width : Width) (off : Nat) : Prop :=
  off + width.bytes ≤ p.bufSize ∧
    ¬ (p.regBase ≤ p.bufBase + off ∧ p.bufBase + off < p.regBase + registerBlockSize)

end Sys2Proof.Machine
end

