-- ==== Sys2Proof/Certificates/Slice0/Obligations.lean ====
section
/-!
DEFINITION. The statements for the provers.  Each docstring names the rules of spec/ it rests on.  Hypotheses are about
the state and the operands alone; the terms they use are in Safety.lean.
-/

open Sys2Proof Sys2Proof.Machine

/-! ### Command words -/

/-- R101: the words of the opcode map decode to their commands. -/
def Obligations.ListedCommandWordsDecode : Prop :=
  decode 0x00000001 = .ok .fwd ∧ decode 0x00000002 = .ok .inv ∧ decode 0x00000102 = .ok .invZ ∧
    decode 0x00000003 = .ok .cfwd ∧ decode 0x00000004 = .ok .cinv ∧ decode 0x00000104 = .ok .cinvZ ∧
    decode 0x00000005 = .ok .kchk ∧ decode 0x00000006 = .ok .kgen ∧ decode 0x00000007 = .ok .vaultSeal ∧
    decode 0x00000008 = .ok .vaultUnseal ∧ decode 0x00000009 = .ok .b64e ∧ decode 0x0000000A = .ok .b64d ∧
    decode 0x0000000B = .ok .enc ∧ decode 0x0000000C = .ok .dec

/-- R103, R104: a word decodes exactly when it is legal, and each command is the meaning of exactly one word; so there
are exactly 14 legal words. -/
def Obligations.DecodeAcceptsExactlyTheLegalWords : Prop :=
  ∀ w : Word, ((∃ i, decode w = .ok i) ↔ (fieldsOf w).Legal) ∧ ∀ i, decode w = .ok i ↔ w = encode i

/-- R100: the three fields make up the word; none of its 32 bits is dropped or shared. -/
def Obligations.CommandWordFieldsAreExact : Prop :=
  (∀ c : CommandWord, fieldsOf (wordOf c) = c) ∧ ∀ w : Word, wordOf (fieldsOf w) = w

/-- R103: an illegal word is accepted as any other (R89), and completes with `IllegalCommand` and nothing else: no memory
byte and no other register changes.  That the CMD write is one pending input taken up in one step, and that the step with no
latency left completes the word, is the model's choice (log entries 2, 11 and 12). -/
def Obligations.IllegalWordsOnlyReport : Prop :=
  (∀ w : Word, (∃ e, decode w = .error e) ↔ ¬ (fieldsOf w).Legal) ∧
    (∀ (s : State) (w : Word) (rest : List Input), s.sequencer = none →
      s.host.pending = .write .word (s.params.regBase + 0x0C) w :: rest →
      ∃ n, step s = .next (({ s with
        host := { s.host with pending := rest }, accepted := s.accepted + 1 } : State).accept w n)) ∧
    ∀ (s : State) (q : Sequencer), s.sequencer = some q → q.wait = 0 → ¬ (fieldsOf s.latch.cmd).Legal →
      step s = .next (failed s .illegalCommand 0)

/-! ### Who moves -/

/-- When a running command has no latency left, the step runs the command its latched word decodes to; and the state
`withFetchWord` makes is such a state.  R89 says that the engine decodes and runs the latched word, and R31 that nothing is
fetched; that one step runs the whole command once no latency is left is the model's choice (log entries 2, 11 and 12),
and so is `withFetchWord` (log entry 7). -/
def Obligations.StepRunsTheLatchedCommand : Prop :=
  (∀ (s : State) (q : Sequencer) (i : Instr), s.sequencer = some q → q.wait = 0 → decode s.latch.cmd = .ok i →
    step s = exec i s) ∧
    ∀ (s : State) (i : Instr), step (s.withFetchWord 32 (encode i).toNat) = exec i (s.accept (encode i) 0)

/-- R83, R111, R304: otherwise the step takes up the host's inputs in order, whether or not a command runs; a host that
waits is held while BUSY = 1, the command's latency goes down meanwhile, with or without an input, and an idle block with no
input stays as it is.
One input a step and the count of the latency are the model's (log entries 2 and 11). -/
def Obligations.StepServesTheHostInProgramOrder : Prop :=
  (∀ (s : State) (x : Input) (rest : List Input), s.sequencer = none → s.host.pending = x :: rest →
    step s = ({ s with host := { s.host with pending := rest } } : State).applyInput x) ∧
    (∀ (s : State) (q : Sequencer) (n : Nat) (x : Input) (rest : List Input), s.sequencer = some q → q.wait = n + 1 →
      s.host.pending = x :: rest → x ≠ .waitDone →
      step s = ({ s with
        sequencer := some { q with wait := n }, host := { s.host with pending := rest } } : State).applyInput x) ∧
    (∀ (s : State) (q : Sequencer) (n : Nat) (rest : List Input), s.sequencer = some q → q.wait = n + 1 →
      s.host.pending = .waitDone :: rest → step s = .next { s with sequencer := some { q with wait := n } }) ∧
    (∀ (s : State) (q : Sequencer) (n : Nat), s.sequencer = some q → q.wait = n + 1 → s.host.pending = [] →
      step s = .next { s with sequencer := some { q with wait := n } }) ∧
    ∀ s : State, s.sequencer = none → s.host.pending = [] → step s = .next s

/-- R89, R90: a CMD write to an idle block is accepted in one atomic step that latches the context and blanks the report;
to a busy one it is dropped and sets CMD_OVERRUN, CMD and the running command unchanged.  That the write is one pending
input, and that its step takes one off the running command's latency, is the model's choice (log entries 2 and 11). -/
def Obligations.CmdWriteIsAcceptedOrDropped : Prop :=
  (∀ (s : State) (w : Word) (rest : List Input), s.sequencer = none →
    s.host.pending = .write .word (s.params.regBase + 0x0C) w :: rest →
    ∃ n, step s = .next { s with
      cmd := w, latch := { cmd := w, ops := s.ops }, sequencer := some (Sequencer.start n), done := false,
      err := .success, resultLen := 0, resultCount := 0, resultKlen := 0, errInfo := 0,
      host := { s.host with pending := rest }, accepted := s.accepted + 1 }) ∧
    ∀ (s : State) (q : Sequencer) (n : Nat) (w : Word) (rest : List Input), s.sequencer = some q → q.wait = n + 1 →
      s.host.pending = .write .word (s.params.regBase + 0x0C) w :: rest →
      step s = .next { s with
        overrun := true, sequencer := some { q with wait := n }, host := { s.host with pending := rest } }

/-- R91: an accepted command, whatever its word, completes when its latency has passed.  While the host waits for it or has
nothing pending, that takes one step more than the latency; whatever other input comes, reset apart, a step that goes on
takes one off the latency and leaves the latched word and operands; with none left the next step completes the command,
whatever is pending.  The latency is free and finite (log entry 2); that it is counted in steps, and what a waiting host is,
is the model's choice (log entry 11). -/
def Obligations.AcceptedCommandsComplete : Prop :=
  (∀ (s : State) (q : Sequencer), s.sequencer = some q → (s.host.pending = [] ∨ ∃ rest, s.host.pending = .waitDone :: rest) →
    ∃ t, Host.Core.run Sys2Proof.core (q.wait + 1) s = .next t ∧ t.busy = false ∧ t.done = true ∧ t.host = s.host) ∧
    (∀ (s t : State) (q : Sequencer) (n : Nat), s.sequencer = some q → q.wait = n + 1 →
      s.host.pending.head? ≠ some .reset → step s = .next t →
      t.sequencer = some { q with wait := n } ∧ t.latch = s.latch) ∧
    ∀ (s : State) (q : Sequencer), s.sequencer = some q → q.wait = 0 →
      ∃ t, step s = .next t ∧ t.busy = false ∧ t.done = true ∧ t.host = s.host

/-! ### The register block -/

/-- R32 to R34, R41 to R50: what an aligned 32-bit read at each offset of the block returns, CTRL with bit 0 = IE and every
other bit 0 (STATUS has its own statement); nothing else changes.  (What alignment is measured on: log entry 18.  Where a
platform lays buffer memory over the block, the block answers: log entry 1.) -/
def Obligations.RegisterReadsFollowTheMap : Prop :=
  ∀ (s : State) (k : Nat), k < 64 →
    s.hostRead .word (s.params.regBase + 4 * k) = .next { s with host := { s.host with
      received := ([0x45454107, if s.ie then 1 else 0, s.statusWord, s.cmd] ++ s.ops.toList ++
        [s.resultLen, s.resultCount, s.resultKlen, s.errInfo]).getD k 0 :: s.host.received } }

/-- R33, R34, R42 to R50, R87: a write to an operand register is stored there and changes nothing else, the latched
context included; CTRL keeps bit 0 only; a write to ID, a result register, ERR_INFO or a reserved offset is ignored. -/
def Obligations.RegisterWritesStoreOrAreIgnored : Prop :=
  ∀ (s : State) (v : Word),
    (∀ k, 4 ≤ k → k < 16 → ∃ ops : Operands,
      s.hostWrite .word (s.params.regBase + 4 * k) v = .next { s with ops := ops } ∧
        ops.toList = s.ops.toList.set (k - 4) v) ∧
      s.hostWrite .word (s.params.regBase + 0x04) v = .next { s with ie := v.getLsbD 0 } ∧
      ∀ k, (k = 0 ∨ 16 ≤ k ∧ k < 64) → s.hostWrite .word (s.params.regBase + 4 * k) v = .next s

/-- R40 (with the fields of R35 to R39): the bits of STATUS, the reserved ones 0; a write clears DONE and CMD_OVERRUN where
its bits 1 and 2 are 1, and changes nothing else. -/
def Obligations.StatusReadsItsFieldsAndClearsByOnes : Prop :=
  (∀ s : State, s.statusWord.getLsbD 0 = s.busy ∧ s.statusWord.getLsbD 1 = s.done ∧
    s.statusWord.getLsbD 2 = s.overrun ∧ s.statusWord.getLsbD 3 = s.entropy.ready ∧
    s.statusWord.extractLsb' 8 8 = s.err.value ∧
    ∀ k, (4 ≤ k ∧ k < 8 ∨ 16 ≤ k ∧ k < 32) → s.statusWord.getLsbD k = false) ∧
    ∀ (s : State) (v : Word), s.hostWrite .word (s.params.regBase + 0x08) v =
      .next { s with done := s.done && !v.getLsbD 1, overrun := s.overrun && !v.getLsbD 2 }

/-- R261: the codes, all different. -/
def Obligations.ErrorCodesAreTheListedOnes : Prop :=
  [ErrCode.success, .illegalCommand, .capacityExceeded, .blockLength, .overlap, .noKeys, .invalidLength,
    .lengthMismatch, .invalidKey, .encodeFailed, .decodeFailed, .readFailed, .writeFailed, .noData, .randomBytes,
    .keySize, .wrongPasswordOrCorrupt].map ErrCode.value =
    [0x00, 0x01, 0x02, 0x03, 0x04, 0x10, 0x11, 0x12, 0x13, 0x20, 0x21, 0x30, 0x31, 0x32, 0x40, 0x41, 0x50] ∧
    ∀ c d : ErrCode, c.value = d.value → c = d

/-- R268 (and R56): IRQ is IE and DONE at every instant; a completion raises it when IE = 1, setting IE raises it while
DONE = 1; clearing DONE or IE, starting a command and reset lower it. -/
def Obligations.IrqFollowsEnableAndDone : Prop :=
  (∀ s : State, s.irq = (s.ie && s.done)) ∧
    (∀ s : State, ∃ t, runLatched s = .next t ∧ t.irq = s.ie) ∧
    (∀ (s : State) (v : Word), ∃ t, s.hostWrite .word (s.params.regBase + 0x04) v = .next t ∧
      t.irq = (v.getLsbD 0 && s.done)) ∧
    (∀ (s : State) (v : Word), ∃ t, s.hostWrite .word (s.params.regBase + 0x08) v = .next t ∧
      t.irq = (s.irq && !v.getLsbD 1)) ∧
    (∀ (s : State) (w : Word), s.busy = false → ∃ t, s.hostWrite .word (s.params.regBase + 0x0C) w = .next t ∧
      t.irq = false) ∧
    ∀ s : State, ∃ t, s.applyInput .reset = .next t ∧ t.irq = false

/-- R72, R73 (93_implementation_defined.md U10, U11): the model refuses a register access that is not an aligned 32-bit
access, and an access with a byte outside the register block and buffer memory.  (What alignment is measured on: log
entry 18; which window answers where they overlap: log entry 1.) -/
def Obligations.UndefinedHostAccessesAreRefused : Prop :=
  (∀ (s : State) (width : Width) (addr : Nat) (v : Word), s.params.regBase ≤ addr → addr < s.params.regBase + 0x100 →
    (width ≠ .word ∨ (addr - s.params.regBase) % 4 ≠ 0) →
    s.hostRead width addr = .refused .registerAccess ∧ s.hostWrite width addr v = .refused .registerAccess) ∧
    ∀ (s : State) (width : Width) (addr : Nat) (v : Word),
      (addr < s.params.regBase ∨ s.params.regBase + 0x100 ≤ addr) →
      (addr < s.params.bufBase ∨ s.params.bufBase + s.params.bufSize < addr + width.bytes) →
      s.hostRead width addr = .refused .outsideBlock ∧ s.hostWrite width addr v = .refused .outsideBlock

/-! ### Buffer memory from the host's side -/

/-- R70, R72: with no command running, a write of 1, 2 or 4 bytes at any offset stores the value's low bytes, least
significant first, and no other byte; a read returns the bytes there the same way, zero-extended, and changes nothing. -/
def Obligations.HostBufferAccessesAreLittleEndian : Prop :=
  ∀ (s : State) (width : Width) (off : Nat) (v : Word), s.busy = false → s.mem.wf → ReachesBuffer s.params width off →
    (∃ m : Memory, s.hostWrite width (s.params.bufBase + off) v = .next { s with mem := m } ∧
      (∀ j < width.bytes, m.read (off + j) = v.extractLsb' (8 * j) 8) ∧
      ∀ a, (a < off ∨ off + width.bytes ≤ a) → m.read a = s.mem.read a) ∧
    ∃ w : Word, s.hostRead width (s.params.bufBase + off) =
        .next { s with host := { s.host with received := w :: s.host.received } } ∧
      ∀ j < 4, w.extractLsb' (8 * j) 8 = if j < width.bytes then s.mem.read (off + j) else 0

/-- R86, R294: a host write that touches a region of the running command, read, write or key region, is the hazard fault;
any other stores its bytes and changes nothing else, as if no command ran.  An illegal word has no regions, so every write
lands while it runs.  Which key regions count, and when, is DEDUCED (log entries 12 and 13). -/
def Obligations.WritesIntoARunningCommandFault : Prop :=
  ∀ (s : State) (width : Width) (off : Nat) (v : Word), s.busy = true → s.mem.wf → ReachesBuffer s.params width off →
    let lands : Prop := ∃ m : Memory, s.hostWrite width (s.params.bufBase + off) v = .next { s with mem := m } ∧
      (∀ j < width.bytes, m.read (off + j) = v.extractLsb' (8 * j) 8) ∧
      ∀ a, (a < off ∨ off + width.bytes ≤ a) → m.read a = s.mem.read a
    (∀ i, decode s.latch.cmd = .ok i →
      let row := s.latch.row i
      let touched (r : Region) : Prop := ∃ j < width.bytes, r.Covers (off + j)
      let hazard : Prop := (∃ r ∈ row.reads, touched r) ∨ (∃ r ∈ row.writes, touched r) ∨
        ((s.latch.keytab row.keyCount).InBounds s.params.bufSize ∧
          ∃ k < row.keyCount, touched (s.latch.keyRegion s.mem k))
      (hazard → s.hostWrite width (s.params.bufBase + off) v = .fault .busyRegionWrite) ∧ (¬ hazard → lands)) ∧
    ∀ e, decode s.latch.cmd = .error e → lands

/-- R86: while a command runs, a host read returns memory's bytes outside the command's write regions, its read regions
included, zero-extended; inside them the bytes are unspecified, and the read changes nothing.  An illegal word has no
regions, so while it runs every byte is memory's. -/
def Obligations.ReadsOfARunningCommandChangeNothing : Prop :=
  ∀ (s : State) (width : Width) (off : Nat), s.busy = true → ReachesBuffer s.params width off →
    ∃ (w : Word) (n : Nat), s.hostRead width (s.params.bufBase + off) =
        .next { s with freeUsed := n, host := { s.host with received := w :: s.host.received } } ∧
      (∀ j < width.bytes, (∀ i, decode s.latch.cmd = .ok i → ∀ r ∈ (s.latch.row i).writes, ¬ r.Covers (off + j)) →
        w.extractLsb' (8 * j) 8 = s.mem.read (off + j)) ∧
      ∀ j < 4, width.bytes ≤ j → w.extractLsb' (8 * j) 8 = 0

/-! ### Reset -/

/-- R32, R59: the registers right after reset.  RNG_OK (bit 3 of STATUS) is the entropy source's, and left out. -/
def Obligations.ResetLeavesTheListedValues : Prop :=
  State.reset.readReg .id = 0x45454107 ∧ (∀ r, r ≠ .id → r ≠ .status → State.reset.readReg r = 0) ∧
    State.reset.statusWord &&& 0xFFFFFFF7 = 0 ∧ State.reset.busy = false ∧ State.reset.irq = false

/-- R290, R291: the reset input gives every register its reset value and keeps buffer memory, but for the in-bounds bytes
of the write regions of a command it abandons, which does not complete; an idle block loses no entropy. -/
def Obligations.ResetAbandonsTheCommandAndKeepsMemory : Prop :=
  ∀ s : State, ∃ t, s.applyInput .reset = .next t ∧
    (t.readReg .id = 0x45454107 ∧ (∀ r, r ≠ .id → r ≠ .status → t.readReg r = 0) ∧ t.busy = false ∧ t.done = false ∧
      t.overrun = false ∧ t.err = .success ∧ t.irq = false ∧ t.entropy.ready = s.entropy.ready ∧
      t.params = s.params ∧ t.host = s.host) ∧
    (s.busy = false → t.mem = s.mem ∧ t.entropy = s.entropy) ∧
    (∀ e, decode s.latch.cmd = .error e → t.mem = s.mem ∧ t.entropy = s.entropy) ∧
    ∀ i, decode s.latch.cmd = .ok i → ∀ a, (∀ w ∈ (s.latch.row i).writes, ¬ w.Covers a) →
      t.mem.read a = s.mem.read a

/-! ### All commands: completion and frame -/

/-- R51, R91, R93, R262: every command completes from every state; it sets DONE and clears BUSY, and beside memory and its
report it changes nothing: no control or operand register, not CMD, the latched context, CMD_OVERRUN or the host's side;
and only KGEN and SEAL move the entropy source on. -/
def Obligations.EveryCommandCompletesAndKeepsTheRest : Prop :=
  ∀ (i : Instr) (s : State), ∃ t, exec i s = .next t ∧ t.busy = false ∧ t.done = true ∧
    t.params = s.params ∧ t.ie = s.ie ∧ t.overrun = s.overrun ∧ t.cmd = s.cmd ∧ t.ops = s.ops ∧ t.latch = s.latch ∧
    t.host = s.host ∧ t.accepted = s.accepted ∧ t.entropy.ready = s.entropy.ready ∧
    (i ≠ .kgen → i ≠ .vaultSeal → t.entropy = s.entropy)

/-- R75, R80, R81: no command changes a byte outside its write regions, whether it succeeds or fails. -/
def Obligations.MemoryOutsideWriteRegionsIsKept : Prop :=
  ∀ (i : Instr) (s t : State), exec i s = .next t →
    ∀ a, (∀ w ∈ (s.latch.row i).writes, ¬ w.Covers a) → t.mem.read a = s.mem.read a

/-- R80: a command that succeeds stores to the bytes its rule names, at the start of DST and of SCR, and leaves every other
byte as it was, those of its write regions included. -/
def Obligations.SuccessStoresOnlyTheNamedBytes : Prop :=
  ∀ (i : Instr) (s t : State), exec i s = .next t → t.err = .success →
    ∀ a, Outside (storedRanges i s t) a → t.mem.read a = s.mem.read a

/-- R81, R264: an error found before the execute phase leaves memory and the entropy source as they were. -/
def Obligations.CheckPhaseErrorsKeepMemory : Prop :=
  ∀ (i : Instr) (s t : State), exec i s = .next t → t.err ≠ .success →
    ¬ ((i = .kgen ∨ i = .vaultSeal) ∧ t.err = .randomBytes) →
    ¬ (i = .vaultUnseal ∧ (t.err = .wrongPasswordOrCorrupt ∨ t.err = .capacityExceeded)) →
    t.mem = s.mem ∧ t.entropy = s.entropy

/-- R48, R49, R261, R262: beside an error the results are 0; ERR_INFO is 0 but beside an error that names a key, and 0 for
UNSEAL; `EncodeFailed` and `NoData` are never reported (R278), nor a key error by UNSEAL (R214). -/
def Obligations.ErrorReportsAreBlankButForTheKeyNumber : Prop :=
  ∀ (i : Instr) (s t : State), exec i s = .next t →
    (t.err ≠ .success → t.resultLen = 0 ∧ t.resultCount = 0 ∧ t.resultKlen = 0) ∧
    (t.errInfo ≠ 0 → keyed i = true ∧ (t.err = .readFailed ∨ t.err = .overlap ∨ t.err = .invalidLength ∨
      t.err = .lengthMismatch ∨ t.err = .invalidKey)) ∧
    t.err ≠ .encodeFailed ∧ t.err ≠ .noData ∧
    (keyed i = false → t.err ≠ .noKeys ∧ t.err ≠ .invalidLength ∧ t.err ≠ .lengthMismatch ∧ t.err ≠ .invalidKey)

/-! ### The order of checks -/

/-- R75, R106: the regions of each command, register by register, and the key region of a descriptor, its address and its
length little-endian words of the key table. -/
def Obligations.RegionsAreThoseOfTheTable : Prop :=
  ∀ l : Latch,
    let src : Region := ⟨.src, l.ops.srcAddr.toNat, l.ops.srcLen.toNat⟩
    let pwd : Region := ⟨.pwd, l.ops.pwdAddr.toNat, l.ops.pwdLen.toNat⟩
    let table (k : Nat) : Region := ⟨.keytab, l.ops.keytabAddr.toNat, 8 * k⟩
    let scr : Region := ⟨.scr, l.ops.scrAddr.toNat, l.ops.scrCap.toNat⟩
    let dst : Region := ⟨.dst, l.ops.dstAddr.toNat, l.ops.dstCap.toNat⟩
    let n := l.ops.keyCount.toNat
    (∀ i ∈ [Instr.fwd, .inv, .invZ], l.row i = ⟨[src, table (min n 1)], [dst], min n 1, true⟩) ∧
      (∀ i ∈ [Instr.cfwd, .cinv, .cinvZ], l.row i = ⟨[src, table n], [dst], n, true⟩) ∧
      l.row .kchk = ⟨[table n], [], n, false⟩ ∧ l.row .kgen = ⟨[], [dst], 0, false⟩ ∧
      l.row .vaultSeal = ⟨[pwd, table n], [scr, dst], n, false⟩ ∧
      l.row .vaultUnseal = ⟨[src, pwd], [scr, dst], 0, false⟩ ∧
      (∀ i ∈ [Instr.b64e, .b64d], l.row i = ⟨[src], [dst], 0, false⟩) ∧
      (∀ i ∈ [Instr.enc, .dec], l.row i = ⟨[src, table n], [scr, dst], n, false⟩) ∧
      ∀ (m : Memory) (k : Nat),
        let word (a : Nat) : Nat := (m.read a).toNat + 0x100 * (m.read (a + 1)).toNat +
          0x10000 * (m.read (a + 2)).toNat + 0x1000000 * (m.read (a + 3)).toNat
        l.keyRegion m k = ⟨.key, word (l.ops.keytabAddr.toNat + 8 * k), word (l.ops.keytabAddr.toNat + 8 * k + 4)⟩

/-- R76, R77, R145, R264 steps 2 to 4: every command reports a read region out of bounds first, then a write region out of
bounds, then an overlap among its fixed regions, whatever else is wrong.  Written out: when a region is in bounds, when two
regions intersect, and which intersections are an overlap: any of a write region, but for SRC with DST of FWD, INV, CFWD and
CINV when SRC_ADDR = DST_ADDR. -/
def Obligations.FixedRegionErrorsComeFirst : Prop :=
  (∀ (r : Region) (size : Nat), r.InBounds size ↔ r.len = 0 ∨ r.addr + r.len ≤ size) ∧
    (∀ r q : Region, r.Intersects q ↔
      r.len ≠ 0 ∧ q.len ≠ 0 ∧ r.addr < q.addr + q.len ∧ q.addr < r.addr + r.len) ∧
    ∀ (i : Instr) (s : State),
      let row := s.latch.row i
      let inPlace : Prop := i ∈ [Instr.fwd, .inv, .invZ, .cfwd, .cinv, .cinvZ] ∧ s.latch.ops.srcAddr = s.latch.ops.dstAddr
      let overlaps : Prop := (∃ w ∈ row.writes, ∃ r ∈ row.reads, w.Intersects r ∧ ¬ (inPlace ∧ r.kind = .src)) ∨
        (s.latch.scr ∈ row.writes ∧ s.latch.scr.Intersects s.latch.dst)
      (row.Disjoint ↔ ¬ overlaps) ∧
      ((∃ r ∈ row.reads, r.len ≠ 0 ∧ s.params.bufSize < r.addr + r.len) → exec i s = .next (failed s .readFailed 0)) ∧
      ((∀ r ∈ row.reads, r.InBounds s.params.bufSize) →
        (∃ w ∈ row.writes, w.len ≠ 0 ∧ s.params.bufSize < w.addr + w.len) →
        exec i s = .next (failed s .writeFailed 0)) ∧
      ((∀ r ∈ row.reads, r.InBounds s.params.bufSize) → (∀ w ∈ row.writes, w.InBounds s.params.bufSize) → overlaps →
        exec i s = .next (failed s .overlap 0))

/-- R170, R172, R264 step 5: with its fixed regions in order, every keyed command reports `NoKeys`, then the first failing
descriptor with its number, then the validation error with its number. -/
def Obligations.KeyErrorsAreReportedWithTheKeyNumber : Prop :=
  ∀ (i : Instr) (s : State), keyed i = true → RegionsOk s (s.latch.row i) →
    ((s.latch.row i).keyCount = 0 → exec i s = .next (failed s .noKeys 0)) ∧
    (∀ j < (s.latch.row i).keyCount, (∀ k < j, DescriptorOk s (s.latch.row i) k) →
      ¬ (s.latch.keyRegion s.mem j).InBounds s.params.bufSize →
      exec i s = .next (failed s .readFailed (j + 1))) ∧
    (∀ j < (s.latch.row i).keyCount, (∀ k < j, DescriptorOk s (s.latch.row i) k) →
      (s.latch.keyRegion s.mem j).InBounds s.params.bufSize →
      (∃ w ∈ (s.latch.row i).writes, (s.latch.keyRegion s.mem j).Intersects w) →
      exec i s = .next (failed s .overlap (j + 1))) ∧
    ((s.latch.row i).keyCount ≠ 0 → (∀ k < (s.latch.row i).keyCount, DescriptorOk s (s.latch.row i) k) →
      ∀ e, validateKeys ((List.range (s.latch.row i).keyCount).map
          (fun k => (s.latch.keyRegion s.mem k).bytes s.mem)) = .error e →
        exec i s = .next (failed s e.code e.info))

/-- R140 to R143, R264 step 6: FWD and CFWD report a padded length beyond DST_CAP; INV and CINV, with and without Z, report
a source that is no whole number of blocks, then a length beyond DST_CAP. -/
def Obligations.CipherCommandsCheckLengths : Prop :=
  ∀ (s : State) (ks : List Bytes) (len : Nat),
    (∀ i ∈ [Instr.fwd, .cfwd], RegionsOk s (s.latch.row i) → KeysOk s (s.latch.row i) ks len →
      s.latch.dst.len < paddedLength s.latch.src.len len → exec i s = .next (failed s .capacityExceeded 0)) ∧
    ∀ i ∈ [Instr.inv, .invZ, .cinv, .cinvZ], RegionsOk s (s.latch.row i) → KeysOk s (s.latch.row i) ks len →
      (s.latch.src.len % len ≠ 0 → exec i s = .next (failed s .blockLength 0)) ∧
      (s.latch.src.len % len = 0 → s.latch.dst.len < s.latch.src.len →
        exec i s = .next (failed s .capacityExceeded 0))

/-- R206, R236, R237, R264 step 6: the checks of SEAL, ENC and DEC after the key phase, in order. -/
def Obligations.SealAndArtifactCommandsCheckLengths : Prop :=
  ∀ (s : State) (ks : List Bytes) (len : Nat),
    (RegionsOk s (s.latch.row .vaultSeal) → KeysOk s (s.latch.row .vaultSeal) ks len →
      (s.latch.scr.len < paddedLength (blobLength len ks.length) 128 ∨
        s.latch.dst.len < base64Length (paddedLength (blobLength len ks.length) 128)) →
      exec .vaultSeal s = .next (failed s .capacityExceeded 0)) ∧
    (RegionsOk s (s.latch.row .enc) → KeysOk s (s.latch.row .enc) ks len →
      (s.latch.scr.len < paddedLength s.latch.src.len len ∨
        s.latch.dst.len < base64Length (paddedLength s.latch.src.len len)) →
      exec .enc s = .next (failed s .capacityExceeded 0)) ∧
    (RegionsOk s (s.latch.row .dec) → KeysOk s (s.latch.row .dec) ks len →
      (base64Valid (s.latch.src.bytes s.mem) = false → exec .dec s = .next (failed s .decodeFailed 0)) ∧
      (base64Valid (s.latch.src.bytes s.mem) = true →
        (s.latch.scr.len < (base64Decode (s.latch.src.bytes s.mem)).length →
          exec .dec s = .next (failed s .capacityExceeded 0)) ∧
        ((base64Decode (s.latch.src.bytes s.mem)).length ≤ s.latch.scr.len →
          ((base64Decode (s.latch.src.bytes s.mem)).length % len ≠ 0 →
            exec .dec s = .next (failed s .blockLength 0)) ∧
          ((base64Decode (s.latch.src.bytes s.mem)).length % len = 0 →
            s.latch.dst.len < (base64Decode (s.latch.src.bytes s.mem)).length →
            exec .dec s = .next (failed s .capacityExceeded 0)))))

/-- R177, R178, R215, R234, R235, R264 step 6: the checks of the commands without keys after their regions, in order. -/
def Obligations.KeylessCommandsCheckTheirOperands : Prop :=
  ∀ s : State,
    (RegionsOk s (s.latch.row .kgen) →
      ((s.latch.ops.kgBits.toNat = 0 ∨ s.latch.ops.kgBits.toNat % 256 ≠ 0) →
        exec .kgen s = .next (failed s .keySize 0)) ∧
      (s.latch.ops.kgBits.toNat ≠ 0 → s.latch.ops.kgBits.toNat % 256 = 0 →
        s.latch.dst.len < s.latch.ops.kgCount.toNat * (s.latch.ops.kgBits.toNat / 4) →
        exec .kgen s = .next (failed s .capacityExceeded 0))) ∧
    (RegionsOk s (s.latch.row .b64e) → s.latch.dst.len < base64Length s.latch.src.len →
      exec .b64e s = .next (failed s .capacityExceeded 0)) ∧
    (RegionsOk s (s.latch.row .b64d) →
      (base64Valid (s.latch.src.bytes s.mem) = false → exec .b64d s = .next (failed s .decodeFailed 0)) ∧
      (base64Valid (s.latch.src.bytes s.mem) = true →
        s.latch.dst.len < (base64Decode (s.latch.src.bytes s.mem)).length →
        exec .b64d s = .next (failed s .capacityExceeded 0))) ∧
    (RegionsOk s (s.latch.row .vaultUnseal) →
      (base64Valid (s.latch.src.bytes s.mem) = false → exec .vaultUnseal s = .next (failed s .decodeFailed 0)) ∧
      (base64Valid (s.latch.src.bytes s.mem) = true →
        (s.latch.scr.len < (base64Decode (s.latch.src.bytes s.mem)).length →
          exec .vaultUnseal s = .next (failed s .capacityExceeded 0)) ∧
        ((base64Decode (s.latch.src.bytes s.mem)).length ≤ s.latch.scr.len →
          (base64Decode (s.latch.src.bytes s.mem)).length % 128 ≠ 0 →
          exec .vaultUnseal s = .next (failed s .wrongPasswordOrCorrupt 0))))

/-! ### What each command computes -/

/-- R140: FWD enciphers SRC with the first key into DST, and its whole effect. -/
def Obligations.FwdEnciphersWithTheFirstKey : Prop :=
  ∀ (s : State) (key : Bytes) (len : Nat), RegionsOk s (s.latch.row .fwd) → KeysOk s (s.latch.row .fwd) [key] len →
    paddedLength s.latch.src.len len ≤ s.latch.dst.len →
    exec .fwd s = .next (ended s
      (s.mem.writeBytes s.latch.dst.addr (forward (s.mem.readBytes s.latch.src.addr s.latch.src.len) key))
      .success 0 (paddedLength s.latch.src.len len) 1 len)

/-- R142: CFWD enciphers SRC with every key of the table, key 0 first, into DST, and its whole effect. -/
def Obligations.CfwdEnciphersWithEveryKey : Prop :=
  ∀ (s : State) (ks : List Bytes) (len : Nat), RegionsOk s (s.latch.row .cfwd) → KeysOk s (s.latch.row .cfwd) ks len →
    paddedLength s.latch.src.len len ≤ s.latch.dst.len →
    exec .cfwd s = .next (ended s
      (s.mem.writeBytes s.latch.dst.addr (cascadeForward (s.mem.readBytes s.latch.src.addr s.latch.src.len) ks))
      .success 0 (paddedLength s.latch.src.len len) ks.length len)

/-- R141, R144: INV and INV.Z decipher SRC with the first key into DST; they differ in RESULT_LEN only. -/
def Obligations.InvDeciphersWithTheFirstKey : Prop :=
  ∀ (s : State) (key : Bytes) (len : Nat), RegionsOk s (s.latch.row .inv) → KeysOk s (s.latch.row .inv) [key] len →
    s.latch.src.len % len = 0 → s.latch.src.len ≤ s.latch.dst.len →
    let plain := inverse (s.mem.readBytes s.latch.src.addr s.latch.src.len) key
    exec .inv s = .next (ended s (s.mem.writeBytes s.latch.dst.addr plain) .success 0 s.latch.src.len 1 len) ∧
      exec .invZ s = .next (ended s (s.mem.writeBytes s.latch.dst.addr plain) .success 0 (stripZeros plain).length 1 len)

/-- R143, R144: CINV and CINV.Z decipher SRC with every key, the last first, into DST; they differ in RESULT_LEN only. -/
def Obligations.CinvDeciphersWithEveryKey : Prop :=
  ∀ (s : State) (ks : List Bytes) (len : Nat), RegionsOk s (s.latch.row .cinv) → KeysOk s (s.latch.row .cinv) ks len →
    s.latch.src.len % len = 0 → s.latch.src.len ≤ s.latch.dst.len →
    let plain := cascadeInverse (s.mem.readBytes s.latch.src.addr s.latch.src.len) ks
    exec .cinv s = .next (ended s (s.mem.writeBytes s.latch.dst.addr plain) .success 0 s.latch.src.len ks.length len) ∧
      exec .cinvZ s = .next
        (ended s (s.mem.writeBytes s.latch.dst.addr plain) .success 0 (stripZeros plain).length ks.length len)

/-- R173: KCHK reports how many keys the table names and their length, and stores nothing. -/
def Obligations.KchkReportsTheKeySet : Prop :=
  ∀ (s : State) (ks : List Bytes) (len : Nat), RegionsOk s (s.latch.row .kchk) → KeysOk s (s.latch.row .kchk) ks len →
    exec .kchk s = .next (ended s s.mem .success 0 0 ks.length len)

/-- R174 to R177, R107: KGEN turns the next `n · B / 8` bytes of entropy into `n` keys of `B / 4` characters, contiguous
in DST, and its whole effect.  (The digests are PRESUMED SHA-2: log entry 5.) -/
def Obligations.KgenHashesEntropyIntoKeys : Prop :=
  ∀ (s : State) (bits n : Nat) (seeds : Bytes) (e : Entropy), RegionsOk s (s.latch.row .kgen) →
    s.latch.ops.kgBits.toNat = bits → s.latch.ops.kgCount.toNat = n → bits ≠ 0 → bits % 256 = 0 →
    n * (bits / 4) ≤ s.latch.dst.len → s.entropy.draw (n * (bits / 8)) = (some seeds, e) →
    exec .kgen s = .next (ended { s with entropy := e }
      (s.mem.writeBytes s.latch.dst.addr (keysOfSeeds bits n seeds)) .success 0 (n * (bits / 4)) n (bits / 4))

/-- R57, R276: a draw gives the source's next bytes in order and the source moves on past them; the first failure ends it,
the bytes before it discarded and not given again; a draw of more bytes goes on where a shorter one ends.  R179, R203, R81:
a draw that fails ends KGEN and SEAL with `RandomBytes`, only their write regions touched.  The form of the source, listed
answers and then free ones, is the model's choice (log entry 4). -/
def Obligations.FailedDrawsReportRandomBytes : Prop :=
  (∀ (e : Entropy) (bytes : Bytes) (rest : List (Option Byte)), e.answers = bytes.map some ++ rest →
    e.draw bytes.length = (some bytes, { e with answers := rest, drawn := e.drawn + bytes.length })) ∧
  (∀ (e : Entropy) (lost : Bytes) (rest : List (Option Byte)) (n : Nat), e.answers = lost.map some ++ none :: rest →
    lost.length < n → e.draw n = (none, { e with answers := rest, drawn := e.drawn + (lost.length + 1) })) ∧
  (∀ e : Entropy, e.answers = [] →
    e.draw 1 = ((Config.entropyAnswer e.drawn).map (fun b => [b]), { e with drawn := e.drawn + 1 })) ∧
  (∀ (e e' : Entropy) (m n : Nat),
    (∀ x : Bytes, e.draw m = (some x, e') → e.draw (m + n) = ((e'.draw n).1.map (fun y => x ++ y), (e'.draw n).2)) ∧
    (e.draw m = (none, e') → e.draw (m + n) = (none, e'))) ∧
  (∀ (s : State) (bits n : Nat) (e : Entropy), RegionsOk s (s.latch.row .kgen) →
    s.latch.ops.kgBits.toNat = bits → s.latch.ops.kgCount.toNat = n → bits ≠ 0 → bits % 256 = 0 →
    n * (bits / 4) ≤ s.latch.dst.len → s.entropy.draw (n * (bits / 8)) = (none, e) →
    ∃ (m : Memory) (f : Nat), exec .kgen s =
        .next (ended { s with entropy := e, freeUsed := f } m .randomBytes 0 0 0 0) ∧
      ∀ a, ¬ s.latch.dst.Covers a → m.read a = s.mem.read a) ∧
    ∀ (s : State) (ks : List Bytes) (len : Nat) (e : Entropy), RegionsOk s (s.latch.row .vaultSeal) →
      KeysOk s (s.latch.row .vaultSeal) ks len →
      paddedLength (blobLength len ks.length) 128 ≤ s.latch.scr.len →
      base64Length (paddedLength (blobLength len ks.length) 128) ≤ s.latch.dst.len →
      s.entropy.draw (len / 2) = (none, e) →
      ∃ (m : Memory) (f : Nat), exec .vaultSeal s =
          .next (ended { s with entropy := e, freeUsed := f } m .randomBytes 0 0 0 0) ∧
        ∀ a, ¬ s.latch.scr.Covers a → ¬ s.latch.dst.Covers a → m.read a = s.mem.read a

/-- R201 to R207: SEAL draws the salt, enciphers the blob five times under the passKey into SCR and writes its Base64 text
to DST, and its whole effect.  (The passKey's digest is PRESUMED SHA-2: log entry 5.) -/
def Obligations.SealWritesTheVault : Prop :=
  ∀ (s : State) (ks : List Bytes) (len : Nat) (salt : Bytes) (e : Entropy), RegionsOk s (s.latch.row .vaultSeal) →
    KeysOk s (s.latch.row .vaultSeal) ks len →
    paddedLength (blobLength len ks.length) 128 ≤ s.latch.scr.len →
    base64Length (paddedLength (blobLength len ks.length) 128) ≤ s.latch.dst.len →
    s.entropy.draw (len / 2) = (some salt, e) →
    let key := hexText (hash512 (s.mem.readBytes s.latch.pwd.addr s.latch.pwd.len))
    let blob := salt ++ [newline] ++ (ks.map (fun k => k ++ [newline])).flatten
    let cipher := forward (forward (forward (forward (forward blob key) key) key) key) key
    exec .vaultSeal s = .next (ended { s with entropy := e }
      ((s.mem.writeBytes s.latch.scr.addr cipher).writeBytes s.latch.dst.addr (base64Encode cipher))
      .success 0 (base64Length (paddedLength (blobLength len ks.length) 128)) ks.length len)

/-- R210 to R215: the split of a byte string at its 0x0A bytes and the candidate keys it gives, those of a string without
0x0A included; and UNSEAL decodes SRC, undoes the five rounds into SCR, strips and splits, and writes the candidate keys to
DST when they are a valid set that fits; the whole effect.  (The passKey's digest is PRESUMED SHA-2: log entry 5.) -/
def Obligations.UnsealReturnsTheKeys : Prop :=
  (∀ (first : Bytes) (others : List Bytes), (∀ g ∈ first :: others, 0x0A ∉ g) →
    splitLines ([0x0A].intercalate (first :: others)) = (first, others) ∧
      candidates ([0x0A].intercalate (first :: others)) =
        if others = [] then (if first = [] then [] else [first]) else others.filter (fun k => decide (k ≠ []))) ∧
  (∀ y : Bytes, [0x0A].intercalate ((splitLines y).1 :: (splitLines y).2) = y ∧
    ∀ g ∈ (splitLines y).1 :: (splitLines y).2, 0x0A ∉ g) ∧
  ∀ (s : State) (len : Nat), RegionsOk s (s.latch.row .vaultUnseal) →
    base64Valid (s.latch.src.bytes s.mem) = true →
    (base64Decode (s.latch.src.bytes s.mem)).length ≤ s.latch.scr.len →
    (base64Decode (s.latch.src.bytes s.mem)).length % 128 = 0 →
    let key := hexText (hash512 (s.mem.readBytes s.latch.pwd.addr s.latch.pwd.len))
    let plain :=
      inverse (inverse (inverse (inverse (inverse (base64Decode (s.latch.src.bytes s.mem)) key) key) key) key) key
    let keys := candidates (stripZeros plain)
    ValidKeys keys len → keys.length * len ≤ s.latch.dst.len →
    exec .vaultUnseal s = .next (ended s
      ((s.mem.writeBytes s.latch.scr.addr plain).writeBytes s.latch.dst.addr keys.flatten)
      .success 0 (keys.length * len) keys.length len)

/-- R214, R215, R81: UNSEAL reports candidates that are no valid key set, for whatever reason, as `WrongPasswordOrCorrupt`,
and a valid set too long for DST as `CapacityExceeded`; only its write regions are touched. -/
def Obligations.UnsealHidesTheKeyError : Prop :=
  ∀ s : State, RegionsOk s (s.latch.row .vaultUnseal) → base64Valid (s.latch.src.bytes s.mem) = true →
    (base64Decode (s.latch.src.bytes s.mem)).length ≤ s.latch.scr.len →
    (base64Decode (s.latch.src.bytes s.mem)).length % 128 = 0 →
    let key := hexText (hash512 (s.mem.readBytes s.latch.pwd.addr s.latch.pwd.len))
    let keys := candidates (stripZeros (unsealRounds (base64Decode (s.latch.src.bytes s.mem)) key))
    ((∀ len, ¬ ValidKeys keys len) → ∃ (m : Memory) (f : Nat),
      exec .vaultUnseal s = .next (ended { s with freeUsed := f } m .wrongPasswordOrCorrupt 0 0 0 0) ∧
        ∀ a, ¬ s.latch.scr.Covers a → ¬ s.latch.dst.Covers a → m.read a = s.mem.read a) ∧
    ∀ len, ValidKeys keys len → s.latch.dst.len < keys.length * len → ∃ (m : Memory) (f : Nat),
      exec .vaultUnseal s = .next (ended { s with freeUsed := f } m .capacityExceeded 0 0 0 0) ∧
        ∀ a, ¬ s.latch.scr.Covers a → ¬ s.latch.dst.Covers a → m.read a = s.mem.read a

/-- R234, R235: B64E and B64D write the encoded and the decoded bytes of SRC to DST, and their whole effect. -/
def Obligations.Base64CommandsConvertSrc : Prop :=
  ∀ s : State,
    (RegionsOk s (s.latch.row .b64e) → base64Length s.latch.src.len ≤ s.latch.dst.len →
      exec .b64e s = .next (ended s
        (s.mem.writeBytes s.latch.dst.addr (base64Encode (s.mem.readBytes s.latch.src.addr s.latch.src.len)))
        .success 0 (base64Length s.latch.src.len) 0 0)) ∧
    (RegionsOk s (s.latch.row .b64d) →
      let text := s.mem.readBytes s.latch.src.addr s.latch.src.len
      base64Valid text = true → (base64Decode text).length ≤ s.latch.dst.len →
      exec .b64d s = .next (ended s (s.mem.writeBytes s.latch.dst.addr (base64Decode text))
        .success 0 (base64Decode text).length 0 0))

/-- R236: ENC leaves the cascade's bytes in SCR and their Base64 text in DST, and its whole effect. -/
def Obligations.EncWritesTheArtifact : Prop :=
  ∀ (s : State) (ks : List Bytes) (len : Nat), RegionsOk s (s.latch.row .enc) → KeysOk s (s.latch.row .enc) ks len →
    paddedLength s.latch.src.len len ≤ s.latch.scr.len →
    base64Length (paddedLength s.latch.src.len len) ≤ s.latch.dst.len →
    let cipher := cascadeForward (s.mem.readBytes s.latch.src.addr s.latch.src.len) ks
    exec .enc s = .next (ended s
      ((s.mem.writeBytes s.latch.scr.addr cipher).writeBytes s.latch.dst.addr (base64Encode cipher))
      .success 0 (base64Length (paddedLength s.latch.src.len len)) ks.length len)

/-- R237: DEC leaves the decoded bytes in SCR and the deciphered ones in DST, and reports the depadded length; its whole
effect. -/
def Obligations.DecReadsTheArtifact : Prop :=
  ∀ (s : State) (ks : List Bytes) (len : Nat), RegionsOk s (s.latch.row .dec) → KeysOk s (s.latch.row .dec) ks len →
    let text := s.mem.readBytes s.latch.src.addr s.latch.src.len
    base64Valid text = true → (base64Decode text).length ≤ s.latch.scr.len → (base64Decode text).length % len = 0 →
    (base64Decode text).length ≤ s.latch.dst.len →
    let plain := cascadeInverse (base64Decode text) ks
    exec .dec s = .next (ended s
      ((s.mem.writeBytes s.latch.scr.addr (base64Decode text)).writeBytes s.latch.dst.addr plain)
      .success 0 (stripZeros plain).length ks.length len)

/-! ### The pure functions -/

/-- R132: the closed form of `Forward`, what a zero block enciphers to, and that it is a bijection on the strings of each
length that is a whole number of blocks. -/
def Obligations.ForwardChainsBlocks : Prop :=
  ∀ key : Bytes, key ≠ [] →
    (∀ data : Bytes, let out := forward data key
      let padded := data ++ zeros (paddedLength data.length key.length - data.length)
      out.length = paddedLength data.length key.length ∧
      ∀ b, (b + 1) * key.length ≤ out.length →
        let prev := if b = 0 then key else blockOf key.length out (b - 1)
        blockOf key.length out b = xorBytes (blockOf key.length padded b) prev ∧
        (blockOf key.length padded b = zeros key.length → blockOf key.length out b = prev)) ∧
    ∀ n, key.length ∣ n →
      (∀ x y : Bytes, x.length = n → y.length = n → forward x key = forward y key → x = y) ∧
      ∀ c : Bytes, c.length = n → ∃ x : Bytes, x.length = n ∧ forward x key = c

/-- R134: the closed form of `Inverse`: each output block depends on input blocks alone. -/
def Obligations.InverseUnchainsBlocks : Prop :=
  ∀ data key : Bytes, key ≠ [] → key.length ∣ data.length → (inverse data key).length = data.length ∧
    ∀ b, (b + 1) * key.length ≤ data.length →
      blockOf key.length (inverse data key) b =
        xorBytes (blockOf key.length data b) (if b = 0 then key else blockOf key.length data (b - 1))

/-- R135, R136: a cascade applies `Forward` with key 0 first, and its inverse applies `Inverse` with the last key first.
R137: the round-trip laws of one key and of a cascade, when depadding recovers the data exactly, and the law in the other
direction. -/
def Obligations.CipherRoundTrips : Prop :=
  (∀ (x k : Bytes) (ks : List Bytes), cascadeForward x [] = x ∧
    cascadeForward x (k :: ks) = cascadeForward (forward x k) ks ∧ cascadeInverse x [] = x ∧
    cascadeInverse x (ks ++ [k]) = cascadeInverse (inverse x k) ks) ∧
  (∀ data key : Bytes, key ≠ [] →
    inverse (forward data key) key = data ++ zeros (paddedLength data.length key.length - data.length) ∧
    (stripZeros (inverse (forward data key) key) = data ↔ data = [] ∨ data.getLast? ≠ some 0)) ∧
  (∀ (data : Bytes) (ks : List Bytes) (len : Nat), ValidKeys ks len →
    cascadeInverse (cascadeForward data ks) ks = data ++ zeros (paddedLength data.length len - data.length) ∧
    (stripZeros (cascadeInverse (cascadeForward data ks) ks) = data ↔ data = [] ∨ data.getLast? ≠ some 0)) ∧
  ∀ c key : Bytes, key ≠ [] → key.length ∣ c.length → forward (inverse c key) key = c

/-- R147: `StripZeros` removes trailing zero bytes and nothing else: what is left is a prefix that is empty or ends in
another byte. -/
def Obligations.StripZerosRemovesOnlyTrailingZeros : Prop :=
  ∀ x : Bytes, (∃ n, x = stripZeros x ++ zeros n) ∧
    (stripZeros x = [] ∨ ∃ b, (stripZeros x).getLast? = some b ∧ b ≠ 0)

/-- R299: the first block of a cascade does not depend on the order of the keys, so deciphering with the keys in another
order gives the first block back. -/
def Obligations.FirstBlockIgnoresKeyOrder : Prop :=
  ∀ (data : Bytes) (ks js : List Bytes) (len : Nat), ValidKeys ks len → ks.Perm js →
    blockOf len (cascadeForward data ks) 0 = blockOf len (cascadeForward data js) 0 ∧
    blockOf len (cascadeInverse (cascadeForward data ks) js) 0 =
      blockOf len (data ++ zeros (paddedLength data.length len - data.length)) 0

/-- R171: validation: which error each defective list gives, in the rule's order, and success on valid key sets. -/
def Obligations.ValidationReportsTheFirstDefect : Prop :=
  validateKeys [] = .error { code := .noKeys } ∧
    ∀ (k : Bytes) (rest : List Bytes),
      ((k.length = 0 ∨ k.length % 64 ≠ 0) → validateKeys (k :: rest) = .error { code := .invalidLength, info := 1 }) ∧
      (k.length ≠ 0 → k.length % 64 = 0 →
        (∀ j q, (k :: rest)[j]? = some q → q.length ≠ k.length →
          (∀ i < j, ∀ p, (k :: rest)[i]? = some p → p.length = k.length) →
          validateKeys (k :: rest) = .error { code := .lengthMismatch, info := j + 1 }) ∧
        ((∀ q ∈ k :: rest, q.length = k.length) →
          (∀ j q, (k :: rest)[j]? = some q → (∃ c ∈ q, ¬ IsHexChar c) →
            (∀ i < j, ∀ p, (k :: rest)[i]? = some p → ∀ c ∈ p, IsHexChar c) →
            validateKeys (k :: rest) = .error { code := .invalidKey, info := j + 1 }) ∧
          ((∀ q ∈ k :: rest, ∀ c ∈ q, IsHexChar c) →
            validateKeys (k :: rest) = .ok { len := k.length, keys := k :: rest })))

/-- R232: which texts are valid Base64, position by position, over the alphabet of R230, `A`-`Z`, `a`-`z`, `0`-`9`, `+` and
`/`, with `=` in the last two places only. -/
def Obligations.Base64ValidityIsPositional : Prop :=
  let letter (c : Byte) : Prop := (0x41 ≤ c.toNat ∧ c.toNat ≤ 0x5A) ∨ (0x61 ≤ c.toNat ∧ c.toNat ≤ 0x7A) ∨
    (0x30 ≤ c.toNat ∧ c.toNat ≤ 0x39) ∨ c = 0x2B ∨ c = 0x2F
  ∀ t : Bytes, base64Valid t = true ↔
    t.length % 4 = 0 ∧ (∀ i < t.length - 2, letter (t.getD i 0)) ∧
    (4 ≤ t.length →
      let c2 := t.getD (t.length - 2) 0
      let c3 := t.getD (t.length - 1) 0
      (letter c2 ∧ letter c3) ∨ (letter c2 ∧ c3 = 0x3D) ∨ (c2 = 0x3D ∧ c3 = 0x3D))

/-- R230, R231, R233: the character of each 6-bit value, the groups of encoding and of decoding bit by bit (the bits a final
group has left over are dropped unchecked), the lengths, and that Base64 text is valid and decodes to the bytes it was made
from. -/
def Obligations.Base64DecodingInvertsEncoding : Prop :=
  let char (v : BitVec 6) : Byte := base64Char v.toNat
  ((∀ v < 26, base64Char v = BitVec.ofNat 8 (0x41 + v)) ∧ (∀ v < 26, base64Char (26 + v) = BitVec.ofNat 8 (0x61 + v)) ∧
    (∀ v < 10, base64Char (52 + v) = BitVec.ofNat 8 (0x30 + v)) ∧ base64Char 62 = 0x2B ∧ base64Char 63 = 0x2F) ∧
  (base64Encode [] = [] ∧
    (∀ b0 : Byte, base64Encode [b0] =
      [char (b0.extractLsb' 2 6), char (b0.extractLsb' 0 2 ++ (0 : BitVec 4)), 0x3D, 0x3D]) ∧
    (∀ b0 b1 : Byte, base64Encode [b0, b1] =
      [char (b0.extractLsb' 2 6), char (b0.extractLsb' 0 2 ++ b1.extractLsb' 4 4),
        char (b1.extractLsb' 0 4 ++ (0 : BitVec 2)), 0x3D]) ∧
    ∀ (b0 b1 b2 : Byte) (rest : Bytes), base64Encode (b0 :: b1 :: b2 :: rest) =
      char (b0.extractLsb' 2 6) :: char (b0.extractLsb' 0 2 ++ b1.extractLsb' 4 4) ::
        char (b1.extractLsb' 0 4 ++ b2.extractLsb' 6 2) :: char (b2.extractLsb' 0 6) :: base64Encode rest) ∧
  (base64Decode [] = [] ∧
    ∀ v0 v1 v2 v3 : BitVec 6,
      base64Decode [char v0, char v1, 0x3D, 0x3D] = [(v0 ++ v1.extractLsb' 4 2 : BitVec 8)] ∧
      base64Decode [char v0, char v1, char v2, 0x3D] =
        [(v0 ++ v1.extractLsb' 4 2 : BitVec 8), (v1.extractLsb' 0 4 ++ v2.extractLsb' 2 4 : BitVec 8)] ∧
      ∀ rest : Bytes, base64Decode (char v0 :: char v1 :: char v2 :: char v3 :: rest) =
        (v0 ++ v1.extractLsb' 4 2 : BitVec 8) :: (v1.extractLsb' 0 4 ++ v2.extractLsb' 2 4 : BitVec 8) ::
          (v2.extractLsb' 0 2 ++ v3 : BitVec 8) :: base64Decode rest) ∧
  (∀ x : Bytes, (base64Encode x).length = 4 * ((x.length + 2) / 3) ∧ base64Valid (base64Encode x) = true ∧
    base64Decode (base64Encode x) = x) ∧
    ∀ t : Bytes, base64Valid t = true →
      (base64Decode t).length = 3 * t.length / 4 - t.countP (fun c => decide (c = 0x3D))

/-- R5, R201 (PRESUMED, log entry 5): three reference digests of 95_test_vectors.md. -/
def Obligations.DigestsMatchTheReference : Prop :=
  hash256 (zeros 32) =
      bigEndianBytes 32 0x66687aadf862bd776c8fc18b8e9f8e20089714856ee233b3902a591d0d5f2925 ∧
    hash512 (zeros 64) =
      bigEndianBytes 64 0x7be9fda48f4179e611c698a73cff09faf72869431efee6eaad14de0cb44bbf66503f752b7a8eb17083355f3ce6eb7d2806f236b25af96a24e22b887405c20081 ∧
    hash512 [0x70, 0x77] =
      bigEndianBytes 64 0xbe196838736ddfd0007dd8b2e8f46f22d440d4c5959925cb49135abc9cdb01e84961aa43dd0ddb6ee59975eb649280d9f44088840af37451828a6412b9b574fc

/-! ### Headlines -/

/-- R175, R107: the keys a successful KGEN leaves in DST are a valid key set of the reported length. -/
def Obligations.GeneratedKeysAreValid : Prop :=
  ∀ s t : State, s.mem.wf → s.latch.ops.kgCount ≠ 0 → exec .kgen s = .next t → t.err = .success →
    ValidKeys
      ((List.range t.resultCount.toNat).map
        (fun j => t.mem.readBytes (s.latch.dst.addr + j * t.resultKlen.toNat) t.resultKlen.toNat))
      t.resultKlen.toNat

/-- R238: DEC of the text a successful ENC wrote, with the same key table and large enough regions, succeeds, and gives the
plaintext back exactly when it is empty or does not end in 0x00. -/
def Obligations.ArtifactsRoundTrip : Prop :=
  ∀ s t u : State, s.mem.wf → exec .enc s = .next t → t.err = .success →
    u.mem = t.mem → u.params = s.params → u.latch.ops.srcAddr = s.latch.ops.dstAddr →
    u.latch.ops.srcLen = t.resultLen → u.latch.ops.keytabAddr = s.latch.ops.keytabAddr →
    u.latch.ops.keyCount = s.latch.ops.keyCount → RegionsOk u (u.latch.row .dec) →
    (∀ k < u.latch.ops.keyCount.toNat, DescriptorOk u (u.latch.row .dec) k) →
    paddedLength s.latch.src.len t.resultKlen.toNat ≤ u.latch.scr.len →
    paddedLength s.latch.src.len t.resultKlen.toNat ≤ u.latch.dst.len →
    ∃ v, exec .dec u = .next v ∧ v.err = .success ∧
      (v.mem.readBytes u.latch.dst.addr v.resultLen.toNat = s.latch.src.bytes s.mem ↔
        s.latch.src.bytes s.mem = [] ∨ (s.latch.src.bytes s.mem).getLast? ≠ some 0)

/-- R216, R210: UNSEAL of the text a successful SEAL wrote, with the same password and large enough regions, returns
exactly the sealed keys in order when every salt byte after the first 0x0A is 0x0A too, and reports
`WrongPasswordOrCorrupt` otherwise; R216's probabilities are left out.  (R201's digest is PRESUMED: log entry 5.) -/
def Obligations.VaultsRoundTrip : Prop :=
  ∀ (s t u : State) (ks : List Bytes) (len : Nat) (salt : Bytes) (e : Entropy), s.mem.wf →
    RegionsOk s (s.latch.row .vaultSeal) → KeysOk s (s.latch.row .vaultSeal) ks len →
    s.entropy.draw (len / 2) = (some salt, e) → exec .vaultSeal s = .next t → t.err = .success →
    u.mem = t.mem → u.latch.ops.srcAddr = s.latch.ops.dstAddr → u.latch.ops.srcLen = t.resultLen →
    u.latch.pwd.bytes u.mem = s.latch.pwd.bytes s.mem → RegionsOk u (u.latch.row .vaultUnseal) →
    paddedLength (blobLength len ks.length) 128 ≤ u.latch.scr.len → ks.length * len ≤ u.latch.dst.len →
    ∃ v, exec .vaultUnseal u = .next v ∧
      (SaltReopens salt → v.err = .success ∧ v.resultCount.toNat = ks.length ∧ v.resultKlen.toNat = len ∧
        v.mem.readBytes u.latch.dst.addr v.resultLen.toNat = ks.flatten) ∧
      (¬ SaltReopens salt → v.err = .wrongPasswordOrCorrupt)

/-- R55, R105: a command's report, and on success every byte it leaves in its write regions, depend only on the operand
registers of its row, the bytes of its read regions and, for KGEN and SEAL, the entropy source's answers; nothing an
earlier command left elsewhere shows. -/
def Obligations.CommandsDependOnTheirOperandsAlone : Prop :=
  ∀ (i : Instr) (s r : State), s.mem.wf → r.mem.wf → s.params.bufSize = r.params.bufSize →
    s.latch.ops.readBy i = r.latch.ops.readBy i →
    (∀ g ∈ readRegions s i, ∀ a, g.Covers a → s.mem.read a = r.mem.read a) →
    (i = .kgen ∨ i = .vaultSeal → s.entropy.answers = r.entropy.answers ∧ s.entropy.drawn = r.entropy.drawn) →
    ∃ t u, exec i s = .next t ∧ exec i r = .next u ∧ t.err = u.err ∧ t.errInfo = u.errInfo ∧
      t.resultLen = u.resultLen ∧ t.resultCount = u.resultCount ∧ t.resultKlen = u.resultKlen ∧
      (t.err = .success → ∀ a, t.mem.read a = u.mem.read a ∨
        (t.mem.read a = s.mem.read a ∧ u.mem.read a = r.mem.read a))

/-- The invariant of Safety.lean holds right after reset (R32, R59; the parameters and the empty memory are the model's
choice, log entries 1 and 6). -/
def Obligations.InvariantHoldsAtReset : Prop := State.reset.Inv

/-- Every step keeps the invariant: memory stays canonical and inside the buffer (R71, R75), the report is blank and CMD
fixed while a command runs (R41, R89, R90, R296), results are 0 beside an error (R48, R262), ERR_INFO names a key or is 0
(R49), and only errors that can be produced are reported (R278). -/
def Obligations.StepKeepsTheInvariant : Prop :=
  ∀ s t : State, s.Inv → step s = .next t → t.Inv

/-! ### Hex text and the end of a run -/

/-- R12: `hex` gives two characters for each byte, the high half's first, each the character of `0123456789abcdef` at the
half's value: lower case. -/
def Obligations.HexTextIsLowerCaseHighHalfFirst : Prop :=
  let digits : Bytes :=
    [0x30, 0x31, 0x32, 0x33, 0x34, 0x35, 0x36, 0x37, 0x38, 0x39, 0x61, 0x62, 0x63, 0x64, 0x65, 0x66]
  ∀ x : Bytes, (hexText x).length = 2 * x.length ∧
    ∀ (i : Nat) (b : Byte), x[i]? = some b →
      (hexText x)[2 * i]? = digits[(b.extractLsb' 4 4).toNat]? ∧
      (hexText x)[2 * i + 1]? = digits[(b.extractLsb' 0 4).toNat]?

/-- R305 (93_implementation_defined.md U19): a run ends after the last statement of its program, whether or not a command
still runs; its end state has the register values and memory bytes of that point, but that every byte of a running
command's write regions is unspecified.  That those bytes are the outputs meant is DEDUCED (log entry 19); statements as
pending inputs are the model's choice (log entry 11). -/
def Obligations.RunsEndAfterTheLastStatement : Prop :=
  (∀ s : State, s.Ended ↔ s.host.pending = []) ∧
    (∀ (s : State) (fuel : Nat), s.host.pending = [] → runToEnd fuel s = some (.next s.endState)) ∧
    (∀ (s t : State) (fuel : Nat), s.host.pending ≠ [] → step s = .next t → runToEnd (fuel + 1) s = runToEnd fuel t) ∧
    ∀ s : State, (s.busy = false → s.endState = s) ∧
      (∀ e, decode s.latch.cmd = .error e → s.endState = s) ∧
      (∃ (m : Memory) (f : Nat), s.endState = { s with mem := m, freeUsed := f }) ∧
      ∀ i, decode s.latch.cmd = .ok i → ∀ a, (∀ w ∈ (s.latch.row i).writes, ¬ w.Covers a) →
        s.endState.mem.read a = s.mem.read a
end

