-- ==== Sys2Proof/Laws/State.lean ====
section
/-!
SUPPORT. The fields of a state after each update, one lemma a field, so that no later proof unfolds a record update.
-/

namespace Sys2Proof.Machine

/-! ### accept -/

@[simp] theorem State.accept_params (s : State) (w : Word) (n : Nat) :
    (s.accept w n).params = s.params := rfl
@[simp] theorem State.accept_ie (s : State) (w : Word) (n : Nat) :
    (s.accept w n).ie = s.ie := rfl
@[simp] theorem State.accept_done (s : State) (w : Word) (n : Nat) :
    (s.accept w n).done = false := rfl
@[simp] theorem State.accept_overrun (s : State) (w : Word) (n : Nat) :
    (s.accept w n).overrun = s.overrun := rfl
@[simp] theorem State.accept_err (s : State) (w : Word) (n : Nat) :
    (s.accept w n).err = .success := rfl
@[simp] theorem State.accept_cmd (s : State) (w : Word) (n : Nat) :
    (s.accept w n).cmd = w := rfl
@[simp] theorem State.accept_ops (s : State) (w : Word) (n : Nat) :
    (s.accept w n).ops = s.ops := rfl
@[simp] theorem State.accept_resultLen (s : State) (w : Word) (n : Nat) :
    (s.accept w n).resultLen = 0 := rfl
@[simp] theorem State.accept_resultCount (s : State) (w : Word) (n : Nat) :
    (s.accept w n).resultCount = 0 := rfl
@[simp] theorem State.accept_resultKlen (s : State) (w : Word) (n : Nat) :
    (s.accept w n).resultKlen = 0 := rfl
@[simp] theorem State.accept_errInfo (s : State) (w : Word) (n : Nat) :
    (s.accept w n).errInfo = 0 := rfl
@[simp] theorem State.accept_latch (s : State) (w : Word) (n : Nat) :
    (s.accept w n).latch = { cmd := w, ops := s.ops } := rfl
@[simp] theorem State.accept_sequencer (s : State) (w : Word) (n : Nat) :
    (s.accept w n).sequencer = some (Sequencer.start n) := rfl
@[simp] theorem State.accept_mem (s : State) (w : Word) (n : Nat) :
    (s.accept w n).mem = s.mem := rfl
@[simp] theorem State.accept_entropy (s : State) (w : Word) (n : Nat) :
    (s.accept w n).entropy = s.entropy := rfl
@[simp] theorem State.accept_host (s : State) (w : Word) (n : Nat) :
    (s.accept w n).host = s.host := rfl
@[simp] theorem State.accept_accepted (s : State) (w : Word) (n : Nat) :
    (s.accept w n).accepted = s.accepted := rfl
@[simp] theorem State.accept_freeUsed (s : State) (w : Word) (n : Nat) :
    (s.accept w n).freeUsed = s.freeUsed := rfl

/-! ### complete -/

@[simp] theorem State.complete_params (s : State) (m : Memory) (c : ErrCode) (info len count klen : Nat) :
    (s.complete m c info len count klen).params = s.params := rfl
@[simp] theorem State.complete_ie (s : State) (m : Memory) (c : ErrCode) (info len count klen : Nat) :
    (s.complete m c info len count klen).ie = s.ie := rfl
@[simp] theorem State.complete_done (s : State) (m : Memory) (c : ErrCode) (info len count klen : Nat) :
    (s.complete m c info len count klen).done = true := rfl
@[simp] theorem State.complete_overrun (s : State) (m : Memory) (c : ErrCode) (info len count klen : Nat) :
    (s.complete m c info len count klen).overrun = s.overrun := rfl
@[simp] theorem State.complete_err (s : State) (m : Memory) (c : ErrCode) (info len count klen : Nat) :
    (s.complete m c info len count klen).err = c := rfl
@[simp] theorem State.complete_cmd (s : State) (m : Memory) (c : ErrCode) (info len count klen : Nat) :
    (s.complete m c info len count klen).cmd = s.cmd := rfl
@[simp] theorem State.complete_ops (s : State) (m : Memory) (c : ErrCode) (info len count klen : Nat) :
    (s.complete m c info len count klen).ops = s.ops := rfl
@[simp] theorem State.complete_resultLen (s : State) (m : Memory) (c : ErrCode) (info len count klen : Nat) :
    (s.complete m c info len count klen).resultLen = BitVec.ofNat 32 len := rfl
@[simp] theorem State.complete_resultCount (s : State) (m : Memory) (c : ErrCode) (info len count klen : Nat) :
    (s.complete m c info len count klen).resultCount = BitVec.ofNat 32 count := rfl
@[simp] theorem State.complete_resultKlen (s : State) (m : Memory) (c : ErrCode) (info len count klen : Nat) :
    (s.complete m c info len count klen).resultKlen = BitVec.ofNat 32 klen := rfl
@[simp] theorem State.complete_errInfo (s : State) (m : Memory) (c : ErrCode) (info len count klen : Nat) :
    (s.complete m c info len count klen).errInfo = BitVec.ofNat 32 info := rfl
@[simp] theorem State.complete_latch (s : State) (m : Memory) (c : ErrCode) (info len count klen : Nat) :
    (s.complete m c info len count klen).latch = s.latch := rfl
@[simp] theorem State.complete_sequencer (s : State) (m : Memory) (c : ErrCode) (info len count klen : Nat) :
    (s.complete m c info len count klen).sequencer = none := rfl
@[simp] theorem State.complete_mem (s : State) (m : Memory) (c : ErrCode) (info len count klen : Nat) :
    (s.complete m c info len count klen).mem = m := rfl
@[simp] theorem State.complete_entropy (s : State) (m : Memory) (c : ErrCode) (info len count klen : Nat) :
    (s.complete m c info len count klen).entropy = s.entropy := rfl
@[simp] theorem State.complete_host (s : State) (m : Memory) (c : ErrCode) (info len count klen : Nat) :
    (s.complete m c info len count klen).host = s.host := rfl
@[simp] theorem State.complete_accepted (s : State) (m : Memory) (c : ErrCode) (info len count klen : Nat) :
    (s.complete m c info len count klen).accepted = s.accepted := rfl
@[simp] theorem State.complete_freeUsed (s : State) (m : Memory) (c : ErrCode) (info len count klen : Nat) :
    (s.complete m c info len count klen).freeUsed = s.freeUsed := rfl

/-! ### succeed -/

@[simp] theorem State.succeed_params (s : State) (m : Memory) (len count klen : Nat) :
    (s.succeed m len count klen).params = s.params := rfl
@[simp] theorem State.succeed_ie (s : State) (m : Memory) (len count klen : Nat) :
    (s.succeed m len count klen).ie = s.ie := rfl
@[simp] theorem State.succeed_done (s : State) (m : Memory) (len count klen : Nat) :
    (s.succeed m len count klen).done = true := rfl
@[simp] theorem State.succeed_overrun (s : State) (m : Memory) (len count klen : Nat) :
    (s.succeed m len count klen).overrun = s.overrun := rfl
@[simp] theorem State.succeed_err (s : State) (m : Memory) (len count klen : Nat) :
    (s.succeed m len count klen).err = .success := rfl
@[simp] theorem State.succeed_cmd (s : State) (m : Memory) (len count klen : Nat) :
    (s.succeed m len count klen).cmd = s.cmd := rfl
@[simp] theorem State.succeed_ops (s : State) (m : Memory) (len count klen : Nat) :
    (s.succeed m len count klen).ops = s.ops := rfl
@[simp] theorem State.succeed_resultLen (s : State) (m : Memory) (len count klen : Nat) :
    (s.succeed m len count klen).resultLen = BitVec.ofNat 32 len := rfl
@[simp] theorem State.succeed_resultCount (s : State) (m : Memory) (len count klen : Nat) :
    (s.succeed m len count klen).resultCount = BitVec.ofNat 32 count := rfl
@[simp] theorem State.succeed_resultKlen (s : State) (m : Memory) (len count klen : Nat) :
    (s.succeed m len count klen).resultKlen = BitVec.ofNat 32 klen := rfl
@[simp] theorem State.succeed_errInfo (s : State) (m : Memory) (len count klen : Nat) :
    (s.succeed m len count klen).errInfo = 0 := rfl
@[simp] theorem State.succeed_latch (s : State) (m : Memory) (len count klen : Nat) :
    (s.succeed m len count klen).latch = s.latch := rfl
@[simp] theorem State.succeed_sequencer (s : State) (m : Memory) (len count klen : Nat) :
    (s.succeed m len count klen).sequencer = none := rfl
@[simp] theorem State.succeed_mem (s : State) (m : Memory) (len count klen : Nat) :
    (s.succeed m len count klen).mem = m := rfl
@[simp] theorem State.succeed_entropy (s : State) (m : Memory) (len count klen : Nat) :
    (s.succeed m len count klen).entropy = s.entropy := rfl
@[simp] theorem State.succeed_host (s : State) (m : Memory) (len count klen : Nat) :
    (s.succeed m len count klen).host = s.host := rfl
@[simp] theorem State.succeed_accepted (s : State) (m : Memory) (len count klen : Nat) :
    (s.succeed m len count klen).accepted = s.accepted := rfl
@[simp] theorem State.succeed_freeUsed (s : State) (m : Memory) (len count klen : Nat) :
    (s.succeed m len count klen).freeUsed = s.freeUsed := rfl

/-! ### raise -/

@[simp] theorem State.raise_params (s : State) (e : Raise) :
    (s.raise e).params = s.params := rfl
@[simp] theorem State.raise_ie (s : State) (e : Raise) :
    (s.raise e).ie = s.ie := rfl
@[simp] theorem State.raise_done (s : State) (e : Raise) :
    (s.raise e).done = true := rfl
@[simp] theorem State.raise_overrun (s : State) (e : Raise) :
    (s.raise e).overrun = s.overrun := rfl
@[simp] theorem State.raise_err (s : State) (e : Raise) :
    (s.raise e).err = e.code := rfl
@[simp] theorem State.raise_cmd (s : State) (e : Raise) :
    (s.raise e).cmd = s.cmd := rfl
@[simp] theorem State.raise_ops (s : State) (e : Raise) :
    (s.raise e).ops = s.ops := rfl
@[simp] theorem State.raise_resultLen (s : State) (e : Raise) :
    (s.raise e).resultLen = 0 := rfl
@[simp] theorem State.raise_resultCount (s : State) (e : Raise) :
    (s.raise e).resultCount = 0 := rfl
@[simp] theorem State.raise_resultKlen (s : State) (e : Raise) :
    (s.raise e).resultKlen = 0 := rfl
@[simp] theorem State.raise_errInfo (s : State) (e : Raise) :
    (s.raise e).errInfo = BitVec.ofNat 32 e.info := rfl
@[simp] theorem State.raise_latch (s : State) (e : Raise) :
    (s.raise e).latch = s.latch := rfl
@[simp] theorem State.raise_sequencer (s : State) (e : Raise) :
    (s.raise e).sequencer = none := rfl
@[simp] theorem State.raise_mem (s : State) (e : Raise) :
    (s.raise e).mem = s.mem := rfl
@[simp] theorem State.raise_entropy (s : State) (e : Raise) :
    (s.raise e).entropy = s.entropy := rfl
@[simp] theorem State.raise_host (s : State) (e : Raise) :
    (s.raise e).host = s.host := rfl
@[simp] theorem State.raise_accepted (s : State) (e : Raise) :
    (s.raise e).accepted = s.accepted := rfl
@[simp] theorem State.raise_freeUsed (s : State) (e : Raise) :
    (s.raise e).freeUsed = s.freeUsed := rfl

/-! ### writeStatus -/

@[simp] theorem State.writeStatus_params (s : State) (v : Word) :
    (s.writeStatus v).params = s.params := rfl
@[simp] theorem State.writeStatus_ie (s : State) (v : Word) :
    (s.writeStatus v).ie = s.ie := rfl
@[simp] theorem State.writeStatus_done (s : State) (v : Word) :
    (s.writeStatus v).done = (s.done && !v.getLsbD 1) := rfl
@[simp] theorem State.writeStatus_overrun (s : State) (v : Word) :
    (s.writeStatus v).overrun = (s.overrun && !v.getLsbD 2) := rfl
@[simp] theorem State.writeStatus_err (s : State) (v : Word) :
    (s.writeStatus v).err = s.err := rfl
@[simp] theorem State.writeStatus_cmd (s : State) (v : Word) :
    (s.writeStatus v).cmd = s.cmd := rfl
@[simp] theorem State.writeStatus_ops (s : State) (v : Word) :
    (s.writeStatus v).ops = s.ops := rfl
@[simp] theorem State.writeStatus_resultLen (s : State) (v : Word) :
    (s.writeStatus v).resultLen = s.resultLen := rfl
@[simp] theorem State.writeStatus_resultCount (s : State) (v : Word) :
    (s.writeStatus v).resultCount = s.resultCount := rfl
@[simp] theorem State.writeStatus_resultKlen (s : State) (v : Word) :
    (s.writeStatus v).resultKlen = s.resultKlen := rfl
@[simp] theorem State.writeStatus_errInfo (s : State) (v : Word) :
    (s.writeStatus v).errInfo = s.errInfo := rfl
@[simp] theorem State.writeStatus_latch (s : State) (v : Word) :
    (s.writeStatus v).latch = s.latch := rfl
@[simp] theorem State.writeStatus_sequencer (s : State) (v : Word) :
    (s.writeStatus v).sequencer = s.sequencer := rfl
@[simp] theorem State.writeStatus_mem (s : State) (v : Word) :
    (s.writeStatus v).mem = s.mem := rfl
@[simp] theorem State.writeStatus_entropy (s : State) (v : Word) :
    (s.writeStatus v).entropy = s.entropy := rfl
@[simp] theorem State.writeStatus_host (s : State) (v : Word) :
    (s.writeStatus v).host = s.host := rfl
@[simp] theorem State.writeStatus_accepted (s : State) (v : Word) :
    (s.writeStatus v).accepted = s.accepted := rfl
@[simp] theorem State.writeStatus_freeUsed (s : State) (v : Word) :
    (s.writeStatus v).freeUsed = s.freeUsed := rfl

/-! ### writeCtrl -/

@[simp] theorem State.writeCtrl_params (s : State) (v : Word) :
    (s.writeCtrl v).params = s.params := rfl
@[simp] theorem State.writeCtrl_ie (s : State) (v : Word) :
    (s.writeCtrl v).ie = v.getLsbD 0 := rfl
@[simp] theorem State.writeCtrl_done (s : State) (v : Word) :
    (s.writeCtrl v).done = s.done := rfl
@[simp] theorem State.writeCtrl_overrun (s : State) (v : Word) :
    (s.writeCtrl v).overrun = s.overrun := rfl
@[simp] theorem State.writeCtrl_err (s : State) (v : Word) :
    (s.writeCtrl v).err = s.err := rfl
@[simp] theorem State.writeCtrl_cmd (s : State) (v : Word) :
    (s.writeCtrl v).cmd = s.cmd := rfl
@[simp] theorem State.writeCtrl_ops (s : State) (v : Word) :
    (s.writeCtrl v).ops = s.ops := rfl
@[simp] theorem State.writeCtrl_resultLen (s : State) (v : Word) :
    (s.writeCtrl v).resultLen = s.resultLen := rfl
@[simp] theorem State.writeCtrl_resultCount (s : State) (v : Word) :
    (s.writeCtrl v).resultCount = s.resultCount := rfl
@[simp] theorem State.writeCtrl_resultKlen (s : State) (v : Word) :
    (s.writeCtrl v).resultKlen = s.resultKlen := rfl
@[simp] theorem State.writeCtrl_errInfo (s : State) (v : Word) :
    (s.writeCtrl v).errInfo = s.errInfo := rfl
@[simp] theorem State.writeCtrl_latch (s : State) (v : Word) :
    (s.writeCtrl v).latch = s.latch := rfl
@[simp] theorem State.writeCtrl_sequencer (s : State) (v : Word) :
    (s.writeCtrl v).sequencer = s.sequencer := rfl
@[simp] theorem State.writeCtrl_mem (s : State) (v : Word) :
    (s.writeCtrl v).mem = s.mem := rfl
@[simp] theorem State.writeCtrl_entropy (s : State) (v : Word) :
    (s.writeCtrl v).entropy = s.entropy := rfl
@[simp] theorem State.writeCtrl_host (s : State) (v : Word) :
    (s.writeCtrl v).host = s.host := rfl
@[simp] theorem State.writeCtrl_accepted (s : State) (v : Word) :
    (s.writeCtrl v).accepted = s.accepted := rfl
@[simp] theorem State.writeCtrl_freeUsed (s : State) (v : Word) :
    (s.writeCtrl v).freeUsed = s.freeUsed := rfl

/-! ### resetRegisters -/

@[simp] theorem State.resetRegisters_params (s : State) :
    (s.resetRegisters).params = s.params := rfl
@[simp] theorem State.resetRegisters_ie (s : State) :
    (s.resetRegisters).ie = false := rfl
@[simp] theorem State.resetRegisters_done (s : State) :
    (s.resetRegisters).done = false := rfl
@[simp] theorem State.resetRegisters_overrun (s : State) :
    (s.resetRegisters).overrun = false := rfl
@[simp] theorem State.resetRegisters_err (s : State) :
    (s.resetRegisters).err = .success := rfl
@[simp] theorem State.resetRegisters_cmd (s : State) :
    (s.resetRegisters).cmd = 0 := rfl
@[simp] theorem State.resetRegisters_ops (s : State) :
    (s.resetRegisters).ops = Operands.zero := rfl
@[simp] theorem State.resetRegisters_resultLen (s : State) :
    (s.resetRegisters).resultLen = 0 := rfl
@[simp] theorem State.resetRegisters_resultCount (s : State) :
    (s.resetRegisters).resultCount = 0 := rfl
@[simp] theorem State.resetRegisters_resultKlen (s : State) :
    (s.resetRegisters).resultKlen = 0 := rfl
@[simp] theorem State.resetRegisters_errInfo (s : State) :
    (s.resetRegisters).errInfo = 0 := rfl
@[simp] theorem State.resetRegisters_latch (s : State) :
    (s.resetRegisters).latch = { cmd := 0, ops := Operands.zero } := rfl
@[simp] theorem State.resetRegisters_sequencer (s : State) :
    (s.resetRegisters).sequencer = none := rfl
@[simp] theorem State.resetRegisters_mem (s : State) :
    (s.resetRegisters).mem = s.mem := rfl
@[simp] theorem State.resetRegisters_entropy (s : State) :
    (s.resetRegisters).entropy = s.entropy := rfl
@[simp] theorem State.resetRegisters_host (s : State) :
    (s.resetRegisters).host = s.host := rfl
@[simp] theorem State.resetRegisters_accepted (s : State) :
    (s.resetRegisters).accepted = s.accepted := rfl
@[simp] theorem State.resetRegisters_freeUsed (s : State) :
    (s.resetRegisters).freeUsed = s.freeUsed := rfl

/-! ### deliver -/

@[simp] theorem State.deliver_params (s : State) (v : Word) :
    (s.deliver v).params = s.params := rfl
@[simp] theorem State.deliver_ie (s : State) (v : Word) :
    (s.deliver v).ie = s.ie := rfl
@[simp] theorem State.deliver_done (s : State) (v : Word) :
    (s.deliver v).done = s.done := rfl
@[simp] theorem State.deliver_overrun (s : State) (v : Word) :
    (s.deliver v).overrun = s.overrun := rfl
@[simp] theorem State.deliver_err (s : State) (v : Word) :
    (s.deliver v).err = s.err := rfl
@[simp] theorem State.deliver_cmd (s : State) (v : Word) :
    (s.deliver v).cmd = s.cmd := rfl
@[simp] theorem State.deliver_ops (s : State) (v : Word) :
    (s.deliver v).ops = s.ops := rfl
@[simp] theorem State.deliver_resultLen (s : State) (v : Word) :
    (s.deliver v).resultLen = s.resultLen := rfl
@[simp] theorem State.deliver_resultCount (s : State) (v : Word) :
    (s.deliver v).resultCount = s.resultCount := rfl
@[simp] theorem State.deliver_resultKlen (s : State) (v : Word) :
    (s.deliver v).resultKlen = s.resultKlen := rfl
@[simp] theorem State.deliver_errInfo (s : State) (v : Word) :
    (s.deliver v).errInfo = s.errInfo := rfl
@[simp] theorem State.deliver_latch (s : State) (v : Word) :
    (s.deliver v).latch = s.latch := rfl
@[simp] theorem State.deliver_sequencer (s : State) (v : Word) :
    (s.deliver v).sequencer = s.sequencer := rfl
@[simp] theorem State.deliver_mem (s : State) (v : Word) :
    (s.deliver v).mem = s.mem := rfl
@[simp] theorem State.deliver_entropy (s : State) (v : Word) :
    (s.deliver v).entropy = s.entropy := rfl
@[simp] theorem State.deliver_host (s : State) (v : Word) :
    (s.deliver v).host = { s.host with received := v :: s.host.received } := rfl
@[simp] theorem State.deliver_accepted (s : State) (v : Word) :
    (s.deliver v).accepted = s.accepted := rfl
@[simp] theorem State.deliver_freeUsed (s : State) (v : Word) :
    (s.deliver v).freeUsed = s.freeUsed := rfl

/-! ### popInput -/

@[simp] theorem State.popInput_params (s : State) :
    (s.popInput).params = s.params := rfl
@[simp] theorem State.popInput_ie (s : State) :
    (s.popInput).ie = s.ie := rfl
@[simp] theorem State.popInput_done (s : State) :
    (s.popInput).done = s.done := rfl
@[simp] theorem State.popInput_overrun (s : State) :
    (s.popInput).overrun = s.overrun := rfl
@[simp] theorem State.popInput_err (s : State) :
    (s.popInput).err = s.err := rfl
@[simp] theorem State.popInput_cmd (s : State) :
    (s.popInput).cmd = s.cmd := rfl
@[simp] theorem State.popInput_ops (s : State) :
    (s.popInput).ops = s.ops := rfl
@[simp] theorem State.popInput_resultLen (s : State) :
    (s.popInput).resultLen = s.resultLen := rfl
@[simp] theorem State.popInput_resultCount (s : State) :
    (s.popInput).resultCount = s.resultCount := rfl
@[simp] theorem State.popInput_resultKlen (s : State) :
    (s.popInput).resultKlen = s.resultKlen := rfl
@[simp] theorem State.popInput_errInfo (s : State) :
    (s.popInput).errInfo = s.errInfo := rfl
@[simp] theorem State.popInput_latch (s : State) :
    (s.popInput).latch = s.latch := rfl
@[simp] theorem State.popInput_sequencer (s : State) :
    (s.popInput).sequencer = s.sequencer := rfl
@[simp] theorem State.popInput_mem (s : State) :
    (s.popInput).mem = s.mem := rfl
@[simp] theorem State.popInput_entropy (s : State) :
    (s.popInput).entropy = s.entropy := rfl
@[simp] theorem State.popInput_host (s : State) :
    (s.popInput).host = { s.host with pending := s.host.pending.drop 1 } := rfl
@[simp] theorem State.popInput_accepted (s : State) :
    (s.popInput).accepted = s.accepted := rfl
@[simp] theorem State.popInput_freeUsed (s : State) :
    (s.popInput).freeUsed = s.freeUsed := rfl

/-! ### scrambleRegion -/

@[simp] theorem State.scrambleRegion_params (s : State) (r : Region) :
    (s.scrambleRegion r).params = s.params := rfl
@[simp] theorem State.scrambleRegion_ie (s : State) (r : Region) :
    (s.scrambleRegion r).ie = s.ie := rfl
@[simp] theorem State.scrambleRegion_done (s : State) (r : Region) :
    (s.scrambleRegion r).done = s.done := rfl
@[simp] theorem State.scrambleRegion_overrun (s : State) (r : Region) :
    (s.scrambleRegion r).overrun = s.overrun := rfl
@[simp] theorem State.scrambleRegion_err (s : State) (r : Region) :
    (s.scrambleRegion r).err = s.err := rfl
@[simp] theorem State.scrambleRegion_cmd (s : State) (r : Region) :
    (s.scrambleRegion r).cmd = s.cmd := rfl
@[simp] theorem State.scrambleRegion_ops (s : State) (r : Region) :
    (s.scrambleRegion r).ops = s.ops := rfl
@[simp] theorem State.scrambleRegion_resultLen (s : State) (r : Region) :
    (s.scrambleRegion r).resultLen = s.resultLen := rfl
@[simp] theorem State.scrambleRegion_resultCount (s : State) (r : Region) :
    (s.scrambleRegion r).resultCount = s.resultCount := rfl
@[simp] theorem State.scrambleRegion_resultKlen (s : State) (r : Region) :
    (s.scrambleRegion r).resultKlen = s.resultKlen := rfl
@[simp] theorem State.scrambleRegion_errInfo (s : State) (r : Region) :
    (s.scrambleRegion r).errInfo = s.errInfo := rfl
@[simp] theorem State.scrambleRegion_latch (s : State) (r : Region) :
    (s.scrambleRegion r).latch = s.latch := rfl
@[simp] theorem State.scrambleRegion_sequencer (s : State) (r : Region) :
    (s.scrambleRegion r).sequencer = s.sequencer := rfl
@[simp] theorem State.scrambleRegion_mem (s : State) (r : Region) :
    (s.scrambleRegion r).mem = s.mem.writeBytes r.addr (freeBytes s.freeUsed (r.lengthInside s.params.bufSize)) := rfl
@[simp] theorem State.scrambleRegion_entropy (s : State) (r : Region) :
    (s.scrambleRegion r).entropy = s.entropy := rfl
@[simp] theorem State.scrambleRegion_host (s : State) (r : Region) :
    (s.scrambleRegion r).host = s.host := rfl
@[simp] theorem State.scrambleRegion_accepted (s : State) (r : Region) :
    (s.scrambleRegion r).accepted = s.accepted := rfl
@[simp] theorem State.scrambleRegion_freeUsed (s : State) (r : Region) :
    (s.scrambleRegion r).freeUsed = s.freeUsed + r.lengthInside s.params.bufSize := rfl

/-! ### scramble: memory and the free-value counter only -/

@[simp] theorem State.scramble_nil (s : State) : s.scramble [] = s := rfl

@[simp] theorem State.scramble_cons (s : State) (r : Region) (rs : List Region) :
    s.scramble (r :: rs) = (s.scrambleRegion r).scramble rs := rfl

@[simp] theorem State.scramble_params (s : State) (rs : List Region) : (s.scramble rs).params = s.params := by
  induction rs generalizing s with
  | nil => rfl
  | cons r rs ih => exact (ih (s.scrambleRegion r)).trans rfl

@[simp] theorem State.scramble_ie (s : State) (rs : List Region) : (s.scramble rs).ie = s.ie := by
  induction rs generalizing s with
  | nil => rfl
  | cons r rs ih => exact (ih (s.scrambleRegion r)).trans rfl

@[simp] theorem State.scramble_done (s : State) (rs : List Region) : (s.scramble rs).done = s.done := by
  induction rs generalizing s with
  | nil => rfl
  | cons r rs ih => exact (ih (s.scrambleRegion r)).trans rfl

@[simp] theorem State.scramble_overrun (s : State) (rs : List Region) : (s.scramble rs).overrun = s.overrun := by
  induction rs generalizing s with
  | nil => rfl
  | cons r rs ih => exact (ih (s.scrambleRegion r)).trans rfl

@[simp] theorem State.scramble_err (s : State) (rs : List Region) : (s.scramble rs).err = s.err := by
  induction rs generalizing s with
  | nil => rfl
  | cons r rs ih => exact (ih (s.scrambleRegion r)).trans rfl

@[simp] theorem State.scramble_cmd (s : State) (rs : List Region) : (s.scramble rs).cmd = s.cmd := by
  induction rs generalizing s with
  | nil => rfl
  | cons r rs ih => exact (ih (s.scrambleRegion r)).trans rfl

@[simp] theorem State.scramble_ops (s : State) (rs : List Region) : (s.scramble rs).ops = s.ops := by
  induction rs generalizing s with
  | nil => rfl
  | cons r rs ih => exact (ih (s.scrambleRegion r)).trans rfl

@[simp] theorem State.scramble_resultLen (s : State) (rs : List Region) : (s.scramble rs).resultLen = s.resultLen := by
  induction rs generalizing s with
  | nil => rfl
  | cons r rs ih => exact (ih (s.scrambleRegion r)).trans rfl

@[simp] theorem State.scramble_resultCount (s : State) (rs : List Region) : (s.scramble rs).resultCount = s.resultCount := by
  induction rs generalizing s with
  | nil => rfl
  | cons r rs ih => exact (ih (s.scrambleRegion r)).trans rfl

@[simp] theorem State.scramble_resultKlen (s : State) (rs : List Region) : (s.scramble rs).resultKlen = s.resultKlen := by
  induction rs generalizing s with
  | nil => rfl
  | cons r rs ih => exact (ih (s.scrambleRegion r)).trans rfl

@[simp] theorem State.scramble_errInfo (s : State) (rs : List Region) : (s.scramble rs).errInfo = s.errInfo := by
  induction rs generalizing s with
  | nil => rfl
  | cons r rs ih => exact (ih (s.scrambleRegion r)).trans rfl

@[simp] theorem State.scramble_latch (s : State) (rs : List Region) : (s.scramble rs).latch = s.latch := by
  induction rs generalizing s with
  | nil => rfl
  | cons r rs ih => exact (ih (s.scrambleRegion r)).trans rfl

@[simp] theorem State.scramble_sequencer (s : State) (rs : List Region) : (s.scramble rs).sequencer = s.sequencer := by
  induction rs generalizing s with
  | nil => rfl
  | cons r rs ih => exact (ih (s.scrambleRegion r)).trans rfl

@[simp] theorem State.scramble_entropy (s : State) (rs : List Region) : (s.scramble rs).entropy = s.entropy := by
  induction rs generalizing s with
  | nil => rfl
  | cons r rs ih => exact (ih (s.scrambleRegion r)).trans rfl

@[simp] theorem State.scramble_host (s : State) (rs : List Region) : (s.scramble rs).host = s.host := by
  induction rs generalizing s with
  | nil => rfl
  | cons r rs ih => exact (ih (s.scrambleRegion r)).trans rfl

@[simp] theorem State.scramble_accepted (s : State) (rs : List Region) : (s.scramble rs).accepted = s.accepted := by
  induction rs generalizing s with
  | nil => rfl
  | cons r rs ih => exact (ih (s.scrambleRegion r)).trans rfl

/-! ### BUSY -/

@[simp] theorem State.accept_busy (s : State) (w : Word) (n : Nat) : (s.accept w n).busy = true := rfl

@[simp] theorem State.complete_busy (s : State) (m : Memory) (c : ErrCode) (info len count klen : Nat) :
    (s.complete m c info len count klen).busy = false := rfl

@[simp] theorem State.succeed_busy (s : State) (m : Memory) (len count klen : Nat) :
    (s.succeed m len count klen).busy = false := rfl

@[simp] theorem State.raise_busy (s : State) (e : Raise) : (s.raise e).busy = false := rfl

@[simp] theorem State.resetRegisters_busy (s : State) : s.resetRegisters.busy = false := rfl

theorem State.busy_eq_true_iff (s : State) : s.busy = true ↔ ∃ q, s.sequencer = some q := by
  simp [State.busy, Option.isSome_iff_exists]

theorem State.busy_eq_false_iff (s : State) : s.busy = false ↔ s.sequencer = none := by
  simp [State.busy]

end Sys2Proof.Machine
end

