-- ==== Sys2Proof/Laws/Checks.lean ====
section
/-!
SUPPORT. What each shared check can answer: `demand`, the fixed-region checks, the descriptor loop, validation and the
key phase; and the two shapes of a command's end.
-/

namespace Sys2Proof.Machine

/-! ### demand and conclude -/

theorem demand_of {p : Prop} [Decidable p] (h : p) (c : ErrCode) (i : Nat) : demand p c i = .ok () := by
  simp [demand, h]

theorem demand_of_not {p : Prop} [Decidable p] (h : ¬ p) (c : ErrCode) (i : Nat) :
    demand p c i = .error { code := c, info := i } := by
  simp [demand, h]

/-- A check followed by the rest of a command. -/
theorem demand_bind {α : Type} (p : Prop) [Decidable p] (c : ErrCode) (i : Nat) (f : Unit → Except Raise α) :
    (demand p c i >>= f) = if p then f () else .error { code := c, info := i } := by
  by_cases h : p <;> simp [demand, h, bind, Except.bind]

@[simp] theorem ok_bind {α β : Type} (a : α) (f : α → Except Raise β) :
    ((Except.ok a : Except Raise α) >>= f) = f a := rfl

@[simp] theorem error_bind {α β : Type} (e : Raise) (f : α → Except Raise β) :
    ((Except.error e : Except Raise α) >>= f) = .error e := rfl

theorem bind_eq_ok {α β : Type} {x : Except Raise α} {f : α → Except Raise β} {b : β} :
    (x >>= f) = .ok b ↔ ∃ a, x = .ok a ∧ f a = .ok b := by
  cases x <;> simp

@[simp] theorem conclude_ok (s t : State) : s.conclude (.ok t) = .next t := rfl

@[simp] theorem conclude_error (s : State) (e : Raise) : s.conclude (.error e) = .next (s.raise e) := rfl

/-- Every command ends in a next state: the one its execute phase left, or an error completion. -/
theorem conclude_cases {s t : State} {x : Except Raise State} (h : s.conclude x = .next t) :
    x = .ok t ∨ ∃ e, x = .error e ∧ t = s.raise e := by
  cases x with
  | ok u => exact .inl (by simpa using h)
  | error e => exact .inr ⟨e, rfl, by simpa using h.symm⟩

/-- An error completion of the check phase is the report `failed` writes out. -/
theorem raise_eq_failed (s : State) (e : Raise) : s.raise e = failed s e.code e.info := rfl

/-- A successful completion is the report `ended` writes out. -/
theorem succeed_eq_ended (s : State) (m : Memory) (len count klen : Nat) :
    s.succeed m len count klen = ended s m .success 0 len count klen := rfl

/-! ### The fixed regions -/

/-- Everything the fixed-region checks can answer, in the order of R264. -/
theorem checkRegions_eq (size : Nat) (row : CommandRow) :
    checkRegions size row =
      if ∀ r ∈ row.reads, r.InBounds size then
        if ∀ w ∈ row.writes, w.InBounds size then
          if row.Disjoint then .ok () else .error { code := .overlap }
        else .error { code := .writeFailed }
      else .error { code := .readFailed } := by
  rw [checkRegions, demand_bind]
  congr 1
  rw [demand_bind]
  congr 1

theorem checkRegions_ok {s : State} {row : CommandRow} (h : RegionsOk s row) :
    checkRegions s.params.bufSize row = .ok () := by
  rw [checkRegions_eq, if_pos h.1, if_pos h.2.1, if_pos h.2.2]

theorem checkRegions_eq_ok_iff (s : State) (row : CommandRow) (u : Unit) :
    checkRegions s.params.bufSize row = .ok u ↔ RegionsOk s row := by
  constructor
  · intro h
    rw [checkRegions_eq] at h
    split at h
    · split at h
      · split at h
        · exact ⟨by assumption, by assumption, by assumption⟩
        · cases h
      · cases h
    · cases h
  · intro h
    exact checkRegions_ok h

/-- The fixed-region checks raise nothing but these, always with ERR_INFO 0. -/
theorem checkRegions_error {size : Nat} {row : CommandRow} {e : Raise} (h : checkRegions size row = .error e) :
    (e.code = .readFailed ∨ e.code = .writeFailed ∨ e.code = .overlap) ∧ e.info = 0 := by
  rw [checkRegions_eq] at h
  split at h
  · split at h
    · split at h
      · cases h
      · cases h
        simp
    · cases h
      simp
  · cases h
    simp

/-! ### Descriptors -/

/-- The descriptor loop succeeds exactly when every descriptor is in order, and answers their regions. -/
theorem readDescriptors_eq_ok_iff (s : State) (row : CommandRow) (n i : Nat) (rs : List Region) :
    readDescriptors s.latch s.mem s.params.bufSize row.writes n i = .ok rs ↔
      (∀ j, i ≤ j → j < i + n → DescriptorOk s row j) ∧ rs = (List.range' i n).map (s.latch.keyRegion s.mem) := by
  induction n generalizing i rs with
  | zero =>
    simp only [readDescriptors, Except.ok.injEq, List.range'_zero, List.map_nil]
    exact ⟨fun h => ⟨fun j _ _ => by omega, h.symm⟩, fun h => h.2.symm⟩
  | succ n ih =>
    simp only [readDescriptors, demand_bind]
    constructor
    · intro h
      split at h
      next hb =>
        split at h
        next ho =>
          obtain ⟨r, hr, hrs⟩ := bind_eq_ok.1 h
          obtain ⟨hd, rfl⟩ := (ih (i + 1) r).1 hr
          refine ⟨fun j hij hj => ?_, ?_⟩
          · rcases Nat.eq_or_lt_of_le hij with rfl | hij
            · exact ⟨hb, ho⟩
            · exact hd j hij (by omega)
          · simpa [List.range'_succ, pure, Except.pure] using hrs.symm
        next => cases h
      next => cases h
    · rintro ⟨hd, rfl⟩
      obtain ⟨hb, ho⟩ := hd i (Nat.le_refl i) (by omega)
      rw [if_pos hb, if_pos ho, (ih (i + 1) _).2 ⟨fun j hij hj => hd j (by omega) (by omega), rfl⟩]
      simp [List.range'_succ, pure, Except.pure]

/-- The descriptor loop raises the first failure of the lowest descriptor that has one (R170). -/
theorem readDescriptors_error {l : Latch} {m : Memory} {size : Nat} {ws : List Region} {n i : Nat} {e : Raise}
    (h : readDescriptors l m size ws n i = .error e) :
    ∃ j, i ≤ j ∧ j < i + n ∧ e.info = j + 1 ∧
      (∀ k, i ≤ k → k < j → (l.keyRegion m k).InBounds size ∧ ∀ w ∈ ws, ¬ (l.keyRegion m k).Intersects w) ∧
      ((e.code = .readFailed ∧ ¬ (l.keyRegion m j).InBounds size) ∨
        (e.code = .overlap ∧ (l.keyRegion m j).InBounds size ∧ ¬ ∀ w ∈ ws, ¬ (l.keyRegion m j).Intersects w)) := by
  induction n generalizing i with
  | zero => simp [readDescriptors] at h
  | succ n ih =>
    simp only [readDescriptors, demand_bind] at h
    split at h
    next hb =>
      split at h
      next ho =>
        cases hr : readDescriptors l m size ws n (i + 1) with
        | ok rs =>
          rw [hr] at h
          cases h
        | error e' =>
          rw [hr] at h
          cases h
          obtain ⟨j, hij, hj, hi, hk, hc⟩ := ih hr
          refine ⟨j, by omega, by omega, hi, fun k hik hkj => ?_, hc⟩
          rcases Nat.eq_or_lt_of_le hik with rfl | hik
          · exact ⟨hb, ho⟩
          · exact hk k hik hkj
      next ho =>
        cases h
        exact ⟨i, Nat.le_refl i, by omega, rfl, fun k _ _ => by omega, .inr ⟨rfl, hb, ho⟩⟩
    next hb =>
      cases h
      exact ⟨i, Nat.le_refl i, by omega, rfl, fun k _ _ => by omega, .inl ⟨rfl, hb⟩⟩

/-! ### Validation and the key phase -/

/-- Validation succeeds exactly on valid key sets, and answers the set itself. -/
theorem validateKeys_eq_ok_iff (ks : List Bytes) (r : KeySet) :
    validateKeys ks = .ok r ↔ ValidKeys ks r.len ∧ r.keys = ks := by
  obtain ⟨len, keys⟩ := r
  cases ks with
  | nil => simp [validateKeys]
  | cons k ks =>
    simp only [validateKeys]
    constructor
    · intro h
      split at h
      · cases h
      next hL =>
        split at h
        · cases h
        next hM =>
          split at h
          · cases h
          next hK =>
            cases h
            rw [List.findIdx?_eq_none_iff] at hM hK
            refine ⟨⟨by simp, fun h0 => hL (.inl h0), ?_, fun q hq => ⟨?_, ?_⟩⟩, rfl⟩
            · exact Classical.byContradiction fun h0 => hL (.inr h0)
            · simpa using hM q hq
            · exact fun c hc => by
                have := List.any_eq_false.1 (hK q hq) c hc
                rw [decide_eq_true_iff, Classical.not_not] at this
                exact this
    · rintro ⟨⟨-, h0, h64, hk⟩, rfl⟩
      have hlen : k.length = len := (hk k (by simp)).1
      have hM : (k :: ks).findIdx? (fun q => decide (q.length ≠ k.length)) = none :=
        List.findIdx?_eq_none_iff.2 fun q hq => by simp [hlen, (hk q hq).1]
      have hK : (k :: ks).findIdx? (fun q => q.any (fun c => decide (¬ IsHexChar c))) = none :=
        List.findIdx?_eq_none_iff.2 fun q hq => List.any_eq_false.2 fun c hc => by
          rw [decide_eq_true_iff, Classical.not_not]
          exact (hk q hq).2 c hc
      rw [if_neg (by simp [hlen, h0, h64]), hM]
      simp only [hK, hlen]

/-- The key phase succeeds exactly when the key table is in order. -/
theorem keyPhase_eq_ok_iff (s : State) (row : CommandRow) (r : KeySet) :
    keyPhase s row = .ok r ↔ KeysOk s row r.keys r.len := by
  simp only [keyPhase, demand_bind]
  constructor
  · intro h
    split at h
    next hk =>
      obtain ⟨rs, hrs, hv⟩ := bind_eq_ok.1 h
      obtain ⟨hd, rfl⟩ := (readDescriptors_eq_ok_iff s row row.keyCount 0 rs).1 hrs
      obtain ⟨hval, hkeys⟩ := (validateKeys_eq_ok_iff _ r).1 hv
      rw [← hkeys] at hval
      refine ⟨by simp [hkeys], hval, fun i hi => ⟨hd i (Nat.zero_le i) (by omega), ?_⟩⟩
      rw [hkeys]
      simp [hi]
    next => cases h
  · rintro ⟨hc, hval, hd⟩
    have hne : row.keyCount ≠ 0 := by
      rw [hc]
      simpa using hval.1
    have hkeys : ((List.range' 0 row.keyCount).map (s.latch.keyRegion s.mem)).map (fun q => q.bytes s.mem) = r.keys := by
      apply List.ext_getElem?
      intro i
      by_cases hi : i < row.keyCount
      · rw [(hd i hi).2]
        simp [hi]
      · rw [List.getElem?_eq_none (by simpa using hi), List.getElem?_eq_none (by omega)]
    rw [if_pos hne, (readDescriptors_eq_ok_iff s row row.keyCount 0 _).2 ⟨fun j _ hj => (hd j (by omega)).1, rfl⟩]
    simp only [ok_bind, hkeys]
    exact (validateKeys_eq_ok_iff _ r).2 ⟨hval, rfl⟩

theorem keyPhase_ok {s : State} {row : CommandRow} {ks : List Bytes} {len : Nat} (h : KeysOk s row ks len) :
    keyPhase s row = .ok { len := len, keys := ks } := (keyPhase_eq_ok_iff s row _).2 h

/-- The codes that can name a key in ERR_INFO (R49). -/
abbrev NamesKey (c : ErrCode) : Prop :=
  c = .readFailed ∨ c = .overlap ∨ c = .invalidLength ∨ c = .lengthMismatch ∨ c = .invalidKey

theorem validateKeys_error {ks : List Bytes} {e : Raise} (h : validateKeys ks = .error e) :
    (e.code = .noKeys ∧ e.info = 0) ∨ NamesKey e.code := by
  cases ks with
  | nil =>
    cases h
    exact .inl ⟨rfl, rfl⟩
  | cons k ks =>
    simp only [validateKeys] at h
    split at h
    · cases h
      exact .inr (by simp [NamesKey])
    · split at h
      · cases h
        exact .inr (by simp [NamesKey])
      · split at h
        · cases h
          exact .inr (by simp [NamesKey])
        · cases h

/-- The key phase raises `NoKeys` with ERR_INFO 0, or an error that names a key. -/
theorem keyPhase_error {s : State} {row : CommandRow} {e : Raise} (h : keyPhase s row = .error e) :
    (e.code = .noKeys ∧ e.info = 0) ∨ NamesKey e.code := by
  simp only [keyPhase, demand_bind] at h
  split at h
  · cases hr : readDescriptors s.latch s.mem s.params.bufSize row.writes row.keyCount 0 with
    | ok rs =>
      rw [hr] at h
      exact validateKeys_error h
    | error e' =>
      rw [hr] at h
      cases h
      obtain ⟨j, -, -, -, -, hc | hc⟩ := readDescriptors_error hr
      · exact .inr (.inl hc.1)
      · exact .inr (.inr (.inl hc.1))
  · cases h
    exact .inl ⟨rfl, rfl⟩

end Sys2Proof.Machine
end

