-- ==== Sys2Proof/Laws/Cipher.lean ====
section
/-!
SUPPORT. How long the outputs of the pure functions are: padding, cipher passes and cascades, depadding, hex text,
digests, Base64, blobs and vault rounds, entropy draws and derived keys.  With these, what a command writes is known to
fit the region it checked.
-/

namespace Sys2Proof.Machine

/-! ### Padding -/

theorem paddedLength_dvd (n len : Nat) : len ∣ paddedLength n len := Dvd.intro_left _ rfl

theorem le_paddedLength {n len : Nat} (h : 0 < len) : n ≤ paddedLength n len := by
  have h1 := Nat.div_add_mod (n + len - 1) len
  have h2 := Nat.mod_lt (n + len - 1) h
  have h3 : paddedLength n len = len * ((n + len - 1) / len) := Nat.mul_comm _ _
  omega

/-- A multiple of the key length gets no padding (R130). -/
theorem paddedLength_of_dvd {n len : Nat} (h : 0 < len) (hd : len ∣ n) : paddedLength n len = n := by
  obtain ⟨k, rfl⟩ := hd
  have : (len * k + len - 1) / len = k := by
    rw [show len * k + len - 1 = (len - 1) + len * k by omega, Nat.add_mul_div_left _ _ h,
      Nat.div_eq_of_lt (by omega), Nat.zero_add]
  simp [paddedLength, ceilDiv, this, Nat.mul_comm]

/-! ### Cipher passes -/

@[simp] theorem forwardBytes_length (len : Nat) (x : Bytes) (j : Nat) (p : PassBuffers) :
    (forwardBytes len x j p).length = x.length := by
  induction x generalizing j p with
  | nil => rfl
  | cons d x ih => simp [forwardBytes, ih]

/-- The forward pass gives the padded length (R131). -/
theorem forward_length {key : Bytes} (data : Bytes) (h : 0 < key.length) :
    (forward data key).length = paddedLength data.length key.length := by
  have := le_paddedLength (n := data.length) h
  simp [forward]
  omega

@[simp] theorem xorBytes_length (x y : Bytes) : (xorBytes x y).length = min x.length y.length := by
  simp [xorBytes]

theorem blockOf_length {len : Nat} {x : Bytes} {b : Nat} (h : (b + 1) * len ≤ x.length) :
    (blockOf len x b).length = len := by
  rw [Nat.succ_mul] at h
  simp [blockOf]
  omega

theorem splice_length {out v : Bytes} {pos : Nat} (h : pos + v.length ≤ out.length) :
    (splice out pos v).length = out.length := by
  simp [splice]
  omega

theorem inverseBlocks_length (data key : Bytes) (n : Nat) (out : Bytes) (hn : n * key.length ≤ data.length)
    (ho : out.length = data.length) : (inverseBlocks data key n out).length = data.length := by
  induction n generalizing out with
  | zero => exact ho
  | succ b ih =>
    have hb : b * key.length + key.length ≤ data.length := by simpa [Nat.succ_mul] using hn
    refine ih _ (by omega) ?_
    rw [splice_length, ho]
    have : (blockOf key.length data b).length = key.length := blockOf_length hn
    simp only [xorBytes_length, this]
    omega

/-- The inverse pass keeps the length (R133). -/
@[simp] theorem inverse_length (data key : Bytes) : (inverse data key).length = data.length :=
  inverseBlocks_length data key _ _ (Nat.div_mul_le_self _ _) (by simp)

/-- Only the first pass of a cascade pads (R135). -/
theorem cascadeForward_length {keys : List Bytes} {len : Nat} (data : Bytes) (hn : keys ≠ []) (h0 : 0 < len)
    (hk : ∀ k ∈ keys, k.length = len) : (cascadeForward data keys).length = paddedLength data.length len := by
  induction keys generalizing data with
  | nil => exact absurd rfl hn
  | cons k ks ih =>
    have hkl : k.length = len := hk k (by simp)
    have hf : (forward data k).length = paddedLength data.length len := by rw [forward_length data (by omega), hkl]
    cases ks with
    | nil => exact hf
    | cons q qs =>
      have := ih (forward data k) (by simp) fun r hr => hk r (by simp [hr])
      rw [hf, paddedLength_of_dvd h0 (paddedLength_dvd _ _)] at this
      exact this

theorem foldl_inverse_length (keys : List Bytes) (data : Bytes) : (keys.foldl inverse data).length = data.length := by
  induction keys generalizing data with
  | nil => rfl
  | cons k ks ih => simpa using ih (inverse data k)

@[simp] theorem cascadeInverse_length (keys : List Bytes) (data : Bytes) :
    (cascadeInverse data keys).length = data.length := foldl_inverse_length _ _

theorem stripZeros_length_le (x : Bytes) : (stripZeros x).length ≤ x.length := by
  induction x with
  | nil => exact Nat.le_refl 0
  | cons b x ih =>
    simp only [stripZeros]
    split
    · split <;> simp
    · rename_i h
      rw [h] at ih
      simpa using ih

/-! ### Text -/

@[simp] theorem hexText_length (x : Bytes) : (hexText x).length = 2 * x.length := by
  induction x with
  | nil => rfl
  | cons b x ih => simp [hexText, ih]; omega

@[simp] theorem bigEndianBytes_length (n v : Nat) : (bigEndianBytes n v).length = n := by
  induction n with
  | zero => rfl
  | succ n ih => simp [bigEndianBytes, ih]

theorem shaHash_length {w : Nat} (v : ShaVariant w) (x : Bytes) : (shaHash v x).length = 8 * (w / 8) := by
  simp [shaHash, ShaWords.digest]
  omega

/-- `HASH512` returns 64 bytes (R9). -/
@[simp] theorem hash512_length (x : Bytes) : (hash512 x).length = 64 := shaHash_length _ _

/-- `HASH256` returns 32 bytes (R9). -/
@[simp] theorem hash256_length (x : Bytes) : (hash256 x).length = 32 := shaHash_length _ _

/-- The passKey is 128 characters (R201). -/
@[simp] theorem passKey_length (pw : Bytes) : (passKey pw).length = passKeyLength := by
  simp [passKey, passKeyLength]

theorem hexDigit_isHexChar : ∀ h < 16, IsHexChar (hexDigit h) := by decide

/-- Hex text is hex characters (R12, R11). -/
theorem hexText_isHexChar (x : Bytes) : ∀ c ∈ hexText x, IsHexChar c := by
  induction x with
  | nil => simp [hexText]
  | cons b x ih =>
    have hb := b.isLt
    intro c hc
    simp only [hexText, List.mem_cons] at hc
    rcases hc with rfl | rfl | hc
    · exact hexDigit_isHexChar _ (by omega)
    · exact hexDigit_isHexChar _ (by omega)
    · exact ih c hc

theorem ceilDiv_three_add (n : Nat) : ceilDiv (n + 3) 3 = ceilDiv n 3 + 1 := by
  simp only [ceilDiv]
  omega

/-- The length of Base64 text (R231). -/
@[simp] theorem base64Encode_length (x : Bytes) : (base64Encode x).length = base64Length x.length := by
  induction x using base64Encode.induct with
  | case1 b0 b1 b2 rest ih =>
    simp only [base64Encode, List.length_cons, ih, base64Length]
    rw [show rest.length + 1 + 1 + 1 = rest.length + 3 from rfl, ceilDiv_three_add]
    omega
  | case2 b0 b1 => simp [base64Encode, base64Length, ceilDiv]
  | case3 b0 => simp [base64Encode, base64Length, ceilDiv]
  | case4 => simp [base64Encode, base64Length, ceilDiv]

/-! ### Vault -/

theorem keyLines_length {keys : List Bytes} {len : Nat} (h : ∀ k ∈ keys, k.length = len) :
    (keyLines keys).length = keys.length * (len + 1) := by
  induction keys with
  | nil => simp [keyLines]
  | cons k ks ih =>
    have hk : k.length = len := h k (by simp)
    simp only [keyLines, List.length_append, List.length_cons, hk, ih fun q hq => h q (by simp [hq]), Nat.succ_mul]
    omega

/-- The length of a blob (R204). -/
theorem vaultBlob_length {salt : Bytes} {keys : List Bytes} {len : Nat} (hs : salt.length = len / 2)
    (h : ∀ k ∈ keys, k.length = len) : (vaultBlob salt keys).length = blobLength len keys.length := by
  simp only [vaultBlob, List.length_append, List.length_cons, hs, keyLines_length h, blobLength]
  omega

theorem rounds_forward_length {key : Bytes} (hk : 0 < key.length) (n : Nat) (x : Bytes) :
    (rounds forward key (n + 1) x).length = paddedLength x.length key.length := by
  induction n generalizing x with
  | zero => exact forward_length x hk
  | succ n ih =>
    show (rounds forward key (n + 1) (forward x key)).length = _
    rw [ih, forward_length x hk, paddedLength_of_dvd hk (paddedLength_dvd _ _)]

/-- Sealed bytes have the blob's padded length (R205). -/
theorem sealRounds_length {key : Bytes} (hk : 0 < key.length) (blob : Bytes) :
    (sealRounds blob key).length = paddedLength blob.length key.length := rounds_forward_length hk 4 blob

theorem rounds_inverse_length (key : Bytes) (n : Nat) (x : Bytes) : (rounds inverse key n x).length = x.length := by
  induction n generalizing x with
  | zero => rfl
  | succ n ih => exact (ih (inverse x key)).trans (inverse_length x key)

@[simp] theorem unsealRounds_length (x key : Bytes) : (unsealRounds x key).length = x.length :=
  rounds_inverse_length key _ x

theorem flatten_length {keys : List Bytes} {len : Nat} (h : ∀ k ∈ keys, k.length = len) :
    keys.flatten.length = keys.length * len := by
  induction keys with
  | nil => simp
  | cons k ks ih =>
    have hk : k.length = len := h k (by simp)
    simp only [List.flatten_cons, List.length_append, hk, ih fun q hq => h q (by simp [hq]), List.length_cons,
      Nat.succ_mul]
    omega

/-! ### Entropy -/

@[simp] theorem Entropy.advance_ready (e : Entropy) : e.advance.ready = e.ready := rfl

@[simp] theorem Entropy.skip_ready (n : Nat) (e : Entropy) : (e.skip n).ready = e.ready := by
  induction n generalizing e with
  | zero => rfl
  | succ n ih => exact (ih e.advance).trans rfl

/-- A draw leaves the ready indication alone. -/
@[simp] theorem Entropy.draw_ready (n : Nat) (e : Entropy) : (e.draw n).2.ready = e.ready := by
  induction n generalizing e with
  | zero => rfl
  | succ n ih =>
    have := ih e.advance
    simp only [Entropy.draw]
    cases e.answer with
    | none => rfl
    | some b =>
      cases hd : Entropy.draw n e.advance with
      | mk o e' =>
        rw [hd] at this
        cases o <;> exact this

/-- A draw that succeeds gives the bytes asked for (R276). -/
theorem Entropy.draw_length {n : Nat} {e e' : Entropy} {x : Bytes} (h : e.draw n = (some x, e')) : x.length = n := by
  induction n generalizing e x with
  | zero =>
    simp only [Entropy.draw, Prod.mk.injEq, Option.some.injEq] at h
    simp [← h.1]
  | succ n ih =>
    simp only [Entropy.draw] at h
    cases ha : e.answer with
    | none => simp [ha] at h
    | some b =>
      simp only [ha] at h
      cases hd : Entropy.draw n e.advance with
      | mk o e2 =>
        rw [hd] at h
        cases o with
        | none => simp at h
        | some y =>
          simp only [Prod.mk.injEq, Option.some.injEq] at h
          obtain ⟨rfl, rfl⟩ := h
          simp [ih hd]

/-! ### Derived keys -/

theorem deriveSegments_ready (fuel need : Nat) (acc : Bytes) (e : Entropy) :
    (deriveSegments fuel need acc e).2.ready = e.ready := by
  induction fuel generalizing need acc e with
  | zero => rfl
  | succ fuel ih =>
    simp only [deriveSegments]
    split
    · rfl
    · split
      · have := Entropy.draw_ready 64 e
        cases hd : e.draw 64 with
        | mk o e' =>
          rw [hd] at this
          cases o with
          | none => exact this
          | some x => exact (ih _ _ e').trans this
      · have := Entropy.draw_ready 32 e
        cases hd : e.draw 32 with
        | mk o e' =>
          rw [hd] at this
          cases o with
          | none => exact this
          | some x => exact (ih _ _ e').trans this

/-- A derived key adds the hex text of its segments (R174): 4 bits a character. -/
theorem deriveSegments_length {fuel m : Nat} {acc k : Bytes} {e e' : Entropy} (hf : m ≤ fuel)
    (h : deriveSegments fuel (256 * m) acc e = (some k, e')) : k.length = acc.length + 64 * m := by
  induction fuel generalizing m acc e with
  | zero =>
    simp only [deriveSegments, Prod.mk.injEq, Option.some.injEq] at h
    rw [← h.1]
    omega
  | succ fuel ih =>
    simp only [deriveSegments] at h
    split at h
    · simp only [Prod.mk.injEq, Option.some.injEq] at h
      rw [← h.1]
      omega
    · split at h
      · cases hd : e.draw 64 with
        | mk o e2 =>
          rw [hd] at h
          cases o with
          | none => simp at h
          | some x =>
            simp only at h
            rw [show 256 * m - 512 = 256 * (m - 2) by omega] at h
            have := ih (by omega) h
            simp at this
            omega
      · cases hd : e.draw 32 with
        | mk o e2 =>
          rw [hd] at h
          cases o with
          | none => simp at h
          | some x =>
            simp only at h
            rw [show 256 * m - 256 = 256 * (m - 1) by omega] at h
            have := ih (by omega) h
            simp at this
            omega

/-- A derived key has `B / 4` characters (R175). -/
theorem deriveKey_length {bits : Nat} {k : Bytes} {e e' : Entropy} (hb : bits % 256 = 0)
    (h : deriveKey bits e = (some k, e')) : k.length = bits / 4 := by
  unfold deriveKey at h
  obtain ⟨m, rfl⟩ : ∃ m, bits = 256 * m := ⟨bits / 256, by omega⟩
  have := deriveSegments_length (m := m) (by omega) h
  simp at this
  omega

theorem deriveKeys_ready (bits n : Nat) (e : Entropy) : (deriveKeys bits n e).2.ready = e.ready := by
  induction n generalizing e with
  | zero => rfl
  | succ n ih =>
    simp only [deriveKeys]
    have h1 : (deriveKey bits e).2.ready = e.ready := deriveSegments_ready _ _ _ _
    cases hd : deriveKey bits e with
    | mk o e2 =>
      rw [hd] at h1
      cases o with
      | none => exact h1
      | some k =>
        have h2 := ih e2
        simp only
        cases hk : deriveKeys bits n e2 with
        | mk o2 e3 =>
          rw [hk] at h2
          cases o2 <;> exact h2.trans h1

/-- KGEN's keys are contiguous, `B / 4` characters each (R107, R177). -/
theorem deriveKeys_length {bits n : Nat} {x : Bytes} {e e' : Entropy} (hb : bits % 256 = 0)
    (h : deriveKeys bits n e = (some x, e')) : x.length = n * (bits / 4) := by
  induction n generalizing e x with
  | zero =>
    simp only [deriveKeys, Prod.mk.injEq, Option.some.injEq] at h
    simp [← h.1]
  | succ n ih =>
    simp only [deriveKeys] at h
    cases hd : deriveKey bits e with
    | mk o e2 =>
      rw [hd] at h
      cases o with
      | none => simp at h
      | some k =>
        simp only at h
        cases hk : deriveKeys bits n e2 with
        | mk o2 e3 =>
          rw [hk] at h
          cases o2 with
          | none => simp at h
          | some y =>
            simp only [Prod.mk.injEq, Option.some.injEq] at h
            obtain ⟨rfl, rfl⟩ := h
            rw [List.length_append, deriveKey_length hb hd, ih hk, Nat.succ_mul, Nat.add_comm]

end Sys2Proof.Machine
end

