-- ==== Sys2Proof/Laws/Memory.lean ====
section
/-!
SUPPORT. Buffer memory: a read after a write, the frame of a write, the canonical form and the bounds every write
keeps, and the same for byte strings.
-/

namespace Sys2Proof.Machine

/-! ### One byte -/

theorem Memory.read_of_lt {m : Memory} {a : Nat} (h : ∀ c ∈ m, a < c.1) : m.read a = unwritten := by
  induction m with
  | nil => rfl
  | cons c m ih =>
    have hc := h c (by simp)
    simp only [Memory.read, if_neg (Nat.ne_of_lt hc)]
    exact ih fun d hd => h d (by simp [hd])

theorem Memory.wf_tail {c : Host.Cell} {m : Memory} (h : Memory.wf (c :: m)) : m.wf :=
  ⟨(List.pairwise_cons.1 h.1).2, fun d hd => h.2 d (by simp [hd])⟩

theorem Memory.wf_head {c : Host.Cell} {m : Memory} (h : Memory.wf (c :: m)) : ∀ d ∈ m, c.1 < d.1 :=
  (List.pairwise_cons.1 h.1).1

/-- The byte written is the byte read. -/
theorem Memory.read_write_same {m : Memory} (h : m.wf) (a : Nat) (v : Byte) : (m.write a v).read a = v := by
  induction m with
  | nil =>
    by_cases hv : v = unwritten <;> simp [Memory.write, Memory.read, hv]
  | cons c m ih =>
    obtain ⟨b, u⟩ := c
    have hgt : a ≤ b → Memory.read m a = unwritten := fun hab =>
      Memory.read_of_lt fun d hd => Nat.lt_of_le_of_lt hab (Memory.wf_head h d hd)
    rcases Nat.lt_trichotomy a b with hab | hab | hab
    · have := hgt (Nat.le_of_lt hab)
      by_cases hv : v = unwritten <;> simp [Memory.write, Memory.read, hab, hv, Nat.ne_of_lt hab, this]
    · subst hab
      have := hgt (Nat.le_refl a)
      by_cases hv : v = unwritten <;> simp [Memory.write, Memory.read, hv, this]
    · simp [Memory.write, Memory.read, Nat.lt_asymm hab, (Nat.ne_of_lt hab).symm, ih (Memory.wf_tail h)]

/-- Every other byte is left alone. -/
theorem Memory.read_write_other (m : Memory) {a x : Nat} (v : Byte) (h : x ≠ a) :
    (m.write a v).read x = m.read x := by
  induction m with
  | nil => by_cases hv : v = unwritten <;> simp [Memory.write, Memory.read, hv, h]
  | cons c m ih =>
    obtain ⟨b, u⟩ := c
    rcases Nat.lt_trichotomy a b with hab | hab | hab
    · by_cases hv : v = unwritten <;> simp [Memory.write, Memory.read, hab, hv, h]
    · subst hab
      by_cases hv : v = unwritten <;> simp [Memory.write, Memory.read, hv, h]
    · simp [Memory.write, Memory.read, Nat.lt_asymm hab, (Nat.ne_of_lt hab).symm, ih]

/-- The addresses a write leaves listed. -/
theorem Memory.mem_write {m : Memory} {a : Nat} {v : Byte} {c : Host.Cell} (h : c ∈ m.write a v) :
    c ∈ m ∨ (c = (a, v) ∧ v ≠ unwritten) := by
  induction m with
  | nil =>
    by_cases hv : v = unwritten <;> simp [Memory.write, hv] at h
    exact .inr ⟨h, hv⟩
  | cons d m ih =>
    obtain ⟨b, u⟩ := d
    simp only [Memory.write] at h
    split at h
    · split at h
      · exact .inl h
      · rcases List.mem_cons.1 h with rfl | h
        · exact .inr ⟨rfl, by assumption⟩
        · exact .inl h
    · split at h
      · split at h
        · exact .inl (by simp [h])
        · rcases List.mem_cons.1 h with rfl | h
          · exact .inr ⟨rfl, by assumption⟩
          · exact .inl (by simp [h])
      · rcases List.mem_cons.1 h with rfl | h
        · exact .inl (by simp)
        · rcases ih h with h | h
          · exact .inl (by simp [h])
          · exact .inr h

/-- A write keeps the canonical form. -/
theorem Memory.write_wf {m : Memory} (h : m.wf) (a : Nat) (v : Byte) : (m.write a v).wf := by
  refine ⟨?_, ?_⟩
  · induction m with
    | nil => by_cases hv : v = unwritten <;> simp [Memory.write, hv]
    | cons c m ih =>
      obtain ⟨b, u⟩ := c
      have hb := Memory.wf_head h
      simp only [Memory.write]
      split
      next hab =>
        split
        · exact h.1
        · refine List.pairwise_cons.2 ⟨fun d hd => ?_, h.1⟩
          rcases List.mem_cons.1 hd with rfl | hd
          · exact hab
          · exact Nat.lt_trans hab (hb d hd)
      next hab =>
        split
        next heq =>
          subst heq
          split
          · exact (Memory.wf_tail h).1
          · exact List.pairwise_cons.2 ⟨fun d hd => hb d hd, (Memory.wf_tail h).1⟩
        next hne =>
          refine List.pairwise_cons.2 ⟨fun d hd => ?_, ih (Memory.wf_tail h)⟩
          rcases Memory.mem_write hd with hd | ⟨rfl, -⟩
          · exact hb d hd
          · show b < a
            omega
  · intro c hc
    rcases Memory.mem_write hc with hc | ⟨rfl, hv⟩
    · exact h.2 c hc
    · exact hv

/-- A write inside buffer memory keeps every listed address inside it. -/
theorem Memory.write_within {m : Memory} {size a : Nat} (h : m.Within size) (v : Byte) (ha : a < size) :
    (m.write a v).Within size := by
  intro c hc
  rcases Memory.mem_write hc with hc | ⟨rfl, -⟩
  · exact h c hc
  · exact ha

/-- Canonical memories with the same bytes are the same data. -/
theorem Memory.ext_of_read {m n : Memory} (hm : m.wf) (hn : n.wf) (h : ∀ a, m.read a = n.read a) : m = n := by
  induction m generalizing n with
  | nil =>
    cases n with
    | nil => rfl
    | cons d n =>
      have := h d.1
      simp only [Memory.read, if_true] at this
      exact absurd this.symm (hn.2 d (by simp))
  | cons c m ih =>
    cases n with
    | nil =>
      have := h c.1
      simp only [Memory.read, if_true] at this
      exact absurd this (hm.2 c (by simp))
    | cons d n =>
      obtain ⟨b, u⟩ := c
      obtain ⟨e, w⟩ := d
      have hlow : ∀ {x y : Nat} {v z : Byte} {p q : Memory}, Memory.wf ((x, v) :: p) → Memory.wf ((y, z) :: q) →
          (∀ a, Memory.read ((x, v) :: p) a = Memory.read ((y, z) :: q) a) → ¬ x < y := by
        intro x y v z p q hp hq heq hxy
        have hx := heq x
        rw [Memory.read_of_lt (m := (y, z) :: q)] at hx
        · simp only [Memory.read, if_true] at hx
          exact hp.2 (x, v) (by simp) hx
        · intro c hc
          rcases List.mem_cons.1 hc with rfl | hc
          · exact hxy
          · exact Nat.lt_trans hxy (Memory.wf_head hq c hc)
      have hbe : b = e :=
        Nat.le_antisymm (Nat.le_of_not_lt (hlow hn hm fun a => (h a).symm)) (Nat.le_of_not_lt (hlow hm hn h))
      subst hbe
      have huw : u = w := by simpa [Memory.read] using h b
      subst huw
      have : m = n := by
        refine ih (Memory.wf_tail hm) (Memory.wf_tail hn) fun a => ?_
        by_cases hab : a = b
        · subst hab
          rw [Memory.read_of_lt (Memory.wf_head hm), Memory.read_of_lt (Memory.wf_head hn)]
        · simpa [Memory.read, hab] using h a
      rw [this]

/-! ### Byte strings -/

@[simp] theorem Memory.readBytes_length (m : Memory) (a n : Nat) : (m.readBytes a n).length = n := by
  induction n generalizing a with
  | zero => rfl
  | succ n ih => simp [Memory.readBytes, ih]

theorem Memory.readBytes_getElem? (m : Memory) (a n i : Nat) (h : i < n) :
    (m.readBytes a n)[i]? = some (m.read (a + i)) := by
  induction n generalizing a i with
  | zero => omega
  | succ n ih =>
    cases i with
    | zero => simp [Memory.readBytes]
    | succ i =>
      simp only [Memory.readBytes, List.getElem?_cons_succ]
      rw [ih _ _ (by omega)]
      congr 2
      omega

theorem Memory.readBytes_congr {m n : Memory} {a k : Nat} (h : ∀ x, a ≤ x → x < a + k → m.read x = n.read x) :
    m.readBytes a k = n.readBytes a k := by
  induction k generalizing a with
  | zero => rfl
  | succ k ih =>
    simp only [Memory.readBytes]
    rw [h a (Nat.le_refl a) (by omega), ih fun x hx hx' => h x (by omega) (by omega)]

/-- Writing a byte string keeps the canonical form. -/
theorem Memory.writeBytes_wf {m : Memory} (h : m.wf) (a : Nat) (v : Bytes) : (m.writeBytes a v).wf := by
  induction v generalizing a with
  | nil => exact h
  | cons b v ih => exact Memory.write_wf (ih (a + 1)) a b

/-- Writing a byte string inside buffer memory keeps every listed address inside it. -/
theorem Memory.writeBytes_within {m : Memory} {size a : Nat} {v : Bytes} (h : m.Within size)
    (ha : v = [] ∨ a + v.length ≤ size) : (m.writeBytes a v).Within size := by
  induction v generalizing a with
  | nil => exact h
  | cons b v ih =>
    have hl : a + (v.length + 1) ≤ size := by simpa using ha
    exact Memory.write_within (ih (.inr (by omega))) b (by omega)

/-- The frame of a byte-string write. -/
theorem Memory.read_writeBytes_outside (m : Memory) {a x : Nat} {v : Bytes} (h : x < a ∨ a + v.length ≤ x) :
    (m.writeBytes a v).read x = m.read x := by
  induction v generalizing a with
  | nil => rfl
  | cons b v ih =>
    have hl : x < a ∨ a + (v.length + 1) ≤ x := by simpa using h
    simp only [Memory.writeBytes]
    rw [Memory.read_write_other _ b (by omega), ih (by omega)]

/-- The bytes of a byte-string write. -/
theorem Memory.read_writeBytes_inside {m : Memory} (hm : m.wf) {a i : Nat} {v : Bytes} (h : i < v.length) :
    (m.writeBytes a v).read (a + i) = v[i] := by
  induction v generalizing a i with
  | nil => simp at h
  | cons b v ih =>
    simp only [Memory.writeBytes]
    cases i with
    | zero => simpa using Memory.read_write_same (Memory.writeBytes_wf hm (a + 1) v) a b
    | succ i =>
      have := ih (a := a + 1) (i := i) (by simpa using h)
      rw [Memory.read_write_other _ b (by omega), show a + (i + 1) = a + 1 + i by omega, this]
      rfl

/-- A byte string read back where it was written. -/
theorem Memory.readBytes_writeBytes {m : Memory} (hm : m.wf) (a : Nat) (v : Bytes) :
    (m.writeBytes a v).readBytes a v.length = v := by
  apply List.ext_getElem?
  intro i
  by_cases h : i < v.length
  · rw [Memory.readBytes_getElem? _ _ _ _ h, Memory.read_writeBytes_inside hm h, List.getElem?_eq_getElem h]
  · rw [List.getElem?_eq_none (by simpa using h), List.getElem?_eq_none (by simpa using h)]

/-- A byte string read from elsewhere. -/
theorem Memory.readBytes_writeBytes_apart (m : Memory) {a b n : Nat} {v : Bytes}
    (h : n = 0 ∨ v.length = 0 ∨ b + n ≤ a ∨ a + v.length ≤ b) : (m.writeBytes a v).readBytes b n = m.readBytes b n := by
  rcases Nat.eq_zero_or_pos v.length with hv | hv
  · rw [List.length_eq_zero_iff.1 hv]
    rfl
  · exact Memory.readBytes_congr fun x hx hx' => Memory.read_writeBytes_outside m (by omega)

/-- Reset memory is canonical and inside every buffer memory. -/
theorem reset_mem_wf : State.reset.mem.wf := ⟨List.Pairwise.nil, by simp [State.reset]⟩

/-! ### Free bytes and little-endian values -/

@[simp] theorem freeBytes_length (k n : Nat) : (freeBytes k n).length = n := by
  induction n generalizing k with
  | zero => rfl
  | succ n ih => simp [freeBytes, ih]

theorem littleEndianValue_lt (x : Bytes) : littleEndianValue x < 256 ^ x.length := by
  induction x with
  | nil => simp [littleEndianValue]
  | cons b x ih =>
    have := b.isLt
    simp only [littleEndianValue, List.length_cons, Nat.pow_succ]
    omega

/-- A word of memory is below 2^32. -/
theorem Memory.read32_lt (m : Memory) (a : Nat) : m.read32 a < 2 ^ 32 := by
  have := littleEndianValue_lt (m.readBytes a 4)
  simpa [Memory.read32] using this

@[simp] theorem littleEndianBytes_length (n v : Nat) : (littleEndianBytes n v).length = n := by
  induction n generalizing v with
  | zero => rfl
  | succ n ih => simp [littleEndianBytes, ih]

/-- The bytes of a number give the number back. -/
theorem littleEndianValue_littleEndianBytes (n v : Nat) (h : v < 256 ^ n) :
    littleEndianValue (littleEndianBytes n v) = v := by
  induction n generalizing v with
  | zero =>
    simp at h
    simp [littleEndianBytes, littleEndianValue, h]
  | succ n ih =>
    rw [Nat.pow_succ] at h
    simp only [littleEndianBytes, littleEndianValue, BitVec.toNat_ofNat]
    rw [ih (v / 256) (by omega)]
    omega

end Sys2Proof.Machine
end

