-- ==== Sys2Proof/Laws/Commands.lean ====
section
/-!
SUPPORT. Everything a command can do, said once: it ends in an error completion of its check phase, in success with byte
strings written at the starts of its write regions and inside them, or in an error completion of its execute phase with
its write regions unspecified.  Claims about all commands follow from this by cases on three endings.
-/

namespace Sys2Proof.Machine

/-- Several byte strings written one after another. -/
def applyWrites (m : Memory) (ws : List (Nat × Bytes)) : Memory :=
  ws.foldl (fun m w => m.writeBytes w.1 w.2) m

/-- A byte string that starts where a write region of the row starts and fits in it. -/
abbrev FitsRow (row : CommandRow) (w : Nat × Bytes) : Prop :=
  ∃ r ∈ row.writes, w.1 = r.addr ∧ w.2.length ≤ r.len

/-- What a command may do to the entropy source: nothing to its indication, and nothing at all unless it draws. -/
abbrev EntropyAfter (s : State) (i : Instr) (e : Entropy) : Prop :=
  e.ready = s.entropy.ready ∧ (i ≠ .kgen → i ≠ .vaultSeal → e = s.entropy)

/-- The errors of a check phase, and when they carry a key's number. -/
abbrev CheckError (e : Raise) : Prop :=
  e.code ≠ .success ∧ e.code ≠ .encodeFailed ∧ e.code ≠ .noData ∧ e.code ≠ .randomBytes ∧ e.code ≠ .illegalCommand ∧
    (e.info ≠ 0 → NamesKey e.code)

/-- The errors of an execute phase (R264 step 7). -/
abbrev ExecuteError (i : Instr) (c : ErrCode) : Prop :=
  ((i = .kgen ∨ i = .vaultSeal) ∧ c = .randomBytes) ∨
    (i = .vaultUnseal ∧ (c = .wrongPasswordOrCorrupt ∨ c = .capacityExceeded))

/-- The three ways a command ends. -/
inductive Ending (s : State) (i : Instr) : State → Prop
  | checked (e : Raise) (he : CheckError e) : Ending s i (s.raise e)
  | success (ws : List (Nat × Bytes)) (ent : Entropy) (len count klen : Nat)
      (hr : RegionsOk s (s.latch.row i)) (hw : ∀ w ∈ ws, FitsRow (s.latch.row i) w) (he : EntropyAfter s i ent) :
      Ending s i (({ s with entropy := ent } : State).succeed (applyWrites s.mem ws) len count klen)
  | unspecified (ent : Entropy) (c : ErrCode)
      (hr : RegionsOk s (s.latch.row i)) (he : EntropyAfter s i ent) (hc : ExecuteError i c) :
      Ending s i (({ s with entropy := ent } : State).raiseUnspecified (s.latch.row i) c)

/-- The end of a check-phase command, by cases on what its body answers. -/
theorem ending_conclude {s : State} {i : Instr} {x : Except Raise State} (hok : ∀ t, x = .ok t → Ending s i t)
    (herr : ∀ e, x = .error e → CheckError e) : ∃ t, s.conclude x = .next t ∧ Ending s i t := by
  cases x with
  | ok t => exact ⟨t, rfl, hok t rfl⟩
  | error e => exact ⟨s.raise e, rfl, .checked e (herr e rfl)⟩

/-! ### The checks every command is made of -/

/-- A check's answer keeps to the errors of a check phase. -/
abbrev OnlyCheckErrors {α : Type} (x : Except Raise α) : Prop := ∀ e, x = .error e → CheckError e

theorem onlyCheckErrors_bind {α β : Type} {x : Except Raise α} {f : α → Except Raise β} (hx : OnlyCheckErrors x)
    (hf : ∀ a, x = .ok a → OnlyCheckErrors (f a)) : OnlyCheckErrors (x >>= f) := by
  cases x with
  | ok a => exact hf a rfl
  | error e =>
    intro e' h
    cases h
    exact hx e rfl

theorem onlyCheckErrors_pure {α : Type} (a : α) : OnlyCheckErrors (pure a : Except Raise α) := by
  intro e h
  cases h

theorem onlyCheckErrors_demand (p : Prop) [Decidable p] {c : ErrCode}
    (hc : c ≠ .success ∧ c ≠ .encodeFailed ∧ c ≠ .noData ∧ c ≠ .randomBytes ∧ c ≠ .illegalCommand) :
    OnlyCheckErrors (demand p c) := by
  intro e h
  unfold demand at h
  split at h
  · cases h
  · cases h
    exact ⟨hc.1, hc.2.1, hc.2.2.1, hc.2.2.2.1, hc.2.2.2.2, fun h => absurd rfl h⟩

theorem onlyCheckErrors_checkRegions (size : Nat) (row : CommandRow) : OnlyCheckErrors (checkRegions size row) := by
  intro e h
  obtain ⟨hc, hi⟩ := checkRegions_error h
  rcases hc with hc | hc | hc <;> simp [CheckError, hc, hi]

theorem onlyCheckErrors_keyPhase (s : State) (row : CommandRow) : OnlyCheckErrors (keyPhase s row) := by
  intro e h
  rcases keyPhase_error h with ⟨hc, hi⟩ | hc
  · simp [CheckError, hc, hi]
  · rcases hc with hc | hc | hc | hc | hc <;> simp [CheckError, NamesKey, hc]

/-! ### The meanings -/

theorem keysOk_facts {s : State} {row : CommandRow} {r : KeySet} (h : KeysOk s row r.keys r.len) :
    r.keys ≠ [] ∧ 0 < r.len ∧ (∀ k ∈ r.keys, k.length = r.len) ∧ (firstKey r.keys).length = r.len := by
  obtain ⟨-, ⟨hne, h0, -, hk⟩, -⟩ := h
  refine ⟨hne, Nat.pos_of_ne_zero h0, fun k hkm => (hk k hkm).1, ?_⟩
  cases hks : r.keys with
  | nil => exact absurd hks hne
  | cons k ks => exact (hk k (by simp [hks])).1

@[simp] theorem srcBytes_length (r : Region) (m : Memory) : (r.bytes m).length = r.len := by
  simp [Region.bytes]

/-- FWD and CFWD. -/
theorem forwardCommand_ending {s : State} {i : Instr} {f : Bytes → List Bytes → Bytes}
    (hd : s.latch.dst ∈ (s.latch.row i).writes)
    (hf : ∀ x (r : KeySet), KeysOk s (s.latch.row i) r.keys r.len → (f x r.keys).length = paddedLength x.length r.len) :
    ∃ t, forwardCommand s (s.latch.row i) f = .next t ∧ Ending s i t := by
  refine ending_conclude (fun t h => ?_) ?_
  · obtain ⟨u, hr, h⟩ := bind_eq_ok.1 h
    obtain ⟨ks, hk, h⟩ := bind_eq_ok.1 h
    rw [demand_bind] at h
    split at h
    next hp =>
      cases h
      have hko := (keyPhase_eq_ok_iff _ _ _).1 hk
      exact .success [(s.latch.dst.addr, _)] s.entropy _ _ _ ((checkRegions_eq_ok_iff _ _ _).1 hr)
        (by simpa using ⟨_, hd, rfl, by simpa [hf _ _ hko] using hp⟩) ⟨rfl, fun _ _ => rfl⟩
    next => cases h
  · exact onlyCheckErrors_bind (onlyCheckErrors_checkRegions _ _) fun _ _ =>
      onlyCheckErrors_bind (onlyCheckErrors_keyPhase _ _) fun _ _ =>
        onlyCheckErrors_bind (onlyCheckErrors_demand _ (by decide)) fun _ _ => onlyCheckErrors_pure _

/-- INV and CINV, with and without Z. -/
theorem inverseCommand_ending {s : State} {i : Instr} {f : Bytes → List Bytes → Bytes} (z : Bool)
    (hd : s.latch.dst ∈ (s.latch.row i).writes) (hf : ∀ x ks, (f x ks).length = x.length) :
    ∃ t, inverseCommand s (s.latch.row i) z f = .next t ∧ Ending s i t := by
  refine ending_conclude (fun t h => ?_) ?_
  · obtain ⟨u, hr, h⟩ := bind_eq_ok.1 h
    obtain ⟨ks, hk, h⟩ := bind_eq_ok.1 h
    rw [demand_bind] at h
    split at h
    next =>
      rw [demand_bind] at h
      split at h
      next hp =>
        cases h
        exact .success [(s.latch.dst.addr, _)] s.entropy _ _ _ ((checkRegions_eq_ok_iff _ _ _).1 hr)
          (by simpa using ⟨_, hd, rfl, by simpa [hf] using hp⟩) ⟨rfl, fun _ _ => rfl⟩
      next => cases h
    next => cases h
  · exact onlyCheckErrors_bind (onlyCheckErrors_checkRegions _ _) fun _ _ =>
      onlyCheckErrors_bind (onlyCheckErrors_keyPhase _ _) fun _ _ =>
        onlyCheckErrors_bind (onlyCheckErrors_demand _ (by decide)) fun _ _ =>
          onlyCheckErrors_bind (onlyCheckErrors_demand _ (by decide)) fun _ _ => onlyCheckErrors_pure _

theorem execKchk_ending (s : State) : ∃ t, execKchk s = .next t ∧ Ending s .kchk t := by
  refine ending_conclude (fun t h => ?_) ?_
  · obtain ⟨u, hr, h⟩ := bind_eq_ok.1 h
    obtain ⟨ks, hk, h⟩ := bind_eq_ok.1 h
    cases h
    exact .success [] s.entropy _ _ _ ((checkRegions_eq_ok_iff _ _ _).1 hr) (by simp) ⟨rfl, fun _ _ => rfl⟩
  · exact onlyCheckErrors_bind (onlyCheckErrors_checkRegions _ _) fun _ _ =>
      onlyCheckErrors_bind (onlyCheckErrors_keyPhase _ _) fun _ _ => onlyCheckErrors_pure _

/-- The check phase of KGEN succeeds exactly when the region, the key size and the capacity are in order (R177, R178). -/
theorem planGeneration_eq_ok_iff (s : State) (p : GenerationPlan) :
    planGeneration s = .ok p ↔
      RegionsOk s s.latch.generateRow ∧ (p.bits ≠ 0 ∧ p.bits % 256 = 0) ∧ p.count * (p.bits / 4) ≤ s.latch.dst.len ∧
        p = { bits := s.latch.ops.kgBits.toNat, count := s.latch.ops.kgCount.toNat,
              keyLen := s.latch.ops.kgBits.toNat / 4 } := by
  constructor
  · intro h
    obtain ⟨u, hr, h⟩ := bind_eq_ok.1 h
    simp only [demand_bind] at h
    split at h
    · split at h
      · cases h
        exact ⟨(checkRegions_eq_ok_iff _ _ _).1 hr, by assumption, by assumption, rfl⟩
      · cases h
    · cases h
  · rintro ⟨hr, hb, hc, rfl⟩
    simp only [planGeneration, checkRegions_ok hr, ok_bind, demand_bind]
    rw [if_pos hb, if_pos hc]
    rfl

theorem execKgen_ending (s : State) : ∃ t, execKgen s = .next t ∧ Ending s .kgen t := by
  refine ending_conclude (fun t h => ?_) ?_
  · obtain ⟨p, hp, h⟩ := bind_eq_ok.1 h
    cases h
    obtain ⟨hr, hb, hc, rfl⟩ := (planGeneration_eq_ok_iff s p).1 hp
    have hready := deriveKeys_ready s.latch.ops.kgBits.toNat s.latch.ops.kgCount.toNat s.entropy
    unfold generate
    cases hd : deriveKeys s.latch.ops.kgBits.toNat s.latch.ops.kgCount.toNat s.entropy with
    | mk o e =>
      rw [hd] at hready
      cases o with
      | none => exact .unspecified e .randomBytes hr ⟨hready, fun h => absurd rfl h⟩ (.inl ⟨.inl rfl, rfl⟩)
      | some keys =>
        refine .success [(s.latch.dst.addr, keys)] e _ _ _ hr ?_ ⟨hready, fun h => absurd rfl h⟩
        have hl := deriveKeys_length hb.2 hd
        simpa using ⟨s.latch.dst, by simp [Latch.row, Latch.generateRow], rfl, by rw [hl]; exact hc⟩
  · exact onlyCheckErrors_bind
      (onlyCheckErrors_bind (onlyCheckErrors_checkRegions _ _) fun _ _ =>
        onlyCheckErrors_bind (onlyCheckErrors_demand _ (by decide)) fun _ _ =>
          onlyCheckErrors_bind (onlyCheckErrors_demand _ (by decide)) fun _ _ => onlyCheckErrors_pure _)
      fun _ _ => onlyCheckErrors_pure _

/-- The check phase of SEAL succeeds exactly when regions, keys and both capacities are in order (R206). -/
theorem planSeal_eq_ok_iff (s : State) (p : SealPlan) :
    planSeal s = .ok p ↔
      RegionsOk s s.latch.sealRow ∧ KeysOk s s.latch.sealRow p.keySet.keys p.keySet.len ∧
        p.sealedLen = paddedLength (blobLength p.keySet.len s.latch.sealRow.keyCount) passKeyLength ∧
        p.sealedLen ≤ s.latch.scr.len ∧ p.textLen = base64Length p.sealedLen ∧ p.textLen ≤ s.latch.dst.len := by
  constructor
  · intro h
    obtain ⟨u, hr, h⟩ := bind_eq_ok.1 h
    obtain ⟨ks, hk, h⟩ := bind_eq_ok.1 h
    simp only [demand_bind] at h
    split at h
    · split at h
      · cases h
        exact ⟨(checkRegions_eq_ok_iff _ _ _).1 hr, (keyPhase_eq_ok_iff _ _ _).1 hk, rfl, by assumption, rfl,
          by assumption⟩
      · cases h
    · cases h
  · obtain ⟨⟨len, keys⟩, sealedLen, textLen⟩ := p
    rintro ⟨hr, hk, he, hs, hl, ht⟩
    dsimp only at hk he hs hl ht
    subst he
    subst hl
    simp only [planSeal, checkRegions_ok hr, keyPhase_ok hk, ok_bind, demand_bind]
    rw [if_pos hs, if_pos ht]
    rfl

theorem execSeal_ending (s : State) : ∃ t, execSeal s = .next t ∧ Ending s .vaultSeal t := by
  refine ending_conclude (fun t h => ?_) ?_
  · obtain ⟨p, hp, h⟩ := bind_eq_ok.1 h
    cases h
    obtain ⟨hr, hk, hs, hsc, ht, hdc⟩ := (planSeal_eq_ok_iff s p).1 hp
    obtain ⟨-, -, hlen, -⟩ := keysOk_facts hk
    have hready := Entropy.draw_ready (p.keySet.len / 2) s.entropy
    unfold sealVault
    cases hd : s.entropy.draw (p.keySet.len / 2) with
    | mk o e =>
      rw [hd] at hready
      cases o with
      | none => exact .unspecified e .randomBytes hr ⟨hready, fun _ h => absurd rfl h⟩ (.inl ⟨.inr rfl, rfl⟩)
      | some salt =>
        have hx : (sealRounds (vaultBlob salt p.keySet.keys) (passKey (s.latch.pwd.bytes s.mem))).length
            = p.sealedLen := by
          rw [sealRounds_length (by simp [passKeyLength]), vaultBlob_length (Entropy.draw_length hd) hlen, passKey_length,
            hs, hk.1]
        refine .success
          [(s.latch.scr.addr, sealRounds (vaultBlob salt p.keySet.keys) (passKey (s.latch.pwd.bytes s.mem))),
            (s.latch.dst.addr,
              base64Encode (sealRounds (vaultBlob salt p.keySet.keys) (passKey (s.latch.pwd.bytes s.mem))))]
          e _ _ _ hr ?_ ⟨hready, fun _ h => absurd rfl h⟩
        intro w hw
        simp only [List.mem_cons, List.not_mem_nil, or_false] at hw
        rcases hw with rfl | rfl
        · exact ⟨s.latch.scr, by simp [Latch.row, Latch.sealRow], rfl, by rw [hx]; exact hsc⟩
        · exact ⟨s.latch.dst, by simp [Latch.row, Latch.sealRow], rfl, by
            rw [base64Encode_length, hx, ← ht]; exact hdc⟩
  · exact onlyCheckErrors_bind
      (onlyCheckErrors_bind (onlyCheckErrors_checkRegions _ _) fun _ _ =>
        onlyCheckErrors_bind (onlyCheckErrors_keyPhase _ _) fun _ _ =>
          onlyCheckErrors_bind (onlyCheckErrors_demand _ (by decide)) fun _ _ =>
            onlyCheckErrors_bind (onlyCheckErrors_demand _ (by decide)) fun _ _ => onlyCheckErrors_pure _)
      fun _ _ => onlyCheckErrors_pure _

theorem execUnseal_ending (s : State) : ∃ t, execUnseal s = .next t ∧ Ending s .vaultUnseal t := by
  refine ending_conclude (fun t h => ?_) ?_
  · obtain ⟨u, hr, h⟩ := bind_eq_ok.1 h
    simp only [demand_bind] at h
    split at h
    · split at h
      next hcap =>
        split at h
        · cases h
          have hr' := (checkRegions_eq_ok_iff _ _ _).1 hr
          unfold unsealVault
          simp only
          split
          · exact .unspecified s.entropy .wrongPasswordOrCorrupt hr' ⟨rfl, fun _ _ => rfl⟩ (.inr ⟨rfl, .inl rfl⟩)
          next ks hv =>
            obtain ⟨⟨-, -, -, hk⟩, -⟩ := (validateKeys_eq_ok_iff _ _).1 hv
            split
            next hdc =>
              refine .success
                [(s.latch.scr.addr,
                    unsealRounds (base64Decode (s.latch.src.bytes s.mem)) (passKey (s.latch.pwd.bytes s.mem))),
                  (s.latch.dst.addr, ks.keys.flatten)]
                s.entropy _ _ _ hr' ?_ ⟨rfl, fun _ _ => rfl⟩
              intro w hw
              simp only [List.mem_cons, List.not_mem_nil, or_false] at hw
              rcases hw with rfl | rfl
              · exact ⟨s.latch.scr, by simp [Latch.row, Latch.unsealRow], rfl, by simpa using hcap⟩
              · refine ⟨s.latch.dst, by simp [Latch.row, Latch.unsealRow], rfl, ?_⟩
                rw [flatten_length (len := ks.len) fun k hkm => ?_]
                · exact hdc
                · have := (validateKeys_eq_ok_iff _ _).1 hv
                  exact (this.1.2.2.2 k (this.2 ▸ hkm)).1
            next => exact .unspecified s.entropy .capacityExceeded hr' ⟨rfl, fun _ _ => rfl⟩ (.inr ⟨rfl, .inr rfl⟩)
        · cases h
      · cases h
    · cases h
  · exact onlyCheckErrors_bind (onlyCheckErrors_checkRegions _ _) fun _ _ =>
      onlyCheckErrors_bind (onlyCheckErrors_demand _ (by decide)) fun _ _ =>
        onlyCheckErrors_bind (onlyCheckErrors_demand _ (by decide)) fun _ _ =>
          onlyCheckErrors_bind (onlyCheckErrors_demand _ (by decide)) fun _ _ => onlyCheckErrors_pure _

theorem execB64e_ending (s : State) : ∃ t, execB64e s = .next t ∧ Ending s .b64e t := by
  refine ending_conclude (fun t h => ?_) ?_
  · obtain ⟨u, hr, h⟩ := bind_eq_ok.1 h
    simp only [demand_bind] at h
    split at h
    next hp =>
      cases h
      exact .success [(s.latch.dst.addr, _)] s.entropy _ _ _ ((checkRegions_eq_ok_iff _ _ _).1 hr)
        (by simpa using ⟨s.latch.dst, by simp [Latch.row, Latch.base64Row], rfl, by simpa using hp⟩)
        ⟨rfl, fun _ _ => rfl⟩
    next => cases h
  · exact onlyCheckErrors_bind (onlyCheckErrors_checkRegions _ _) fun _ _ =>
      onlyCheckErrors_bind (onlyCheckErrors_demand _ (by decide)) fun _ _ => onlyCheckErrors_pure _

theorem execB64d_ending (s : State) : ∃ t, execB64d s = .next t ∧ Ending s .b64d t := by
  refine ending_conclude (fun t h => ?_) ?_
  · obtain ⟨u, hr, h⟩ := bind_eq_ok.1 h
    simp only [demand_bind] at h
    split at h
    · split at h
      next hp =>
        cases h
        exact .success [(s.latch.dst.addr, _)] s.entropy _ _ _ ((checkRegions_eq_ok_iff _ _ _).1 hr)
          (by simpa using ⟨s.latch.dst, by simp [Latch.row, Latch.base64Row], rfl, hp⟩) ⟨rfl, fun _ _ => rfl⟩
      next => cases h
    next => cases h
  · exact onlyCheckErrors_bind (onlyCheckErrors_checkRegions _ _) fun _ _ =>
      onlyCheckErrors_bind (onlyCheckErrors_demand _ (by decide)) fun _ _ =>
        onlyCheckErrors_bind (onlyCheckErrors_demand _ (by decide)) fun _ _ => onlyCheckErrors_pure _

theorem execEnc_ending (s : State) : ∃ t, execEnc s = .next t ∧ Ending s .enc t := by
  refine ending_conclude (fun t h => ?_) ?_
  · obtain ⟨u, hr, h⟩ := bind_eq_ok.1 h
    obtain ⟨ks, hk, h⟩ := bind_eq_ok.1 h
    simp only [demand_bind] at h
    split at h
    next hsc =>
      split at h
      next hdc =>
        cases h
        obtain ⟨hne, h0, hlen, -⟩ := keysOk_facts ((keyPhase_eq_ok_iff _ _ _).1 hk)
        have hx := cascadeForward_length (s.latch.src.bytes s.mem) hne h0 hlen
        rw [srcBytes_length] at hx
        refine .success
          [(s.latch.scr.addr, cascadeForward (s.latch.src.bytes s.mem) ks.keys),
            (s.latch.dst.addr, base64Encode (cascadeForward (s.latch.src.bytes s.mem) ks.keys))]
          s.entropy _ _ _ ((checkRegions_eq_ok_iff _ _ _).1 hr) ?_ ⟨rfl, fun _ _ => rfl⟩
        intro w hw
        simp only [List.mem_cons, List.not_mem_nil, or_false] at hw
        rcases hw with rfl | rfl
        · exact ⟨s.latch.scr, by simp [Latch.row, Latch.artifactRow], rfl, by rw [hx]; exact hsc⟩
        · exact ⟨s.latch.dst, by simp [Latch.row, Latch.artifactRow], rfl, by rw [base64Encode_length, hx]; exact hdc⟩
      next => cases h
    next => cases h
  · exact onlyCheckErrors_bind (onlyCheckErrors_checkRegions _ _) fun _ _ =>
      onlyCheckErrors_bind (onlyCheckErrors_keyPhase _ _) fun _ _ =>
        onlyCheckErrors_bind (onlyCheckErrors_demand _ (by decide)) fun _ _ =>
          onlyCheckErrors_bind (onlyCheckErrors_demand _ (by decide)) fun _ _ => onlyCheckErrors_pure _

theorem execDec_ending (s : State) : ∃ t, execDec s = .next t ∧ Ending s .dec t := by
  refine ending_conclude (fun t h => ?_) ?_
  · obtain ⟨u, hr, h⟩ := bind_eq_ok.1 h
    obtain ⟨ks, hk, h⟩ := bind_eq_ok.1 h
    simp only [demand_bind] at h
    split at h
    · split at h
      next hsc =>
        split at h
        · split at h
          next hdc =>
            cases h
            refine .success
              [(s.latch.scr.addr, base64Decode (s.latch.src.bytes s.mem)),
                (s.latch.dst.addr, cascadeInverse (base64Decode (s.latch.src.bytes s.mem)) ks.keys)]
              s.entropy _ _ _ ((checkRegions_eq_ok_iff _ _ _).1 hr) ?_ ⟨rfl, fun _ _ => rfl⟩
            intro w hw
            simp only [List.mem_cons, List.not_mem_nil, or_false] at hw
            rcases hw with rfl | rfl
            · exact ⟨s.latch.scr, by simp [Latch.row, Latch.artifactRow], rfl, hsc⟩
            · exact ⟨s.latch.dst, by simp [Latch.row, Latch.artifactRow], rfl, by
                rw [cascadeInverse_length]; exact hdc⟩
          next => cases h
        · cases h
      · cases h
    · cases h
  · exact onlyCheckErrors_bind (onlyCheckErrors_checkRegions _ _) fun _ _ =>
      onlyCheckErrors_bind (onlyCheckErrors_keyPhase _ _) fun _ _ =>
        onlyCheckErrors_bind (onlyCheckErrors_demand _ (by decide)) fun _ _ =>
          onlyCheckErrors_bind (onlyCheckErrors_demand _ (by decide)) fun _ _ =>
            onlyCheckErrors_bind (onlyCheckErrors_demand _ (by decide)) fun _ _ =>
              onlyCheckErrors_bind (onlyCheckErrors_demand _ (by decide)) fun _ _ => onlyCheckErrors_pure _

/-- Every command completes, in one of the three endings. -/
theorem exec_ending (i : Instr) (s : State) : ∃ t, exec i s = .next t ∧ Ending s i t := by
  have hone : ∀ x (r : KeySet), KeysOk s s.latch.singleKeyRow r.keys r.len →
      (forward x (firstKey r.keys)).length = paddedLength x.length r.len := fun x r h => by
    obtain ⟨-, h0, -, hl⟩ := keysOk_facts h
    rw [forward_length x (by omega), hl]
  have hall : ∀ x (r : KeySet), KeysOk s s.latch.cascadeRow r.keys r.len →
      (cascadeForward x r.keys).length = paddedLength x.length r.len := fun x r h => by
    obtain ⟨hne, h0, hk, -⟩ := keysOk_facts h
    exact cascadeForward_length x hne h0 hk
  cases i with
  | fwd =>
    exact forwardCommand_ending (s := s) (i := .fwd) (f := fun x ks => forward x (firstKey ks))
      (by simp [Latch.row, Latch.singleKeyRow]) hone
  | cfwd =>
    exact forwardCommand_ending (s := s) (i := .cfwd) (f := cascadeForward)
      (by simp [Latch.row, Latch.cascadeRow]) hall
  | inv =>
    exact inverseCommand_ending (s := s) (i := .inv) (f := fun x ks => inverse x (firstKey ks)) false
      (by simp [Latch.row, Latch.singleKeyRow])
      fun x _ => inverse_length x _
  | invZ =>
    exact inverseCommand_ending (s := s) (i := .invZ) (f := fun x ks => inverse x (firstKey ks)) true
      (by simp [Latch.row, Latch.singleKeyRow])
      fun x _ => inverse_length x _
  | cinv =>
    exact inverseCommand_ending (s := s) (i := .cinv) (f := cascadeInverse) false
      (by simp [Latch.row, Latch.cascadeRow])
      fun x ks => cascadeInverse_length ks x
  | cinvZ =>
    exact inverseCommand_ending (s := s) (i := .cinvZ) (f := cascadeInverse) true
      (by simp [Latch.row, Latch.cascadeRow])
      fun x ks => cascadeInverse_length ks x
  | kchk => exact execKchk_ending s
  | kgen => exact execKgen_ending s
  | vaultSeal => exact execSeal_ending s
  | vaultUnseal => exact execUnseal_ending s
  | b64e => exact execB64e_ending s
  | b64d => exact execB64d_ending s
  | enc => exact execEnc_ending s
  | dec => exact execDec_ending s

/-- Whatever a command answers is one of the three endings. -/
theorem ending_of_exec {i : Instr} {s t : State} (h : exec i s = .next t) : Ending s i t := by
  obtain ⟨u, hu, he⟩ := exec_ending i s
  rw [hu] at h
  cases h
  exact he

/-! ### Memory after several writes -/

theorem applyWrites_wf {m : Memory} (h : m.wf) (ws : List (Nat × Bytes)) : (applyWrites m ws).wf := by
  induction ws generalizing m with
  | nil => exact h
  | cons w ws ih => exact ih (Memory.writeBytes_wf h _ _)

theorem applyWrites_within {m : Memory} {size : Nat} (h : m.Within size) {ws : List (Nat × Bytes)}
    (hw : ∀ w ∈ ws, w.2 = [] ∨ w.1 + w.2.length ≤ size) : (applyWrites m ws).Within size := by
  induction ws generalizing m with
  | nil => exact h
  | cons w ws ih =>
    exact ih (Memory.writeBytes_within h (hw w (by simp))) fun v hv => hw v (by simp [hv])

theorem read_applyWrites_outside {m : Memory} {a : Nat} {ws : List (Nat × Bytes)}
    (h : ∀ w ∈ ws, a < w.1 ∨ w.1 + w.2.length ≤ a) : (applyWrites m ws).read a = m.read a := by
  induction ws generalizing m with
  | nil => rfl
  | cons w ws ih =>
    exact (ih fun v hv => h v (by simp [hv])).trans (Memory.read_writeBytes_outside m (h w (by simp)))

/-- Unspecified regions: only their own bytes change, and memory stays canonical. -/
theorem scramble_mem_read {s : State} {rs : List Region} {a : Nat} (h : ∀ r ∈ rs, ¬ r.Covers a) :
    (s.scramble rs).mem.read a = s.mem.read a := by
  induction rs generalizing s with
  | nil => rfl
  | cons r rs ih =>
    rw [State.scramble_cons, ih fun q hq => h q (by simp [hq]), State.scrambleRegion_mem]
    have hr := h r (by simp)
    refine Memory.read_writeBytes_outside s.mem ?_
    simp only [freeBytes_length, Region.lengthInside]
    omega

theorem scramble_mem_wf {s : State} (h : s.mem.wf) (rs : List Region) : (s.scramble rs).mem.wf := by
  induction rs generalizing s with
  | nil => exact h
  | cons r rs ih => exact ih (Memory.writeBytes_wf h _ _)

theorem scramble_mem_within {s : State} (h : s.mem.Within s.params.bufSize) (rs : List Region) :
    (s.scramble rs).mem.Within s.params.bufSize := by
  induction rs generalizing s with
  | nil => exact h
  | cons r rs ih =>
    refine ih (s := s.scrambleRegion r) (Memory.writeBytes_within h ?_)
    rw [State.scrambleRegion_params]
    simp only [freeBytes_length, Region.lengthInside]
    by_cases hz : min r.len (s.params.bufSize - r.addr) = 0
    · left
      exact List.length_eq_zero_iff.1 (by rw [freeBytes_length, hz])
    · right
      omega

end Sys2Proof.Machine
end

