-- ==== Sys2Proof/Laws/HostProgram.lean ====
section
/-!
SUPPORT. The end of a run, said once: what the end state is, and how a run reaches it.
-/

namespace Sys2Proof.Machine

/-- What a running command writes, or nothing. -/
theorem busyWrites_of_idle {s : State} (h : s.busy = false) : s.busyWrites = [] := by
  simp [State.busyWrites, h]

theorem busyWrites_of_running {s : State} {i : Instr} (h : s.busy = true) (hd : decode s.latch.cmd = .ok i) :
    s.busyWrites = (s.latch.row i).writes := by
  simp [State.busyWrites, h, hd]

theorem busyWrites_of_illegal {s : State} {e : IllegalWord} (hd : decode s.latch.cmd = .error e) : s.busyWrites = [] := by
  simp [State.busyWrites, hd]

/-- The end state differs from the state the run ends in by memory and the count of free values only. -/
theorem endState_eq (s : State) : ∃ f : Nat, s.endState = { s with mem := s.endState.mem, freeUsed := f } := by
  suffices h : ∀ (rs : List Region) (u : State), ∃ f : Nat, u.scramble rs = { u with mem := (u.scramble rs).mem, freeUsed := f } from
    h s.busyWrites s
  intro rs
  induction rs with
  | nil => exact fun u => ⟨u.freeUsed, rfl⟩
  | cons r rs ih =>
    intro u
    obtain ⟨f, hf⟩ := ih (u.scrambleRegion r)
    exact ⟨f, by rw [State.scramble_cons]; exact hf⟩

/-- A run that has ended is at its end state, however much fuel is left. -/
theorem runToEnd_ended {s : State} (h : s.Ended) (fuel : Nat) : runToEnd fuel s = some (.next s.endState) := by
  cases fuel <;> exact if_pos h

/-- A run that has not ended goes on with the next step. -/
theorem runToEnd_step {s t : State} (h : ¬ s.Ended) (hs : step s = .next t) (fuel : Nat) :
    runToEnd (fuel + 1) s = runToEnd fuel t := by
  rw [runToEnd, if_neg h, hs]

end Sys2Proof.Machine
end

