-- ==== Sys2Proof/Laws/PerInstr.lean ====
section
/-!
SUPPORT. What holds of every command as syntax, one lemma a constructor: its word is legal (30_encoding.md R103) and the
decoder, on the word and on the word's bytes, gives the command back (R101).
-/

namespace Sys2Proof.Laws.Encoding

/-- The word of a command is legal and decodes to the command. -/
def Statement (i : Instr) : Prop :=
  (fieldsOf (encode i)).Legal ∧ decode (encode i) = .ok i ∧ decodeTableWord 32 (encode i).toNat = some i

theorem fwd : Statement .fwd := ⟨by decide, by rfl, by rfl⟩
theorem inv : Statement .inv := ⟨by decide, by rfl, by rfl⟩
theorem invZ : Statement .invZ := ⟨by decide, by rfl, by rfl⟩
theorem cfwd : Statement .cfwd := ⟨by decide, by rfl, by rfl⟩
theorem cinv : Statement .cinv := ⟨by decide, by rfl, by rfl⟩
theorem cinvZ : Statement .cinvZ := ⟨by decide, by rfl, by rfl⟩
theorem kchk : Statement .kchk := ⟨by decide, by rfl, by rfl⟩
theorem kgen : Statement .kgen := ⟨by decide, by rfl, by rfl⟩
theorem vaultSeal : Statement .vaultSeal := ⟨by decide, by rfl, by rfl⟩
theorem vaultUnseal : Statement .vaultUnseal := ⟨by decide, by rfl, by rfl⟩
theorem b64e : Statement .b64e := ⟨by decide, by rfl, by rfl⟩
theorem b64d : Statement .b64d := ⟨by decide, by rfl, by rfl⟩
theorem enc : Statement .enc := ⟨by decide, by rfl, by rfl⟩
theorem dec : Statement .dec := ⟨by decide, by rfl, by rfl⟩

end Sys2Proof.Laws.Encoding
end

