-- ==== Sys2Proof/Laws/Step.lean ====
section
/-!
SUPPORT. Everything a step can do, said once: which agent moves, what a host turn is, and what each input can leave.
-/

namespace Sys2Proof.Machine

/-- The host's turn begins in `u`: the engine is idle and nothing has happened yet, or a running command's latency has
gone down by one. -/
inductive HostTurn (s : State) : State → Prop
  | idle (h : s.sequencer = none) : HostTurn s s
  | busy (q : Sequencer) (n : Nat) (h : s.sequencer = some q) (hw : q.wait = n + 1) :
      HostTurn s { s with sequencer := some { q with wait := n } }

/-- A step is the engine completing its command, or a host turn. -/
theorem step_cases {s : State} {o : Host.Outcome State Fault Refusal} (h : step s = o) :
    (∃ q, s.sequencer = some q ∧ q.wait = 0 ∧ runLatched s = o) ∨ ∃ u, HostTurn s u ∧ serveHost u = o := by
  unfold step tick at h
  cases hs : s.sequencer with
  | none =>
    rw [hs] at h
    exact .inr ⟨s, .idle hs, h⟩
  | some q =>
    rw [hs] at h
    cases hw : q.wait with
    | zero =>
      simp only [hw] at h
      exact .inl ⟨q, rfl, hw, h⟩
    | succ n =>
      simp only [hw] at h
      exact .inr ⟨_, .busy q n hs hw, h⟩

/-- Running the latched word is running the command it decodes to, or the `IllegalCommand` completion. -/
theorem runLatched_cases {s t : State} (h : runLatched s = .next t) :
    (∃ i, decode s.latch.cmd = .ok i ∧ exec i s = .next t) ∨
      ∃ e, decode s.latch.cmd = .error e ∧ t = s.raise { code := .illegalCommand } := by
  unfold runLatched at h
  cases hd : decode s.latch.cmd with
  | ok i =>
    rw [hd] at h
    exact .inl ⟨i, rfl, h⟩
  | error e =>
    rw [hd] at h
    cases h
    exact .inr ⟨e, rfl, rfl⟩

/-- A host turn leaves the state as it is, or takes up one input. -/
theorem serveHost_cases {u : State} {o : Host.Outcome State Fault Refusal} (h : serveHost u = o) :
    o = .next u ∨ ∃ x rest, u.host.pending = x :: rest ∧ u.popInput.applyInput x = o := by
  unfold serveHost at h
  cases hp : u.host.pending with
  | nil =>
    rw [hp] at h
    exact .inl h.symm
  | cons x rest =>
    rw [hp] at h
    simp only at h
    split at h
    · exact .inl h.symm
    · exact .inr ⟨x, rest, rfl, h⟩

/-- A buffer access lies in buffer memory whole (R72). -/
theorem busTarget_buffer {p : Params} {w : Width} {addr off : Nat} (h : busTarget p w addr = .buffer off) :
    off + w.bytes ≤ p.bufSize := by
  unfold busTarget at h
  split at h
  · split at h <;> cases h
  · split at h
    · cases h
      omega
    · cases h

/-- What one input can leave, when it leaves a next state. -/
inductive InputEffect (u : State) : State → Prop
  /-- Nothing: a poll that found the engine idle, or an idle tick. -/
  | nothing : InputEffect u u
  /-- A register read. -/
  | delivered (v : Word) : InputEffect u (u.deliver v)
  /-- A buffer read: free values may have been used. -/
  | read (k : Nat) (v : Word) : InputEffect u (({ u with freeUsed := u.freeUsed + k } : State).deliver v)
  /-- A register write. -/
  | register (r : Reg) (v : Word) : InputEffect u (u.writeReg r v)
  /-- A buffer write, inside buffer memory and clear of the running command's regions. -/
  | written (off : Nat) (v : Bytes) (hin : off + v.length ≤ u.params.bufSize)
      (hclear : ¬ Touches u.busyRegions off v.length) :
      InputEffect u { u with mem := u.mem.writeBytes off v }
  /-- The reset input. -/
  | reset : InputEffect u u.resetInput
  /-- A change of the entropy source's indication. -/
  | entropy (b : Bool) : InputEffect u { u with entropy := { u.entropy with ready := b } }

theorem applyInput_effect {u t : State} {x : Input} (h : u.applyInput x = .next t) : InputEffect u t := by
  cases x with
  | read w addr =>
    unfold State.applyInput State.hostRead at h
    simp only at h
    split at h <;> cases h
    · exact .delivered _
    · exact .read _ _
  | write w addr v =>
    unfold State.applyInput State.hostWrite at h
    simp only at h
    split at h
    · cases h
      exact .register _ _
    next off hb =>
      unfold State.writeBuffer at h
      split at h
      · cases h
      next hc =>
        cases h
        exact .written off _ (by simpa using busTarget_buffer hb) (by simpa using hc)
    · cases h
    · cases h
  | waitDone =>
    cases h
    exact .nothing
  | idle =>
    cases h
    exact .nothing
  | reset =>
    cases h
    exact .reset
  | entropyReady b =>
    cases h
    exact .entropy b

end Sys2Proof.Machine
end

