-- ==== Sys2Proof/Tests/Slice0.lean ====
section
/-!
SUPPORT. Tests of the model, and for each obligation with hypotheses a witness that meets them all.
Expected values are the vectors of spec 95_test_vectors.md, named in each comment, or are worked out by hand from a rule.
-/

namespace Sys2Proof.Tests

open Sys2Proof Sys2Proof.Machine

set_option Elab.async false

/-! ### Data -/

/-- The state an outcome carries; the reset state beside a stop. -/
def landed : Host.Outcome State Fault Refusal → State
  | .next t => t
  | _ => State.reset

/-- The outcome is a next state. -/
def goesOn : Host.Outcome State Fault Refusal → Bool
  | .next _ => true
  | _ => false

theorem eq_next_landed {o : Host.Outcome State Fault Refusal} (h : goesOn o = true) : o = .next (landed o) := by
  cases o <;> simp_all [goesOn, landed]

/-- K1 and K2 of 95_test_vectors.md. -/
def k1 : Bytes := (List.replicate 4 [0x30, 0x31, 0x32, 0x33, 0x34, 0x35, 0x36, 0x37, 0x38, 0x39, 0x61, 0x62, 0x63, 0x64, 0x65, 0x66]).flatten
def k2 : Bytes := k1.reverse

/-- S44, the scenario text. -/
def text44 : Bytes := bigEndianBytes 44 0x546869732069732061207465737420737472696e672e0a49742077696c6c20626520656e637279707465642e

/-- The vectors V2, V5, V6 and V12. -/
def v2 : Bytes := bigEndianBytes 64 0x71313233343536373839616263646566303132333435363738396162636465663031323334353637383961626364656630313233343536373839616263646566
def v5 : Bytes := bigEndianBytes 64 0x64595b40145c4517591915071010451544435b5d531b3c7e4c19160b0f0845045511575d57474f474c5c054c6364656630313233343536373839616263646566
def v6 : Bytes := bigEndianBytes 128 0x7170737275747776797820232225242771707372757477767978202322252427717073727574777679782023222524277170737275747776797820232225242730707372757477767978202322252427717073727574777679782023222524277170737275747776797820232225242771707372757477767978202322252427
def v12 : Bytes := bigEndianBytes 64 0x023c3f23763d7c2f6e2f20332322742522263f3e317a05467b2f233f3c3a74343374333e3526767f7b6a3078505654565654565056540f0f0f0f545650565456

/-- The text of E-1, and SCR, DST and the padded blob of W-1 and W-2. -/
def artifact : Bytes := bigEndianBytes 88 0x5a466c62514252635252645a47525548454242464655524457313154477a782b54426b5743773849525152564556646456306450523078634255786a5a47566d4d4445794d7a51314e6a63344f5746695932526c5a673d3d
def sealedBytes : Bytes := bigEndianBytes 128 0x73742028272922292622277575777521212126757529732374297725277723236e040502570056030e0d00585056070752090001065557550e5b5d035252015d5209070352550105535c0905060152000305080b04015054010c00535a53005c003e343038383834306166333734353138323861363431326239623537346663
def vaultText : Bytes := bigEndianBytes 172 0x633351674b43637049696b6d4969643164586431495345684a6e56314b584d6a64436c334a53643349794e7542415543567742574177344e414668515667634855676b4141515a565631554f57313044556c49425856494a42774e53565145465531774a42515942556741444251674c424146515641454d41464e6155774263414434304d4467344f4451775957597a4e7a51314d5467794f4745324e444579596a6c694e5463305a6d4d3d
def paddedBlob : Bytes := bigEndianBytes 128 0x11111111111111111111111111111111111111111111111111111111111111110a303132333435363738396162636465663031323334353637383961626364656630313233343536373839616263646566303132333435363738396162636465660a000000000000000000000000000000000000000000000000000000000000

/-- The keys of G-1 and G-2. -/
def key256 : Bytes := bigEndianBytes 64 0x36363638376161646638363262643737366338666331386238653966386532303038393731343835366565323333623339303261353931643064356632393235
def key512 : Bytes := bigEndianBytes 128 0x3762653966646134386634313739653631316336393861373363666630396661663732383639343331656665653665616164313464653063623434626266363635303366373532623761386562313730383333353566336365366562376432383036663233366232356166393661323465323262383837343035633230303831

/-- The memory cells of a byte string at an address. -/
def cells (a : Nat) : Bytes → Memory
  | [] => []
  | b :: bs => if b = 0 then cells (a + 1) bs else (a, b) :: cells (a + 1) bs

/-- Descriptors of the keys at 0x400 and 0x440. -/
def table2 : Bytes := [0x00, 0x04, 0, 0, 0x40, 0, 0, 0, 0x40, 0x04, 0, 0, 0x40, 0, 0, 0]

/-- Operands: DST at 0x000, SCR at 0x180, the table at 0x300, the password at 0x340, SRC at 0x500. -/
def opsFor (srcLen dstCap keyCount : Word) : Operands :=
  { srcAddr := 0x500, srcLen := srcLen, dstAddr := 0x000, dstCap := dstCap, scrAddr := 0x180, scrCap := 256
    keytabAddr := 0x300, keyCount := keyCount, pwdAddr := 0x340, pwdLen := 2, kgBits := 256, kgCount := 1 }

/-- A state about to run a command on the given operands: keys `ka` and `kb` in the table, `src` at SRC, "pw" as the
password, and the given answers of the entropy source. -/
def demoKeys (ka kb : Bytes) (ops : Operands) (src : Bytes) (answers : List (Option Byte)) : State :=
  { State.reset with
    ops := ops
    latch := { cmd := 0x00000001, ops := ops }
    sequencer := some (Sequencer.start 0)
    mem := cells 0x300 table2 ++ cells 0x340 [0x70, 0x77] ++ cells 0x400 ka ++ cells 0x440 kb ++ cells 0x500 src
    entropy := { ready := true, answers := answers, drawn := 0 } }

def demo (ops : Operands) (src : Bytes) (answers : List (Option Byte)) : State := demoKeys k1 k2 ops src answers

/-- The report of a state: ERR, RESULT_LEN, RESULT_COUNT, RESULT_KLEN, ERR_INFO. -/
def report (s : State) : ErrCode × Nat × Nat × Nat × Nat :=
  (s.err, s.resultLen.toNat, s.resultCount.toNat, s.resultKlen.toNat, s.errInfo.toNat)

/-! ### WellFormed: one ill-formed word for each check (P-1 to P-5) -/

theorem test_wf_reserved_bit : ¬ (fieldsOf 0x00000203).ReservedClear := by decide
theorem test_wf_top_bit : ¬ (fieldsOf 0x80000001).ReservedClear := by decide
theorem test_wf_op_zero : ¬ (fieldsOf 0x00000000).OpKnown := by decide
theorem test_wf_op_high : ¬ (fieldsOf 0x0000000D).OpKnown := by decide
theorem test_wf_depad : ¬ (fieldsOf 0x00000101).DepadAllowed := by decide
theorem test_wf_legal : (fieldsOf 0x00000104).Legal := by decide

/-! ### Decoding: words written out as the fields of R100, `RSV` (23 bits), `Z`, `OP` (8 bits) -/

theorem test_decode_fwd : decode (0b00000000000000000000000_0_00000001#32) = .ok .fwd := by rfl
theorem test_decode_inv : decode (0b00000000000000000000000_0_00000010#32) = .ok .inv := by rfl
theorem test_decode_invZ : decode (0b00000000000000000000000_1_00000010#32) = .ok .invZ := by rfl
theorem test_decode_cfwd : decode (0b00000000000000000000000_0_00000011#32) = .ok .cfwd := by rfl
theorem test_decode_cinv : decode (0b00000000000000000000000_0_00000100#32) = .ok .cinv := by rfl
theorem test_decode_cinvZ : decode (0b00000000000000000000000_1_00000100#32) = .ok .cinvZ := by rfl
theorem test_decode_kchk : decode (0b00000000000000000000000_0_00000101#32) = .ok .kchk := by rfl
theorem test_decode_kgen : decode (0b00000000000000000000000_0_00000110#32) = .ok .kgen := by rfl
theorem test_decode_seal : decode (0b00000000000000000000000_0_00000111#32) = .ok .vaultSeal := by rfl
theorem test_decode_unseal : decode (0b00000000000000000000000_0_00001000#32) = .ok .vaultUnseal := by rfl
theorem test_decode_b64e : decode (0b00000000000000000000000_0_00001001#32) = .ok .b64e := by rfl
theorem test_decode_b64d : decode (0b00000000000000000000000_0_00001010#32) = .ok .b64d := by rfl
theorem test_decode_enc : decode (0b00000000000000000000000_0_00001011#32) = .ok .enc := by rfl
theorem test_decode_dec : decode (0b00000000000000000000000_0_00001100#32) = .ok .dec := by rfl

/-- P-2 and P-4: each rejected word by its reason. -/
theorem test_decode_rejects_depad : decode 0x00000101 = .error .depadNotAllowed := by rfl
theorem test_decode_rejects_reserved : decode 0x00000203 = .error .reservedBits := by rfl
theorem test_decode_rejects_op : decode 0x0000000D = .error .reservedOp := by rfl

/-- Table numbering: bits 7 to 0 are the first byte. -/
theorem test_decodeTableWord : decodeTableWord 32 0x102 = some .invZ := by decide +kernel

/-! ### One command each: the vectors of 95_test_vectors.md -/

/-- C1. -/
theorem test_fwd : (landed (exec .fwd (demo (opsFor 1 128 1) [0x41] []))).mem.readBytes 0x000 64 = v2 := by decide +kernel
/-- C4: descriptor 1 is not read. -/
theorem test_fwd_first_key :
    report (landed (exec .fwd (demoKeys k1 (List.replicate 64 0x67) (opsFor 1 128 2) [0x41] []))) = (.success, 64, 1, 64, 0) := by
  decide +kernel
/-- C15. -/
theorem test_inv : (landed (exec .inv (demo (opsFor 128 128 1) v6 []))).mem.readBytes 0x000 128 =
    List.replicate 65 0x41 ++ zeros 63 := by decide +kernel
/-- C14. -/
theorem test_inv_blockLength : report (landed (exec .inv (demo (opsFor 65 128 1) v6 []))) = (.blockLength, 0, 0, 0, 0) := by
  decide +kernel
/-- C16. -/
theorem test_invZ : report (landed (exec .invZ (demo (opsFor 128 128 1) v6 []))) = (.success, 65, 1, 64, 0) := by
  decide +kernel
/-- C18. -/
theorem test_cfwd : (landed (exec .cfwd (demo (opsFor 44 128 2) text44 []))).mem.readBytes 0x000 64 = v12 := by decide +kernel
/-- C5. -/
theorem test_cfwd_invalidKey :
    report (landed (exec .cfwd (demoKeys k1 (List.replicate 64 0x67) (opsFor 1 128 2) [0x41] []))) = (.invalidKey, 0, 0, 0, 2) := by
  decide +kernel
/-- C20. -/
theorem test_cinv : (landed (exec .cinv (demo (opsFor 64 128 2) v12 []))).mem.readBytes 0x000 64 = text44 ++ zeros 20 := by
  decide +kernel
/-- C19. -/
theorem test_cinvZ : report (landed (exec .cinvZ (demo (opsFor 64 128 2) v12 []))) = (.success, 44, 2, 64, 0) := by
  decide +kernel
/-- K-12 with two keys. -/
theorem test_kchk : report (landed (exec .kchk (demo (opsFor 0 0 2) [] []))) = (.success, 0, 2, 64, 0) := by decide +kernel
/-- K-10: a key of another length comes before a key that is no hex text. -/
theorem test_kchk_order :
    report (landed (exec .kchk (demoKeys (List.replicate 64 0x67) k1 { opsFor 0 0 2 with keytabAddr := 0x500 }
      [0x00, 0x04, 0, 0, 0x40, 0, 0, 0, 0x40, 0x04, 0, 0, 0x80, 0, 0, 0] []))) = (.lengthMismatch, 0, 0, 0, 2) := by
  decide +kernel
/-- G-1. -/
theorem test_kgen : (landed (exec .kgen (demo (opsFor 0 64 0) [] (List.replicate 32 (some 0))))).mem.readBytes 0x000 64 = key256 := by
  decide +kernel
/-- G-3, for one key: the SHA-512 segment comes first. -/
theorem test_kgen_768 : (landed (exec .kgen (demo { opsFor 0 192 0 with kgBits := 768 } [] (List.replicate 96 (some 0))))).mem.readBytes 0x000 192 =
    key512 ++ key256 := by decide +kernel
/-- W-1. -/
theorem test_seal : let t := landed (exec .vaultSeal (demo (opsFor 0 172 1) [] (List.replicate 32 (some 0x11))))
    (t.mem.readBytes 0x180 128, t.mem.readBytes 0x000 172) = (sealedBytes, vaultText) := by decide +kernel
/-- W-13. -/
theorem test_seal_capacity : report (landed (exec .vaultSeal (demo { opsFor 0 172 1 with scrCap := 127 } [] []))) =
    (.capacityExceeded, 0, 0, 0, 0) := by decide +kernel
/-- W-2. -/
theorem test_unseal : let t := landed (exec .vaultUnseal (demo (opsFor 172 64 1) vaultText []))
    (t.mem.readBytes 0x180 128, t.mem.readBytes 0x000 64) = (paddedBlob, k1) := by decide +kernel
/-- W-9. -/
theorem test_unseal_length : report (landed (exec .vaultUnseal (demo (opsFor 4 64 1) [0x41, 0x41, 0x41, 0x41] []))) =
    (.wrongPasswordOrCorrupt, 0, 0, 0, 0) := by decide +kernel
/-- B-6. -/
theorem test_b64e : (landed (exec .b64e (demo (opsFor 5 16 0) [0x66, 0x6F, 0x6F, 0x62, 0x61] []))).mem.readBytes 0x000 8 =
    [0x5A, 0x6D, 0x39, 0x76, 0x59, 0x6D, 0x45, 0x3D] := by decide +kernel
/-- B-12. -/
theorem test_b64d : let t := landed (exec .b64d (demo (opsFor 4 16 0) [0x5A, 0x68, 0x3D, 0x3D] []))
    (report t, t.mem.read 0x000) = ((.success, 1, 0, 0, 0), 0x66) := by decide +kernel
/-- B-18. -/
theorem test_b64d_invalid : report (landed (exec .b64d (demo (opsFor 4 16 0) [0x41, 0x3D, 0x3D, 0x3D] []))) =
    (.decodeFailed, 0, 0, 0, 0) := by decide +kernel
/-- E-1. -/
theorem test_enc : let t := landed (exec .enc (demo (opsFor 44 88 1) text44 []))
    (t.mem.readBytes 0x180 64, t.mem.readBytes 0x000 88) = (v5, artifact) := by decide +kernel
/-- E-4. -/
theorem test_enc_capacity : report (landed (exec .enc (demo (opsFor 1 87 1) text44 []))) = (.capacityExceeded, 0, 0, 0, 0) := by
  decide +kernel
/-- E-6. -/
theorem test_dec : let t := landed (exec .dec (demo (opsFor 88 64 1) artifact []))
    (report t, t.mem.readBytes 0x000 64) = ((.success, 44, 1, 64, 0), text44 ++ zeros 20) := by decide +kernel
/-- E-5. -/
theorem test_dec_blockLength : report (landed (exec .dec (demo (opsFor 4 64 1) [0x41, 0x41, 0x41, 0x41] []))) =
    (.blockLength, 0, 0, 0, 0) := by decide +kernel

/-! ### The register protocol (P-1, P-8, P-10, P-12) -/

/-- P-1 and P-3: an illegal word completes with ERR = 0x01. -/
theorem test_illegal_status : (landed (step (State.reset.withFetchWord 32 0x0D))).statusWord = 0x0000010A := by decide +kernel
/-- P-8 and P-9, after P-1. -/
theorem test_status_write : let t := landed (step (State.reset.withFetchWord 32 0))
    (t.writeStatus 0x00000002).statusWord = 0x00000108 := by decide +kernel
/-- P-7. -/
theorem test_overrun : (((demo (opsFor 1 128 1) [] []).writeCmd 5).overrun, ((demo (opsFor 1 128 1) [] []).writeCmd 5).latch.cmd) =
    (true, 0x00000001) := by decide +kernel
/-- P-10. -/
theorem test_irq : let t := landed (step (State.reset.withFetchWord 32 0))
    (t.irq, (t.writeCtrl 0xFFFFFFFF).irq) = (false, true) := by decide +kernel
/-- P-12 and P-11, through the host's side. -/
theorem test_read_id : (landed (State.reset.hostRead .word 0x100000000)).host.received = [0x45454107] := by decide +kernel
theorem test_read_reserved : (landed (State.reset.hostRead .word 0x100000050)).host.received = [0] := by decide +kernel
/-- The `desc` of P1 stores `00 01 00 00 40 00 00 00`. -/
theorem test_desc : let p := HostStmt.inputs Params.chosen (.desc 0x80 0 0x100 64)
    p.map (fun x => match x with | .write .byte a v => (a, v.toNat) | _ => (0, 0)) =
    [(0x80, 0), (0x81, 1), (0x82, 0), (0x83, 0), (0x84, 0x40), (0x85, 0), (0x86, 0), (0x87, 0)] := by decide +kernel

/-! ### Operations -/

/-- Writing the value an unlisted address reads as removes the entry. -/
theorem test_memory_canonical : Memory.write (Memory.write [] 5 7) 5 0 = [] := by decide
/-- C8 and C7: an overlap with the table, then with a key region. -/
theorem test_overlap_table : report (landed (exec .fwd (demo { opsFor 1 128 1 with dstAddr := 0x2FC, dstCap := 64 } [0x41] []))) =
    (.overlap, 0, 0, 0, 0) := by decide +kernel
theorem test_overlap_key : report (landed (exec .fwd (demo { opsFor 1 128 1 with dstAddr := 0x420, dstCap := 64 } [0x41] []))) =
    (.overlap, 0, 0, 0, 1) := by decide +kernel
/-- C3: an empty region is in bounds anywhere. -/
theorem test_empty_region : report (landed (exec .fwd (demo { opsFor 0 128 1 with srcAddr := 0xFFFFFFFF } [] []))) =
    (.success, 0, 1, 64, 0) := by decide +kernel

/-! ### Witnesses: for each statement with hypotheses, a state and operands that meet them -/

/-- The reset state with host inputs pending. -/
def idleWith (pending : List Input) : State := { State.reset with host := { pending := pending, received := [] } }

/-- The reset state with a command accepted, some latency left and host inputs pending. -/
def runningWith (word wait : Nat) (pending : List Input) : State :=
  { (State.reset.accept (BitVec.ofNat 32 word) wait) with host := { pending := pending, received := [] } }

theorem witness_IllegalWordsOnlyReport_accepted :
    (idleWith [.write .word 0x10000000C 0x0D]).sequencer = none ∧
      (idleWith [.write .word 0x10000000C 0x0D]).host.pending =
        [.write .word ((idleWith []).params.regBase + 0x0C) 0x0D] := by
  and_intros <;> decide +kernel

theorem witness_IllegalWordsOnlyReport_completed : (runningWith 0x0D 0 []).sequencer = some (Sequencer.start 0) ∧
    (Sequencer.start 0).wait = 0 ∧ ¬ (fieldsOf (runningWith 0x0D 0 []).latch.cmd).Legal := by
  and_intros <;> decide +kernel

theorem witness_StepRunsTheLatchedCommand : (runningWith 0x0C 0 []).sequencer = some (Sequencer.start 0) ∧
    (Sequencer.start 0).wait = 0 := by
  and_intros <;> decide +kernel
theorem witness_StepRunsTheLatchedCommand_decode : decode (runningWith 0x0C 0 []).latch.cmd = .ok .dec := by rfl

theorem witness_StepServesTheHostInProgramOrder_idle : (idleWith [.waitDone, .idle]).sequencer = none ∧
    (idleWith [.waitDone, .idle]).host.pending = [.waitDone, .idle] := by
  and_intros <;> decide +kernel
theorem witness_StepServesTheHostInProgramOrder_running :
    (runningWith 1 1 [.idle]).sequencer = some (Sequencer.start 1) ∧ (Sequencer.start 1).wait = 0 + 1 ∧
      (runningWith 1 1 [.idle]).host.pending = [.idle] ∧ Input.idle ≠ .waitDone := by
  and_intros <;> decide +kernel
theorem witness_StepServesTheHostInProgramOrder_waiting :
    (runningWith 1 1 [.waitDone]).sequencer = some (Sequencer.start 1) ∧ (Sequencer.start 1).wait = 0 + 1 ∧
      (runningWith 1 1 [.waitDone]).host.pending = [.waitDone] := by
  and_intros <;> decide +kernel
theorem witness_StepServesTheHostInProgramOrder_silent :
    (runningWith 1 1 []).sequencer = some (Sequencer.start 1) ∧ (Sequencer.start 1).wait = 0 + 1 ∧
      (runningWith 1 1 []).host.pending = [] := by
  and_intros <;> decide +kernel
theorem witness_StepServesTheHostInProgramOrder_still : State.reset.sequencer = none ∧ State.reset.host.pending = [] := by
  and_intros <;> decide +kernel

theorem witness_CmdWriteIsAcceptedOrDropped_accepted :
    (idleWith [.write .word 0x10000000C 5]).sequencer = none ∧
      (idleWith [.write .word 0x10000000C 5]).host.pending =
        [.write .word ((idleWith []).params.regBase + 0x0C) 5] := by
  and_intros <;> decide +kernel
def cmdWriteIsAcceptedOrDropped_dropped_s : State := runningWith 1 1 [.write .word 0x10000000C 5]
theorem witness_CmdWriteIsAcceptedOrDropped_dropped :
    cmdWriteIsAcceptedOrDropped_dropped_s.sequencer = some (Sequencer.start 1) ∧ (Sequencer.start 1).wait = 0 + 1 ∧
      cmdWriteIsAcceptedOrDropped_dropped_s.host.pending = [.write .word (cmdWriteIsAcceptedOrDropped_dropped_s.params.regBase + 0x0C) 5] := by
  and_intros <;> decide +kernel

theorem witness_AcceptedCommandsComplete : (runningWith 5 3 [.waitDone]).sequencer = some (Sequencer.start 3) ∧
    (runningWith 5 3 [.waitDone]).host.pending = [.waitDone] ∧
    (runningWith 0x0D 0 []).sequencer = some (Sequencer.start 0) ∧ (runningWith 0x0D 0 []).host.pending = [] ∧
    (Sequencer.start 0).wait = 0 := by
  and_intros <;> decide +kernel
/-- A dropped CMD write meanwhile. -/
theorem witness_AcceptedCommandsComplete_input :
    cmdWriteIsAcceptedOrDropped_dropped_s.sequencer = some (Sequencer.start 1) ∧ (Sequencer.start 1).wait = 0 + 1 ∧
      cmdWriteIsAcceptedOrDropped_dropped_s.host.pending.head? ≠ some .reset ∧
      step cmdWriteIsAcceptedOrDropped_dropped_s = .next (landed (step cmdWriteIsAcceptedOrDropped_dropped_s)) :=
  ⟨by decide +kernel, by decide +kernel, by decide +kernel, eq_next_landed (by decide +kernel)⟩

theorem witness_RegisterReadsFollowTheMap : (0 < 64) ∧ (19 < 64) ∧ (63 < 64) := by decide
theorem witness_RegisterWritesStoreOrAreIgnored : (4 ≤ 4 ∧ 4 < 16) ∧ (4 ≤ 15 ∧ 15 < 16) ∧ (16 ≤ 16 ∧ 16 < 64) ∧
    (16 ≤ 63 ∧ 63 < 64) := by decide
theorem witness_StatusReadsItsFieldsAndClearsByOnes : (4 ≤ 4 ∧ 4 < 8) ∧ (4 ≤ 7 ∧ 7 < 8) ∧ (16 ≤ 16 ∧ 16 < 32) ∧
    (16 ≤ 31 ∧ 31 < 32) := by decide
theorem witness_ErrorCodesAreTheListedOnes : ErrCode.keySize.value = ErrCode.keySize.value := by rfl
theorem witness_IrqFollowsEnableAndDone : State.reset.busy = false := by decide +kernel

def undefinedHostAccessesAreRefused_register_p : Params := State.reset.params
theorem witness_UndefinedHostAccessesAreRefused_register :
    (undefinedHostAccessesAreRefused_register_p.regBase ≤ undefinedHostAccessesAreRefused_register_p.regBase ∧ undefinedHostAccessesAreRefused_register_p.regBase < undefinedHostAccessesAreRefused_register_p.regBase + 0x100 ∧ Width.half ≠ .word) ∧
      (undefinedHostAccessesAreRefused_register_p.regBase ≤ undefinedHostAccessesAreRefused_register_p.regBase + 0xFF ∧ undefinedHostAccessesAreRefused_register_p.regBase + 0xFF < undefinedHostAccessesAreRefused_register_p.regBase + 0x100 ∧ (undefinedHostAccessesAreRefused_register_p.regBase + 0xFF - undefinedHostAccessesAreRefused_register_p.regBase) % 4 ≠ 0) := by
  and_intros <;> decide +kernel
def undefinedHostAccessesAreRefused_outside_p : Params := State.reset.params
theorem witness_UndefinedHostAccessesAreRefused_outside :
    (4093 < undefinedHostAccessesAreRefused_outside_p.regBase ∧ undefinedHostAccessesAreRefused_outside_p.bufBase + undefinedHostAccessesAreRefused_outside_p.bufSize < 4093 + Width.word.bytes) ∧
      (4096 < undefinedHostAccessesAreRefused_outside_p.regBase ∧ undefinedHostAccessesAreRefused_outside_p.bufBase + undefinedHostAccessesAreRefused_outside_p.bufSize < 4096 + Width.byte.bytes) ∧
      (undefinedHostAccessesAreRefused_outside_p.regBase + 0x100 ≤ undefinedHostAccessesAreRefused_outside_p.regBase + 0x100 ∧ undefinedHostAccessesAreRefused_outside_p.bufBase + undefinedHostAccessesAreRefused_outside_p.bufSize < undefinedHostAccessesAreRefused_outside_p.regBase + 0x100 + Width.byte.bytes) := by
  and_intros <;> decide +kernel

theorem witness_HostBufferAccessesAreLittleEndian : State.reset.busy = false ∧ State.reset.mem.wf ∧
    ReachesBuffer State.reset.params .word 4092 ∧ ReachesBuffer State.reset.params .byte 0 ∧
    ReachesBuffer State.reset.params .half 4094 := by
  and_intros <;> decide +kernel

/-- FWD running on the demo operands: SRC is one byte at 0x500, DST 64 bytes at 0x000. -/
def runningFwd : State := demo (opsFor 1 64 1) [0x41] []

/-- A halfword that ends on the byte of SRC, a word that ends on the first byte of key 0, and a word that touches nothing. -/
theorem witness_WritesIntoARunningCommandFault : runningFwd.busy = true ∧ runningFwd.mem.wf ∧
    ReachesBuffer runningFwd.params .half 0x4FF ∧ ReachesBuffer runningFwd.params .word 0x3FD ∧
    ReachesBuffer runningFwd.params .word 0x501 := by
  and_intros <;> decide +kernel
theorem witness_WritesIntoARunningCommandFault_source : ∃ r ∈ (runningFwd.latch.row .fwd).reads,
    ∃ j < Width.half.bytes, r.Covers (0x4FF + j) := by
  decide +kernel
theorem witness_WritesIntoARunningCommandFault_key :
    (runningFwd.latch.keytab (runningFwd.latch.row .fwd).keyCount).InBounds runningFwd.params.bufSize ∧
      ∃ k < (runningFwd.latch.row .fwd).keyCount, ∃ j < Width.word.bytes,
        (runningFwd.latch.keyRegion runningFwd.mem k).Covers (0x3FD + j) := by
  and_intros <;> decide +kernel
theorem witness_WritesIntoARunningCommandFault_clear :
    (∀ r ∈ (runningFwd.latch.row .fwd).reads ++ (runningFwd.latch.row .fwd).writes, ∀ j < Width.word.bytes,
      ¬ r.Covers (0x501 + j)) ∧
    ∀ k < (runningFwd.latch.row .fwd).keyCount, ∀ j < Width.word.bytes,
      ¬ (runningFwd.latch.keyRegion runningFwd.mem k).Covers (0x501 + j) := by
  and_intros <;> decide +kernel
theorem witness_WritesIntoARunningCommandFault_decode : decode runningFwd.latch.cmd = .ok .fwd := by rfl

/-- An illegal word with some latency left. -/
def runningIllegal : State := runningWith 0x101 1 []

theorem witness_WritesIntoARunningCommandFault_illegal : runningIllegal.busy = true ∧ runningIllegal.mem.wf ∧
    ReachesBuffer runningIllegal.params .word 4092 := by
  and_intros <;> decide +kernel
theorem witness_WritesIntoARunningCommandFault_illegalWord :
    decode runningIllegal.latch.cmd = .error .depadNotAllowed := by rfl

/-- The last two bytes of DST are hidden, the two after it are memory's; SRC and the table are readable. -/
theorem witness_ReadsOfARunningCommandChangeNothing : runningFwd.busy = true ∧
    ReachesBuffer runningFwd.params .word 0x3E ∧ ReachesBuffer runningFwd.params .byte 0x500 ∧
    (2 < Width.word.bytes ∧ ∀ r ∈ (runningFwd.latch.row .fwd).writes, ¬ r.Covers (0x3E + 2)) ∧
    (0 < Width.byte.bytes ∧ ∀ r ∈ (runningFwd.latch.row .fwd).writes, ¬ r.Covers (0x500 + 0)) ∧
    1 < 4 ∧ Width.byte.bytes ≤ 1 := by
  and_intros <;> decide +kernel
theorem witness_ReadsOfARunningCommandChangeNothing_illegal : runningIllegal.busy = true ∧
    ReachesBuffer runningIllegal.params .half 4094 := by
  and_intros <;> decide +kernel

theorem witness_ResetAbandonsTheCommandAndKeepsMemory : State.reset.busy = false ∧
    ∀ w ∈ (runningFwd.latch.row .fwd).writes, ¬ w.Covers 64 := by
  and_intros <;> decide +kernel
theorem witness_ResetAbandonsTheCommandAndKeepsMemory_illegal :
    decode (runningWith 0x101 1 []).latch.cmd = .error .depadNotAllowed := by rfl

/-- FWD of one byte, completed. -/
def afterFwd : State := landed (exec .fwd runningFwd)

theorem witness_MemoryOutsideWriteRegionsIsKept : exec .fwd runningFwd = .next afterFwd ∧
    ∀ w ∈ (runningFwd.latch.row .fwd).writes, ¬ w.Covers 64 :=
  ⟨eq_next_landed (by decide +kernel), by decide +kernel⟩

theorem witness_SuccessStoresOnlyTheNamedBytes : afterFwd.err = .success ∧
    Outside (storedRanges .fwd runningFwd afterFwd) 64 := by
  and_intros <;> decide +kernel

/-- UNSEAL of the text of W-10, `AAA` and a newline, and CFWD with a second key that is no hex text (C5). -/
def badText : State := demo (opsFor 4 64 1) [0x41, 0x41, 0x41, 0x0A] []
def badKey : State := demoKeys k1 (List.replicate 64 0x67) (opsFor 1 128 2) [0x41] []

theorem witness_CheckPhaseErrorsKeepMemory :
    exec .vaultUnseal badText = .next (landed (exec .vaultUnseal badText)) ∧
      (landed (exec .vaultUnseal badText)).err ≠ .success ∧
      ¬ ((Instr.vaultUnseal = .kgen ∨ Instr.vaultUnseal = .vaultSeal) ∧
        (landed (exec .vaultUnseal badText)).err = .randomBytes) ∧
      ¬ (Instr.vaultUnseal = .vaultUnseal ∧ ((landed (exec .vaultUnseal badText)).err = .wrongPasswordOrCorrupt ∨
        (landed (exec .vaultUnseal badText)).err = .capacityExceeded)) :=
  ⟨eq_next_landed (by decide +kernel), by decide +kernel⟩

theorem witness_ErrorReportsAreBlankButForTheKeyNumber : exec .cfwd badKey = .next (landed (exec .cfwd badKey)) ∧
    (landed (exec .cfwd badKey)).err ≠ .success ∧ (landed (exec .cfwd badKey)).errInfo ≠ 0 ∧
    keyed .vaultUnseal = false :=
  ⟨eq_next_landed (by decide +kernel), by decide +kernel⟩

/-- SRC one byte past the end of memory; SRC ending at its last byte and DST one byte past; DST on the last byte of SRC. -/
def srcBeyond : State := demo { opsFor 2 64 1 with srcAddr := 4095 } [] []
def dstBeyond : State := demo { opsFor 1 64 1 with srcAddr := 4095, dstAddr := 4033 } [] []
def dstOnSrc : State := demo { opsFor 64 64 1 with dstAddr := 0x53F } [] []
/-- SRC and DST at one address; SRC, DST and the table at one address; SCR on the last byte of DST. -/
def inPlace : State := demo { opsFor 64 64 1 with dstAddr := 0x500 } [] []
def onTable : State := demo { opsFor 64 64 1 with srcAddr := 0x300, dstAddr := 0x300 } [] []
def scrOnDst : State := demo { opsFor 64 64 1 with scrAddr := 0x03F } [] []

theorem witness_FixedRegionErrorsComeFirst_bounds :
    (∃ r ∈ (srcBeyond.latch.row .fwd).reads, r.len ≠ 0 ∧ srcBeyond.params.bufSize < r.addr + r.len) ∧
    (∀ r ∈ (dstBeyond.latch.row .fwd).reads, r.InBounds dstBeyond.params.bufSize) ∧
    (∃ w ∈ (dstBeyond.latch.row .fwd).writes, w.len ≠ 0 ∧ dstBeyond.params.bufSize < w.addr + w.len) := by
  and_intros <;> decide +kernel
theorem witness_FixedRegionErrorsComeFirst_overlap :
    (∀ r ∈ (dstOnSrc.latch.row .fwd).reads, r.InBounds dstOnSrc.params.bufSize) ∧
    (∀ w ∈ (dstOnSrc.latch.row .fwd).writes, w.InBounds dstOnSrc.params.bufSize) ∧
    (∃ w ∈ (dstOnSrc.latch.row .fwd).writes, ∃ r ∈ (dstOnSrc.latch.row .fwd).reads, w.Intersects r) ∧
    dstOnSrc.latch.ops.srcAddr ≠ dstOnSrc.latch.ops.dstAddr := by
  and_intros <;> decide +kernel
theorem witness_FixedRegionErrorsComeFirst_table :
    onTable.latch.ops.srcAddr = onTable.latch.ops.dstAddr ∧
    (∃ w ∈ (onTable.latch.row .fwd).writes, ∃ r ∈ (onTable.latch.row .fwd).reads, w.Intersects r ∧ r.kind ≠ .src) := by
  and_intros <;> decide +kernel
theorem witness_FixedRegionErrorsComeFirst_scratch :
    scrOnDst.latch.scr ∈ (scrOnDst.latch.row .enc).writes ∧ scrOnDst.latch.scr.Intersects scrOnDst.latch.dst := by
  and_intros <;> decide +kernel
/-- R145 and R302: the same operands are in order for FWD, and an overlap for B64E. -/
theorem test_in_place : report (landed (exec .fwd inPlace)) = (.success, 64, 1, 64, 0) ∧
    report (landed (exec .b64e inPlace)) = (.overlap, 0, 0, 0, 0) := by
  and_intros <;> decide +kernel

/-- The second key region is out of bounds by one byte, and covers the last byte of DST. -/
def farKey : State := demo { opsFor 16 64 2 with keytabAddr := 0x500 }
  [0x00, 0x04, 0, 0, 0x40, 0, 0, 0, 0xC1, 0x0F, 0, 0, 0x40, 0, 0, 0] []
def nearKey : State := demo { opsFor 16 64 2 with keytabAddr := 0x500, dstAddr := 0x381 }
  [0x80, 0x04, 0, 0, 0x40, 0, 0, 0, 0xC0, 0x03, 0, 0, 0x40, 0, 0, 0] []

theorem witness_KeyErrorsAreReportedWithTheKeyNumber_noKeys : keyed .kchk = true ∧
    RegionsOk (demo (opsFor 0 0 0) [] []) ((demo (opsFor 0 0 0) [] []).latch.row .kchk) ∧
    ((demo (opsFor 0 0 0) [] []).latch.row .kchk).keyCount = 0 := by
  and_intros <;> decide +kernel
theorem witness_KeyErrorsAreReportedWithTheKeyNumber_far : RegionsOk farKey (farKey.latch.row .cfwd) ∧
    1 < (farKey.latch.row .cfwd).keyCount ∧ (∀ k < 1, DescriptorOk farKey (farKey.latch.row .cfwd) k) ∧
    ¬ (farKey.latch.keyRegion farKey.mem 1).InBounds farKey.params.bufSize := by
  and_intros <;> decide +kernel
theorem witness_KeyErrorsAreReportedWithTheKeyNumber_near : RegionsOk nearKey (nearKey.latch.row .cfwd) ∧
    1 < (nearKey.latch.row .cfwd).keyCount ∧ (∀ k < 1, DescriptorOk nearKey (nearKey.latch.row .cfwd) k) ∧
    (nearKey.latch.keyRegion nearKey.mem 1).InBounds nearKey.params.bufSize ∧
    (∃ w ∈ (nearKey.latch.row .cfwd).writes, (nearKey.latch.keyRegion nearKey.mem 1).Intersects w) := by
  and_intros <;> decide +kernel
theorem witness_KeyErrorsAreReportedWithTheKeyNumber_invalid : RegionsOk badKey (badKey.latch.row .cfwd) ∧
    (badKey.latch.row .cfwd).keyCount ≠ 0 ∧
    (∀ k < (badKey.latch.row .cfwd).keyCount, DescriptorOk badKey (badKey.latch.row .cfwd) k) := by
  and_intros <;> decide +kernel

/-- Operands with one key: lengths of SRC, DST, SCR. -/
def withCaps (srcLen dstCap scrCap : Word) (src : Bytes) (answers : List (Option Byte)) : State :=
  demo { opsFor srcLen dstCap 1 with scrCap := scrCap } src answers

theorem witness_CipherCommandsCheckLengths :
    (RegionsOk (withCaps 1 63 0 [] []) ((withCaps 1 63 0 [] []).latch.row .fwd) ∧
      KeysOk (withCaps 1 63 0 [] []) ((withCaps 1 63 0 [] []).latch.row .fwd) [k1] 64 ∧
      (withCaps 1 63 0 [] []).latch.dst.len < paddedLength (withCaps 1 63 0 [] []).latch.src.len 64) ∧
    (KeysOk (withCaps 65 128 0 [] []) ((withCaps 65 128 0 [] []).latch.row .inv) [k1] 64 ∧
      (withCaps 65 128 0 [] []).latch.src.len % 64 ≠ 0) ∧
    ((withCaps 64 63 0 [] []).latch.src.len % 64 = 0 ∧
      (withCaps 64 63 0 [] []).latch.dst.len < (withCaps 64 63 0 [] []).latch.src.len) := by
  and_intros <;> decide +kernel

def sealAndArtifactCommandsCheckLengths_seal_s : State := withCaps 0 172 127 [] []
theorem witness_SealAndArtifactCommandsCheckLengths_seal :
    RegionsOk sealAndArtifactCommandsCheckLengths_seal_s (sealAndArtifactCommandsCheckLengths_seal_s.latch.row .vaultSeal) ∧ KeysOk sealAndArtifactCommandsCheckLengths_seal_s (sealAndArtifactCommandsCheckLengths_seal_s.latch.row .vaultSeal) [k1] 64 ∧
      sealAndArtifactCommandsCheckLengths_seal_s.latch.scr.len < paddedLength (blobLength 64 1) 128 ∧
      (withCaps 0 171 128 [] []).latch.dst.len < base64Length (paddedLength (blobLength 64 1) 128) := by
  and_intros <;> decide +kernel
def sealAndArtifactCommandsCheckLengths_enc_s : State := withCaps 1 88 63 [] []
theorem witness_SealAndArtifactCommandsCheckLengths_enc :
    RegionsOk sealAndArtifactCommandsCheckLengths_enc_s (sealAndArtifactCommandsCheckLengths_enc_s.latch.row .enc) ∧ KeysOk sealAndArtifactCommandsCheckLengths_enc_s (sealAndArtifactCommandsCheckLengths_enc_s.latch.row .enc) [k1] 64 ∧
      sealAndArtifactCommandsCheckLengths_enc_s.latch.scr.len < paddedLength sealAndArtifactCommandsCheckLengths_enc_s.latch.src.len 64 ∧
      (withCaps 1 87 64 [] []).latch.dst.len < base64Length (paddedLength 1 64) := by
  and_intros <;> decide +kernel
def sealAndArtifactCommandsCheckLengths_dec_s : State := withCaps 4 64 2 [0x41, 0x41, 0x41, 0x41] []
def sealAndArtifactCommandsCheckLengths_dec_long : State := withCaps 88 63 64 artifact []
theorem witness_SealAndArtifactCommandsCheckLengths_dec :
    RegionsOk sealAndArtifactCommandsCheckLengths_dec_s (sealAndArtifactCommandsCheckLengths_dec_s.latch.row .dec) ∧ KeysOk sealAndArtifactCommandsCheckLengths_dec_s (sealAndArtifactCommandsCheckLengths_dec_s.latch.row .dec) [k1] 64 ∧
      base64Valid (badText.latch.src.bytes badText.mem) = false ∧ base64Valid (sealAndArtifactCommandsCheckLengths_dec_s.latch.src.bytes sealAndArtifactCommandsCheckLengths_dec_s.mem) = true ∧
      sealAndArtifactCommandsCheckLengths_dec_s.latch.scr.len < (base64Decode (sealAndArtifactCommandsCheckLengths_dec_s.latch.src.bytes sealAndArtifactCommandsCheckLengths_dec_s.mem)).length ∧
      (base64Decode (sealAndArtifactCommandsCheckLengths_dec_s.latch.src.bytes sealAndArtifactCommandsCheckLengths_dec_s.mem)).length ≤ (withCaps 4 64 3 [] []).latch.scr.len ∧
      (base64Decode (sealAndArtifactCommandsCheckLengths_dec_s.latch.src.bytes sealAndArtifactCommandsCheckLengths_dec_s.mem)).length % 64 ≠ 0 ∧
      (base64Decode (sealAndArtifactCommandsCheckLengths_dec_long.latch.src.bytes sealAndArtifactCommandsCheckLengths_dec_long.mem)).length % 64 = 0 ∧
      sealAndArtifactCommandsCheckLengths_dec_long.latch.dst.len < (base64Decode (sealAndArtifactCommandsCheckLengths_dec_long.latch.src.bytes sealAndArtifactCommandsCheckLengths_dec_long.mem)).length := by
  and_intros <;> decide +kernel

def keylessCommandsCheckTheirOperands_kgen_s : State := demo { opsFor 0 63 1 with kgBits := 256 } [] []
theorem witness_KeylessCommandsCheckTheirOperands_kgen :
    RegionsOk keylessCommandsCheckTheirOperands_kgen_s (keylessCommandsCheckTheirOperands_kgen_s.latch.row .kgen) ∧ keylessCommandsCheckTheirOperands_kgen_s.latch.ops.kgBits.toNat ≠ 0 ∧ keylessCommandsCheckTheirOperands_kgen_s.latch.ops.kgBits.toNat % 256 = 0 ∧
      keylessCommandsCheckTheirOperands_kgen_s.latch.dst.len < keylessCommandsCheckTheirOperands_kgen_s.latch.ops.kgCount.toNat * (keylessCommandsCheckTheirOperands_kgen_s.latch.ops.kgBits.toNat / 4) ∧
      (255 : Word).toNat % 256 ≠ 0 ∧ (0 : Word).toNat = 0 := by
  and_intros <;> decide +kernel
def keylessCommandsCheckTheirOperands_base64_s : State := demo (opsFor 4 2 0) [0x41, 0x41, 0x41, 0x41] []
theorem witness_KeylessCommandsCheckTheirOperands_base64 :
    RegionsOk keylessCommandsCheckTheirOperands_base64_s (keylessCommandsCheckTheirOperands_base64_s.latch.row .b64e) ∧ keylessCommandsCheckTheirOperands_base64_s.latch.dst.len < base64Length keylessCommandsCheckTheirOperands_base64_s.latch.src.len ∧
      RegionsOk keylessCommandsCheckTheirOperands_base64_s (keylessCommandsCheckTheirOperands_base64_s.latch.row .b64d) ∧ base64Valid (keylessCommandsCheckTheirOperands_base64_s.latch.src.bytes keylessCommandsCheckTheirOperands_base64_s.mem) = true ∧
      keylessCommandsCheckTheirOperands_base64_s.latch.dst.len < (base64Decode (keylessCommandsCheckTheirOperands_base64_s.latch.src.bytes keylessCommandsCheckTheirOperands_base64_s.mem)).length ∧
      base64Valid (badText.latch.src.bytes badText.mem) = false := by
  and_intros <;> decide +kernel
def keylessCommandsCheckTheirOperands_unseal_s : State := withCaps 4 64 2 [0x41, 0x41, 0x41, 0x41] []
theorem witness_KeylessCommandsCheckTheirOperands_unseal :
    RegionsOk keylessCommandsCheckTheirOperands_unseal_s (keylessCommandsCheckTheirOperands_unseal_s.latch.row .vaultUnseal) ∧ base64Valid (keylessCommandsCheckTheirOperands_unseal_s.latch.src.bytes keylessCommandsCheckTheirOperands_unseal_s.mem) = true ∧
      keylessCommandsCheckTheirOperands_unseal_s.latch.scr.len < (base64Decode (keylessCommandsCheckTheirOperands_unseal_s.latch.src.bytes keylessCommandsCheckTheirOperands_unseal_s.mem)).length ∧
      (base64Decode (keylessCommandsCheckTheirOperands_unseal_s.latch.src.bytes keylessCommandsCheckTheirOperands_unseal_s.mem)).length ≤ (withCaps 4 64 3 [] []).latch.scr.len ∧
      (base64Decode (keylessCommandsCheckTheirOperands_unseal_s.latch.src.bytes keylessCommandsCheckTheirOperands_unseal_s.mem)).length % 128 ≠ 0 := by
  and_intros <;> decide +kernel

def fwdEnciphersWithTheFirstKey_s : State := withCaps 1 64 0 [0x41] []
theorem witness_FwdEnciphersWithTheFirstKey :
    RegionsOk fwdEnciphersWithTheFirstKey_s (fwdEnciphersWithTheFirstKey_s.latch.row .fwd) ∧ KeysOk fwdEnciphersWithTheFirstKey_s (fwdEnciphersWithTheFirstKey_s.latch.row .fwd) [k1] 64 ∧
      paddedLength fwdEnciphersWithTheFirstKey_s.latch.src.len 64 ≤ fwdEnciphersWithTheFirstKey_s.latch.dst.len := by
  and_intros <;> decide +kernel
def cfwdEnciphersWithEveryKey_s : State := demo (opsFor 1 64 2) [0x41] []
theorem witness_CfwdEnciphersWithEveryKey :
    RegionsOk cfwdEnciphersWithEveryKey_s (cfwdEnciphersWithEveryKey_s.latch.row .cfwd) ∧ KeysOk cfwdEnciphersWithEveryKey_s (cfwdEnciphersWithEveryKey_s.latch.row .cfwd) [k1, k2] 64 ∧
      paddedLength cfwdEnciphersWithEveryKey_s.latch.src.len 64 ≤ cfwdEnciphersWithEveryKey_s.latch.dst.len := by
  and_intros <;> decide +kernel
def invDeciphersWithTheFirstKey_s : State := withCaps 64 64 0 v2 []
theorem witness_InvDeciphersWithTheFirstKey :
    RegionsOk invDeciphersWithTheFirstKey_s (invDeciphersWithTheFirstKey_s.latch.row .inv) ∧ KeysOk invDeciphersWithTheFirstKey_s (invDeciphersWithTheFirstKey_s.latch.row .inv) [k1] 64 ∧ invDeciphersWithTheFirstKey_s.latch.src.len % 64 = 0 ∧
      invDeciphersWithTheFirstKey_s.latch.src.len ≤ invDeciphersWithTheFirstKey_s.latch.dst.len := by
  and_intros <;> decide +kernel
def cinvDeciphersWithEveryKey_s : State := demo (opsFor 64 64 2) v12 []
theorem witness_CinvDeciphersWithEveryKey :
    RegionsOk cinvDeciphersWithEveryKey_s (cinvDeciphersWithEveryKey_s.latch.row .cinv) ∧ KeysOk cinvDeciphersWithEveryKey_s (cinvDeciphersWithEveryKey_s.latch.row .cinv) [k1, k2] 64 ∧ cinvDeciphersWithEveryKey_s.latch.src.len % 64 = 0 ∧
      cinvDeciphersWithEveryKey_s.latch.src.len ≤ cinvDeciphersWithEveryKey_s.latch.dst.len := by
  and_intros <;> decide +kernel
def kchkReportsTheKeySet_s : State := demo (opsFor 0 0 2) [] []
theorem witness_KchkReportsTheKeySet :
    RegionsOk kchkReportsTheKeySet_s (kchkReportsTheKeySet_s.latch.row .kchk) ∧ KeysOk kchkReportsTheKeySet_s (kchkReportsTheKeySet_s.latch.row .kchk) [k1, k2] 64 := by
  and_intros <;> decide +kernel

/-- The entropy source of ENT(c), for `n` bytes, and after them. -/
def steady (c : Byte) (n : Nat) : List (Option Byte) := List.replicate n (some c)
def spent (n : Nat) : Entropy := { ready := true, answers := [], drawn := n }

def kgenHashesEntropyIntoKeys_s : State := demo (opsFor 0 64 0) [] (steady 0 32)
theorem witness_KgenHashesEntropyIntoKeys :
    RegionsOk kgenHashesEntropyIntoKeys_s (kgenHashesEntropyIntoKeys_s.latch.row .kgen) ∧ kgenHashesEntropyIntoKeys_s.latch.ops.kgBits.toNat = 256 ∧ kgenHashesEntropyIntoKeys_s.latch.ops.kgCount.toNat = 1 ∧ 256 % 256 = 0 ∧
      1 * (256 / 4) ≤ kgenHashesEntropyIntoKeys_s.latch.dst.len ∧ kgenHashesEntropyIntoKeys_s.entropy.draw (1 * (256 / 8)) = (some (zeros 32), spent 32) := by
  and_intros <;> decide +kernel
def failedDrawsReportRandomBytes_s : State := demo (opsFor 0 64 0) [] (steady 0 10 ++ [none])
def failedDrawsReportRandomBytes_r : State := withCaps 0 172 128 [] (steady 0x11 5 ++ [none])
/-- A source with two bytes and a failure listed, and one with nothing listed. -/
def mixedSource : Entropy := { ready := true, answers := [some 1, some 2, none, some 3], drawn := 0 }
theorem witness_FailedDrawsReportRandomBytes_draw :
    mixedSource.answers = ([1, 2] : Bytes).map some ++ none :: [some 3] ∧ ([1, 2] : Bytes).length < 3 ∧
    (spent 0).answers = [] := by decide
/-- R57 and R276, by hand: in order, and a failed draw uses up what it was given. -/
theorem test_draw : mixedSource.draw 1 = (some [1], { ready := true, answers := [some 2, none, some 3], drawn := 1 }) ∧
    mixedSource.draw 4 = (none, { ready := true, answers := [some 3], drawn := 3 }) := by decide
/-- G-9 and W-15. -/
theorem witness_FailedDrawsReportRandomBytes :
    (RegionsOk failedDrawsReportRandomBytes_s (failedDrawsReportRandomBytes_s.latch.row .kgen) ∧ 1 * (256 / 4) ≤ failedDrawsReportRandomBytes_s.latch.dst.len ∧
      failedDrawsReportRandomBytes_s.entropy.draw (1 * (256 / 8)) = (none, spent 11)) ∧
    RegionsOk failedDrawsReportRandomBytes_r (failedDrawsReportRandomBytes_r.latch.row .vaultSeal) ∧ KeysOk failedDrawsReportRandomBytes_r (failedDrawsReportRandomBytes_r.latch.row .vaultSeal) [k1] 64 ∧
      paddedLength (blobLength 64 1) 128 ≤ failedDrawsReportRandomBytes_r.latch.scr.len ∧
      base64Length (paddedLength (blobLength 64 1) 128) ≤ failedDrawsReportRandomBytes_r.latch.dst.len ∧
      failedDrawsReportRandomBytes_r.entropy.draw (64 / 2) = (none, spent 6) := by
  and_intros <;> decide +kernel

/-- SEAL of K1 with salt bytes 0x11 (W-1), and with a salt that begins with a newline (W-5). -/
def beforeSeal : State := withCaps 0 172 128 [] (steady 0x11 32)
def beforeBadSeal : State := withCaps 0 172 128 [] (some 0x0A :: steady 0x11 31)

theorem witness_SealWritesTheVault : RegionsOk beforeSeal (beforeSeal.latch.row .vaultSeal) ∧
    KeysOk beforeSeal (beforeSeal.latch.row .vaultSeal) [k1] 64 ∧
    paddedLength (blobLength 64 [k1].length) 128 ≤ beforeSeal.latch.scr.len ∧
    base64Length (paddedLength (blobLength 64 [k1].length) 128) ≤ beforeSeal.latch.dst.len ∧
    beforeSeal.entropy.draw (64 / 2) = (some (List.replicate 32 0x11), spent 32) := by
  and_intros <;> decide +kernel

/-- A blob of one segment, and one of a salt and a key. -/
theorem witness_UnsealReturnsTheKeys_split : (∀ g ∈ [k1], (0x0A : Byte) ∉ g) ∧
    ∀ g ∈ [[0x73], k1, []], (0x0A : Byte) ∉ g := by
  and_intros <;> decide +kernel
/-- R213: a string without 0x0A is its own candidate; the segment before the first 0x0A and the empty ones are none. -/
theorem test_candidates : candidates k1 = [k1] ∧ candidates [] = [] ∧
    candidates [0x73, 0x0A, 0x61, 0x0A, 0x0A, 0x62] = [[0x61], [0x62]] := by decide +kernel
def unsealReturnsTheKeys_s : State := withCaps 172 64 128 vaultText []
theorem witness_UnsealReturnsTheKeys :
    RegionsOk unsealReturnsTheKeys_s (unsealReturnsTheKeys_s.latch.row .vaultUnseal) ∧ base64Valid (unsealReturnsTheKeys_s.latch.src.bytes unsealReturnsTheKeys_s.mem) = true ∧
      (base64Decode (unsealReturnsTheKeys_s.latch.src.bytes unsealReturnsTheKeys_s.mem)).length ≤ unsealReturnsTheKeys_s.latch.scr.len ∧
      (base64Decode (unsealReturnsTheKeys_s.latch.src.bytes unsealReturnsTheKeys_s.mem)).length % 128 = 0 ∧
      candidates (stripZeros (unsealRounds (base64Decode (unsealReturnsTheKeys_s.latch.src.bytes unsealReturnsTheKeys_s.mem))
        (hexText (hash512 (unsealReturnsTheKeys_s.mem.readBytes unsealReturnsTheKeys_s.latch.pwd.addr unsealReturnsTheKeys_s.latch.pwd.len))))) = [k1] ∧ ValidKeys [k1] 64 ∧
      [k1].length * 64 ≤ unsealReturnsTheKeys_s.latch.dst.len := by
  and_intros <;> decide +kernel
def unsealHidesTheKeyError_s : State := withCaps 0 64 128 [] []
/-- W-8 (no candidates) and W-1 with DST_CAP one byte short. -/
theorem witness_UnsealHidesTheKeyError :
    RegionsOk unsealHidesTheKeyError_s (unsealHidesTheKeyError_s.latch.row .vaultUnseal) ∧ base64Valid (unsealHidesTheKeyError_s.latch.src.bytes unsealHidesTheKeyError_s.mem) = true ∧
      (base64Decode (unsealHidesTheKeyError_s.latch.src.bytes unsealHidesTheKeyError_s.mem)).length ≤ unsealHidesTheKeyError_s.latch.scr.len ∧
      (base64Decode (unsealHidesTheKeyError_s.latch.src.bytes unsealHidesTheKeyError_s.mem)).length % 128 = 0 ∧ candidates (stripZeros []) = [] ∧
      (withCaps 172 63 128 vaultText []).latch.dst.len < [k1].length * 64 := by
  and_intros <;> decide +kernel

def base64CommandsConvertSrc_s : State := demo (opsFor 4 8 0) [0x5A, 0x67, 0x3D, 0x3D] []
theorem witness_Base64CommandsConvertSrc :
    RegionsOk base64CommandsConvertSrc_s (base64CommandsConvertSrc_s.latch.row .b64e) ∧ base64Length base64CommandsConvertSrc_s.latch.src.len ≤ base64CommandsConvertSrc_s.latch.dst.len ∧ RegionsOk base64CommandsConvertSrc_s (base64CommandsConvertSrc_s.latch.row .b64d) ∧
      base64Valid (base64CommandsConvertSrc_s.latch.src.bytes base64CommandsConvertSrc_s.mem) = true ∧
      (base64Decode (base64CommandsConvertSrc_s.latch.src.bytes base64CommandsConvertSrc_s.mem)).length ≤ base64CommandsConvertSrc_s.latch.dst.len := by
  and_intros <;> decide +kernel

def beforeEnc : State := withCaps 1 88 64 [0x41] []

theorem witness_EncWritesTheArtifact : RegionsOk beforeEnc (beforeEnc.latch.row .enc) ∧
    KeysOk beforeEnc (beforeEnc.latch.row .enc) [k1] 64 ∧
    paddedLength beforeEnc.latch.src.len 64 ≤ beforeEnc.latch.scr.len ∧
    base64Length (paddedLength beforeEnc.latch.src.len 64) ≤ beforeEnc.latch.dst.len := by
  and_intros <;> decide +kernel
def decReadsTheArtifact_s : State := withCaps 88 64 64 artifact []
theorem witness_DecReadsTheArtifact :
    RegionsOk decReadsTheArtifact_s (decReadsTheArtifact_s.latch.row .dec) ∧ KeysOk decReadsTheArtifact_s (decReadsTheArtifact_s.latch.row .dec) [k1] 64 ∧
      base64Valid (decReadsTheArtifact_s.latch.src.bytes decReadsTheArtifact_s.mem) = true ∧
      (base64Decode (decReadsTheArtifact_s.latch.src.bytes decReadsTheArtifact_s.mem)).length ≤ decReadsTheArtifact_s.latch.scr.len ∧
      (base64Decode (decReadsTheArtifact_s.latch.src.bytes decReadsTheArtifact_s.mem)).length % 64 = 0 ∧
      (base64Decode (decReadsTheArtifact_s.latch.src.bytes decReadsTheArtifact_s.mem)).length ≤ decReadsTheArtifact_s.latch.dst.len := by
  and_intros <;> decide +kernel

/-- V2 and V3: the one block of `Forward`, and a zero block. -/
theorem witness_ForwardChainsBlocks : k1 ≠ [] ∧ (0 + 1) * k1.length ≤ (forward [0x41] k1).length ∧
    blockOf k1.length (zeros 64) 0 = zeros k1.length ∧ k1.length ∣ 64 ∧ k1.length ∣ 0 := by
  and_intros <;> decide +kernel
theorem witness_InverseUnchainsBlocks : k1 ≠ [] ∧ k1.length ∣ v6.length ∧ (1 + 1) * k1.length ≤ v6.length := by
  and_intros <;> decide +kernel
/-- R135 and R136: two keys that the order of the passes tells apart. -/
theorem test_cascade_order : cascadeForward [9, 9] [[1, 2], [4]] = forward (forward [9, 9] [1, 2]) [4] ∧
    cascadeInverse [9, 9] [[1, 2], [4]] = inverse (inverse [9, 9] [4]) [1, 2] ∧
    forward (forward [9, 9] [1, 2]) [4] ≠ forward (forward [9, 9] [4]) [1, 2] := by decide +kernel
theorem witness_CipherRoundTrips : k1 ≠ [] ∧ ValidKeys [k1, k2] 64 ∧ k1.length ∣ v2.length := by
  and_intros <;> decide +kernel
theorem witness_FirstBlockIgnoresKeyOrder : ValidKeys [k1, k2] 64 ∧ [k1, k2].Perm [k2, k1] :=
  ⟨by decide +kernel, .swap _ _ _⟩

/-- K-7 and K-2, K-6, K-4, K-12. -/
theorem witness_ValidationReportsTheFirstDefect :
    (List.length ([] : Bytes) = 0 ∧ (List.replicate 50 (0x61 : Byte)).length % 64 ≠ 0) ∧
    (k1.length ≠ 0 ∧ k1.length % 64 = 0 ∧ [k1, []][1]? = some [] ∧ ([] : Bytes).length ≠ k1.length ∧
      ∀ i < 1, ∀ p ∈ [k1, []][i]?, p.length = k1.length) ∧
    ((∀ q ∈ [k1, List.replicate 64 0x67], q.length = k1.length) ∧
      (∃ c ∈ List.replicate 64 (0x67 : Byte), ¬ IsHexChar c) ∧
      ∀ i < 1, ∀ p ∈ [k1, List.replicate 64 0x67][i]?, ∀ c ∈ p, IsHexChar c) ∧
    ∀ q ∈ [k1, k2], ∀ c ∈ q, IsHexChar c := by
  and_intros <;> decide +kernel

theorem witness_Base64ValidityIsPositional : (4 ≤ [0x5A, 0x67, 0x3D, 0x3D].length) ∧
    1 < [0x5A, 0x67, 0x3D, 0x3D].length - 2 := by decide
theorem witness_Base64DecodingInvertsEncoding : base64Valid [0x5A, 0x67, 0x3D, 0x3D] = true ∧ base64Valid [] = true ∧
    0 < 26 ∧ 25 < 26 ∧ 0 < 10 ∧ 9 < 10 := by
  and_intros <;> decide +kernel
/-- R12. -/
theorem test_hexText : hexText [0x4F, 0xA0] = [0x34, 0x66, 0x61, 0x30] := by decide
theorem witness_HexTextIsLowerCaseHighHalfFirst : ([0x4F, 0xA0] : Bytes)[0]? = some 0x4F ∧
    ([0x4F, 0xA0] : Bytes)[1]? = some 0xA0 := by decide

/-! ### The end of a run (R305) -/

theorem witness_RunsEndAfterTheLastStatement_ended : runningFwd.host.pending = [] ∧ runningFwd.busy = true ∧
    (∀ w ∈ (runningFwd.latch.row .fwd).writes, ¬ w.Covers 64) := by
  and_intros <;> decide +kernel
theorem witness_RunsEndAfterTheLastStatement_decode : decode runningFwd.latch.cmd = .ok .fwd := by rfl
theorem witness_RunsEndAfterTheLastStatement_goesOn : (idleWith [.idle]).host.pending ≠ [] ∧
    step (idleWith [.idle]) = .next (landed (step (idleWith [.idle]))) :=
  ⟨by decide +kernel, eq_next_landed (by decide +kernel)⟩
theorem witness_RunsEndAfterTheLastStatement_idle : State.reset.busy = false ∧ runningIllegal.host.pending = [] := by
  and_intros <;> decide +kernel
theorem witness_RunsEndAfterTheLastStatement_illegal : decode runningIllegal.latch.cmd = .error .depadNotAllowed := by rfl
/-- A program whose last command still runs ends there, the command not completed. -/
theorem test_run_ends_busy : (runningFwd.endState.busy, runningFwd.endState.done, runningFwd.endState.resultLen) =
    (true, false, 0) := by decide +kernel

def generatedKeysAreValid_s : State := demo (opsFor 0 64 0) [] (steady 0 32)
theorem witness_GeneratedKeysAreValid :
    generatedKeysAreValid_s.mem.wf ∧ generatedKeysAreValid_s.latch.ops.kgCount ≠ 0 ∧ goesOn (exec .kgen generatedKeysAreValid_s) = true ∧ (landed (exec .kgen generatedKeysAreValid_s)).err = .success := by
  and_intros <;> decide +kernel

/-- The state of `s`'s memory with SRC at the text a command wrote to 0x000, and DST at 0x600. -/
def reading (t : State) (scrCap dstCap : Word) : State :=
  { t with latch := { cmd := 0, ops := { t.latch.ops with
    srcAddr := 0x000, srcLen := t.resultLen, scrCap := scrCap, dstAddr := 0x600, dstCap := dstCap } } }

def afterEnc : State := landed (exec .enc beforeEnc)

def artifactsRoundTrip_u : State := reading afterEnc 64 64
theorem witness_ArtifactsRoundTrip :
    beforeEnc.mem.wf ∧ goesOn (exec .enc beforeEnc) = true ∧ afterEnc.err = .success ∧ artifactsRoundTrip_u.mem = afterEnc.mem ∧
      artifactsRoundTrip_u.params = beforeEnc.params ∧ artifactsRoundTrip_u.latch.ops.srcAddr = beforeEnc.latch.ops.dstAddr ∧
      artifactsRoundTrip_u.latch.ops.srcLen = afterEnc.resultLen ∧ artifactsRoundTrip_u.latch.ops.keytabAddr = beforeEnc.latch.ops.keytabAddr ∧
      artifactsRoundTrip_u.latch.ops.keyCount = beforeEnc.latch.ops.keyCount ∧ RegionsOk artifactsRoundTrip_u (artifactsRoundTrip_u.latch.row .dec) ∧
      (∀ k < artifactsRoundTrip_u.latch.ops.keyCount.toNat, DescriptorOk artifactsRoundTrip_u (artifactsRoundTrip_u.latch.row .dec) k) ∧
      paddedLength beforeEnc.latch.src.len afterEnc.resultKlen.toNat ≤ artifactsRoundTrip_u.latch.scr.len ∧
      paddedLength beforeEnc.latch.src.len afterEnc.resultKlen.toNat ≤ artifactsRoundTrip_u.latch.dst.len := by
  and_intros <;> decide +kernel

/-- The state that unseals what `s` sealed. -/
def unsealing (s : State) : State := reading (landed (exec .vaultSeal s)) 128 64

/-- What the hypotheses of the vault's round trip ask of a sealing state, its salt, and the state that unseals. -/
abbrev VaultHypotheses (s : State) (salt : Bytes) : Prop :=
  s.mem.wf ∧ RegionsOk s (s.latch.row .vaultSeal) ∧ KeysOk s (s.latch.row .vaultSeal) [k1] 64 ∧
    s.entropy.draw (64 / 2) = (some salt, spent 32) ∧ goesOn (exec .vaultSeal s) = true ∧
    (landed (exec .vaultSeal s)).err = .success ∧
    (unsealing s).latch.ops.srcAddr = s.latch.ops.dstAddr ∧ (unsealing s).latch.ops.srcLen = (landed (exec .vaultSeal s)).resultLen ∧
      (unsealing s).latch.pwd.bytes (unsealing s).mem = s.latch.pwd.bytes s.mem ∧ RegionsOk (unsealing s) ((unsealing s).latch.row .vaultUnseal) ∧
      paddedLength (blobLength 64 [k1].length) 128 ≤ (unsealing s).latch.scr.len ∧ [k1].length * 64 ≤ (unsealing s).latch.dst.len

theorem witness_VaultsRoundTrip_reopens : VaultHypotheses beforeSeal (List.replicate 32 0x11) ∧
    SaltReopens (List.replicate 32 0x11) := by
  and_intros <;> decide +kernel
theorem witness_VaultsRoundTrip_lost : VaultHypotheses beforeBadSeal (0x0A :: List.replicate 31 0x11) ∧
    ¬ SaltReopens (0x0A :: List.replicate 31 0x11) := by
  and_intros <;> decide +kernel

/-- Two states that agree on what FWD reads, and differ in an unread key, the scratch registers and the host's side. -/
def otherFwd : State := { demoKeys k1 [] { opsFor 1 64 1 with scrCap := 7 } [0x41] [] with overrun := true }

theorem witness_CommandsDependOnTheirOperandsAlone : runningFwd.mem.wf ∧ otherFwd.mem.wf ∧
    runningFwd.params.bufSize = otherFwd.params.bufSize ∧
    runningFwd.latch.ops.readBy .fwd = otherFwd.latch.ops.readBy .fwd ∧
    (∀ g ∈ readRegions runningFwd .fwd, ∀ j < g.len, runningFwd.mem.read (g.addr + j) = otherFwd.mem.read (g.addr + j)) ∧
    runningFwd.mem ≠ otherFwd.mem := by
  and_intros <;> decide +kernel

/-- A running command meets the invariant, and steps. -/
theorem witness_StepKeepsTheInvariant : (runningWith 5 0 []).Inv ∧ goesOn (step (runningWith 5 0 [])) = true :=
  ⟨⟨by decide +kernel, by decide +kernel, by decide +kernel, by decide +kernel, by decide +kernel, by decide +kernel,
    by decide +kernel, by decide +kernel⟩, by decide +kernel⟩

end Sys2Proof.Tests
end

section
/-!
PROOFS. The statements of 00_scope.md: hex text (R12) and the three reference digests (R5, R201).
-/

namespace Sys2Proof.Machine

/-! ### Hex text -/

/-- R12's string `0123456789abcdef`, as the statement writes it. -/
def hexAlphabet : Bytes :=
  [0x30, 0x31, 0x32, 0x33, 0x34, 0x35, 0x36, 0x37, 0x38, 0x39, 0x61, 0x62, 0x63, 0x64, 0x65, 0x66]

/-- `hexDigit` is the alphabet's lookup at every half's value. -/
theorem hexAlphabet_getElem? : ∀ h < 16, hexAlphabet[h]? = some (hexDigit h) := by decide

/-- Byte `i` of a string is at positions `2 * i` and `2 * i + 1` of its hex text, the high half first. -/
theorem hexText_getElem? (x : Bytes) (i : Nat) :
    (hexText x)[2 * i]? = x[i]?.map (fun b => hexDigit (b.toNat / 16)) ∧
      (hexText x)[2 * i + 1]? = x[i]?.map (fun b => hexDigit (b.toNat % 16)) := by
  induction x generalizing i with
  | nil => simp [hexText]
  | cons b x ih =>
    cases i with
    | zero => simp [hexText]
    | succ i => simpa [hexText, Nat.mul_succ] using ih i

theorem byte_highHalf_toNat (b : Byte) : (b.extractLsb' 4 4).toNat = b.toNat / 16 := by
  have hb := b.isLt
  rw [BitVec.extractLsb'_toNat, Nat.shiftRight_eq_div_pow]
  omega

theorem byte_lowHalf_toNat (b : Byte) : (b.extractLsb' 0 4).toNat = b.toNat % 16 :=
  BitVec.extractLsb'_toNat 0 4 b

/-- Settles O59: byte `i`'s two characters are the digits of its halves, and each half is below 16, where `hexDigit`
is the lookup in R12's string. -/
theorem hexTextIsLowerCaseHighHalfFirst : Obligations.HexTextIsLowerCaseHighHalfFirst := by
  intro x
  refine ⟨hexText_length x, fun i b hxi => ?_⟩
  obtain ⟨hhigh, hlow⟩ := hexText_getElem? x i
  have hb := b.isLt
  rw [hhigh, hlow, hxi, byte_highHalf_toNat, byte_lowHalf_toNat]
  exact ⟨(hexAlphabet_getElem? _ (by omega)).symm, (hexAlphabet_getElem? _ (by omega)).symm⟩

/-! ### Reference digests

Closed values: each digest is computed by the kernel, one lemma a vector. -/

/-- The SHA-256 digest of 32 zero bytes (95_test_vectors.md section 2.4). -/
theorem hash256_zeros_32 : hash256 (zeros 32) =
    bigEndianBytes 32 0x66687aadf862bd776c8fc18b8e9f8e20089714856ee233b3902a591d0d5f2925 := by
  decide +kernel

/-- The SHA-512 digest of 64 zero bytes (95_test_vectors.md section 2.4). -/
theorem hash512_zeros_64 : hash512 (zeros 64) =
    bigEndianBytes 64 0x7be9fda48f4179e611c698a73cff09faf72869431efee6eaad14de0cb44bbf66503f752b7a8eb17083355f3ce6eb7d2806f236b25af96a24e22b887405c20081 := by
  decide +kernel

/-- The SHA-512 digest of the password `pw` (95_test_vectors.md section 2.5). -/
theorem hash512_pw : hash512 [0x70, 0x77] =
    bigEndianBytes 64 0xbe196838736ddfd0007dd8b2e8f46f22d440d4c5959925cb49135abc9cdb01e84961aa43dd0ddb6ee59975eb649280d9f44088840af37451828a6412b9b574fc := by
  decide +kernel

/-- Settles O52, from the three vectors. -/
theorem digestsMatchTheReference : Obligations.DigestsMatchTheReference :=
  ⟨hash256_zeros_32, hash512_zeros_64, hash512_pw⟩

end Sys2Proof.Machine
end

section
/-!
PROOFS. The register block (10_state.md R32 to R50): what an access of each offset reaches, STATUS, and the registers
right after reset (R59).
-/

namespace Sys2Proof.Machine

/-! ### The register at an offset -/

/-- An aligned 32-bit access of the block reaches the register at its offset (R73). -/
theorem busTarget_register (p : Params) {k : Nat} (hk : k < 64) :
    busTarget p .word (p.regBase + 4 * k) = .register (regAt k) := by
  have hin : p.regBase ≤ p.regBase + 4 * k ∧ p.regBase + 4 * k < p.regBase + registerBlockSize := by
    unfold registerBlockSize
    omega
  have halign : (p.regBase + 4 * k - p.regBase) % 4 = 0 := by omega
  have hindex : (p.regBase + 4 * k - p.regBase) / 4 = k := by omega
  rw [busTarget, if_pos hin, if_pos ⟨rfl, halign⟩, hindex]

theorem hostRead_register (s : State) {k : Nat} (hk : k < 64) :
    s.hostRead .word (s.params.regBase + 4 * k) = .next (s.deliver (s.readReg (regAt k))) := by
  rw [State.hostRead, busTarget_register s.params hk]

theorem hostWrite_register (s : State) (v : Word) {k : Nat} (hk : k < 64) :
    s.hostWrite .word (s.params.regBase + 4 * k) v = .next (s.writeReg (regAt k) v) := by
  rw [State.hostWrite, busTarget_register s.params hk]

/-- Every word index from 20 on is reserved (R50). -/
theorem regAt_reserved {k : Nat} (hk : 20 ≤ k) : regAt k = .reserved := by
  obtain ⟨n, rfl⟩ := Nat.exists_eq_add_of_le' hk
  rfl

/-! ### Reads -/

/-- The words of the 20 registers, in the order of their offsets (R32). -/
def State.registerWords (s : State) : List Word :=
  [0x45454107, if s.ie then 1 else 0, s.statusWord, s.cmd] ++ s.ops.toList ++
    [s.resultLen, s.resultCount, s.resultKlen, s.errInfo]

theorem State.registerWords_length (s : State) : s.registerWords.length = 20 := rfl

/-- CTRL reads as `IE` in bit 0 (R34). -/
theorem State.ctrlWord_eq (s : State) : s.ctrlWord = if s.ie then 1 else 0 := by
  unfold State.ctrlWord
  cases s.ie <;> rfl

/-- A register reads as its entry in the list, a reserved offset as 0. -/
theorem readReg_regAt (s : State) (k : Nat) : s.readReg (regAt k) = s.registerWords.getD k 0 := by
  by_cases hk : k < 20
  · interval_cases k
    on_goal 2 => exact s.ctrlWord_eq
    all_goals rfl
  · have hlen : s.registerWords.length ≤ k := by
      rw [s.registerWords_length]
      omega
    rw [regAt_reserved (by omega), List.getD_eq_default _ _ hlen]
    rfl

/-- Settles O9: the access reaches the register at its offset, and the register reads as its entry. -/
theorem registerReadsFollowTheMap : Obligations.RegisterReadsFollowTheMap := by
  intro s k hk
  rw [hostRead_register s hk, readReg_regAt]
  rfl

/-! ### Writes -/

/-- A write of an operand register stores the word in its place and nothing else (R42 to R47, R87). -/
theorem writeReg_operand (s : State) (v : Word) {k : Nat} (hlo : 4 ≤ k) (hhi : k < 16) :
    ∃ ops : Operands, s.writeReg (regAt k) v = { s with ops := ops } ∧ ops.toList = s.ops.toList.set (k - 4) v := by
  interval_cases k <;> exact ⟨_, rfl, rfl⟩

/-- Writes of ID, the results, ERR_INFO and the reserved offsets are ignored (R33, R48 to R50). -/
theorem writeReg_readOnly (s : State) (v : Word) {k : Nat} (hk : k = 0 ∨ 16 ≤ k) : s.writeReg (regAt k) v = s := by
  rcases hk with rfl | hk
  · rfl
  · by_cases h20 : 20 ≤ k
    · rw [regAt_reserved h20]
      rfl
    · have hlt : k < 20 := by omega
      interval_cases k <;> rfl

/-- Settles O10: each write reaches the register at its offset, and that register's rule applies. -/
theorem registerWritesStoreOrAreIgnored : Obligations.RegisterWritesStoreOrAreIgnored := by
  refine fun s v => ⟨fun k hlo hhi => ?_, ?_, fun k hk => ?_⟩
  · obtain ⟨ops, hwrite, hops⟩ := writeReg_operand s v hlo hhi
    exact ⟨ops, by rw [hostWrite_register s v (by omega), hwrite], hops⟩
  · exact hostWrite_register s v (k := 1) (by decide)
  · rw [hostWrite_register s v (by omega), writeReg_readOnly s v (by omega)]

/-! ### STATUS -/

/-- STATUS bit by bit (R35 to R40). -/
theorem State.statusWord_getLsbD (s : State) (k : Nat) : s.statusWord.getLsbD k =
    if k = 0 then s.busy else if k = 1 then s.done else if k = 2 then s.overrun else if k = 3 then s.entropy.ready
    else if 8 ≤ k ∧ k < 16 then s.err.value.getLsbD (k - 8) else false := by
  simp only [State.statusWord, BitVec.getLsbD_append, BitVec.getLsbD_ofBool]
  rcases Nat.lt_or_ge k 4 with hlow | hhigh
  · interval_cases k <;> simp
  · have hne : k ≠ 0 ∧ k ≠ 1 ∧ k ≠ 2 ∧ k ≠ 3 := by omega
    grind

/-- Settles O11, from the bits of STATUS and the write of the register at offset 0x08. -/
theorem statusReadsItsFieldsAndClearsByOnes : Obligations.StatusReadsItsFieldsAndClearsByOnes := by
  refine ⟨fun s => ⟨?_, ?_, ?_, ?_, ?_, fun k hk => ?_⟩, fun s v => hostWrite_register s v (k := 2) (by decide)⟩
  case refine_5 =>
    refine BitVec.eq_of_getLsbD_eq fun j hj => ?_
    rw [BitVec.getLsbD_extractLsb', State.statusWord_getLsbD]
    grind
  all_goals
    rw [State.statusWord_getLsbD]
    grind

/-! ### Reset -/

/-- Settles O18: every register of the reset state but ID and STATUS holds 0, and STATUS holds RNG_OK only. -/
theorem resetLeavesTheListedValues : Obligations.ResetLeavesTheListedValues := by
  refine ⟨rfl, fun r hid hstatus => ?_, by decide, rfl, rfl⟩
  cases r with
  | id => exact absurd rfl hid
  | status => exact absurd rfl hstatus
  | _ => rfl

end Sys2Proof.Machine
end

section
/-!
PROOFS. What every command leaves beside memory: the registers it keeps (10_state.md R51; 20_memory.md R93), and what
its report can hold beside an error (R48, R49; 60_exceptions.md R261, R262, R278).
-/

namespace Sys2Proof.Machine

/-! ### The registers a command keeps -/

/-- Everything a command keeps outside memory and its report, and the completion itself. -/
structure CompletedFrom (s t : State) : Prop where
  busy : t.busy = false
  done : t.done = true
  params : t.params = s.params
  ie : t.ie = s.ie
  overrun : t.overrun = s.overrun
  cmd : t.cmd = s.cmd
  ops : t.ops = s.ops
  latch : t.latch = s.latch
  host : t.host = s.host
  accepted : t.accepted = s.accepted

theorem raise_completedFrom (s : State) (e : Raise) : CompletedFrom s (s.raise e) := by
  constructor <;> rfl

theorem succeed_completedFrom (s : State) (ent : Entropy) (m : Memory) (len count klen : Nat) :
    CompletedFrom s (({ s with entropy := ent } : State).succeed m len count klen) := by
  constructor <;> rfl

theorem raiseUnspecified_completedFrom (s : State) (ent : Entropy) (row : CommandRow) (c : ErrCode) :
    CompletedFrom s (({ s with entropy := ent } : State).raiseUnspecified row c) := by
  constructor <;> simp [State.raiseUnspecified]

theorem Ending.completedFrom {s t : State} {i : Instr} (h : Ending s i t) : CompletedFrom s t := by
  cases h with
  | checked e => exact raise_completedFrom s e
  | success ws ent len count klen => exact succeed_completedFrom s ent _ len count klen
  | unspecified ent c => exact raiseUnspecified_completedFrom s ent _ c

@[simp] theorem State.raiseUnspecified_entropy (s : State) (row : CommandRow) (c : ErrCode) :
    (s.raiseUnspecified row c).entropy = s.entropy := by
  simp [State.raiseUnspecified]

theorem Ending.entropyAfter {s t : State} {i : Instr} (h : Ending s i t) : EntropyAfter s i t.entropy := by
  cases h with
  | checked e => exact ⟨rfl, fun _ _ => rfl⟩
  | success ws ent len count klen hr hw he => exact he
  | unspecified ent c hr he hc =>
    rw [State.raiseUnspecified_entropy]
    exact he

/-- Settles O20: each of the three endings is a completion that keeps the rest. -/
theorem everyCommandCompletesAndKeepsTheRest : Obligations.EveryCommandCompletesAndKeepsTheRest := by
  intro i s
  obtain ⟨t, hexec, hend⟩ := exec_ending i s
  have h := hend.completedFrom
  exact ⟨t, hexec, h.busy, h.done, h.params, h.ie, h.overrun, h.cmd, h.ops, h.latch, h.host, h.accepted,
    hend.entropyAfter⟩

/-! ### Reports -/

/-- What a report can hold: an error that can be produced, no results beside an error, and an ERR_INFO only beside an
error that names a key (R48, R49, R278). -/
structure ReportOk (t : State) : Prop where
  produced : t.err ≠ .encodeFailed ∧ t.err ≠ .noData
  results : t.err ≠ .success → t.resultLen = 0 ∧ t.resultCount = 0 ∧ t.resultKlen = 0
  info : t.errInfo ≠ 0 → NamesKey t.err

theorem raise_reportOk (s : State) {e : Raise} (hcode : e.code ≠ .encodeFailed ∧ e.code ≠ .noData)
    (hinfo : e.info ≠ 0 → NamesKey e.code) : ReportOk (s.raise e) where
  produced := hcode
  results _ := ⟨rfl, rfl, rfl⟩
  info h := hinfo fun h0 => h (by simp [h0])

theorem succeed_reportOk (s : State) (m : Memory) (len count klen : Nat) : ReportOk (s.succeed m len count klen) where
  produced := ⟨nofun, nofun⟩
  results h := absurd rfl h
  info h := absurd rfl h

theorem ExecuteError.produced {i : Instr} {c : ErrCode} (h : ExecuteError i c) : c ≠ .encodeFailed ∧ c ≠ .noData := by
  rcases h with ⟨-, rfl⟩ | ⟨-, rfl | rfl⟩ <;> exact ⟨nofun, nofun⟩

theorem Ending.reportOk {s t : State} {i : Instr} (h : Ending s i t) : ReportOk t := by
  cases h with
  | checked e he =>
    obtain ⟨-, hencode, hdata, -, -, hinfo⟩ := he
    exact raise_reportOk s ⟨hencode, hdata⟩ hinfo
  | success ws ent len count klen => exact succeed_reportOk _ _ len count klen
  | unspecified ent c hr he hc => exact raise_reportOk _ hc.produced fun h0 => absurd rfl h0

/-! ### Commands without keys name no key (R49, R214) -/

/-- An error of a command that reads no keys: ERR_INFO 0, and no key error. -/
abbrev Raise.Keyless (e : Raise) : Prop :=
  e.info = 0 ∧ e.code ≠ .noKeys ∧ e.code ≠ .invalidLength ∧ e.code ≠ .lengthMismatch ∧ e.code ≠ .invalidKey

/-- The report of a command that reads no keys. -/
abbrev State.KeylessReport (t : State) : Prop :=
  t.errInfo = 0 ∧ t.err ≠ .noKeys ∧ t.err ≠ .invalidLength ∧ t.err ≠ .lengthMismatch ∧ t.err ≠ .invalidKey

/-- A check phase that raises keyless errors only, and whatever it goes on to satisfies `P`. -/
abbrev KeylessPhase {α : Type} (P : α → Prop) : Except Raise α → Prop
  | .ok a => P a
  | .error e => e.Keyless

theorem keylessPhase_bind {α β : Type} {P : α → Prop} {Q : β → Prop} {x : Except Raise α} {f : α → Except Raise β}
    (hx : KeylessPhase P x) (hf : ∀ a, P a → KeylessPhase Q (f a)) : KeylessPhase Q (x >>= f) := by
  cases x with
  | ok a => exact hf a hx
  | error e => exact hx

theorem keylessPhase_demand (p : Prop) [Decidable p] {c : ErrCode} (hc : Raise.Keyless { code := c }) :
    KeylessPhase (fun _ => True) (demand p c) := by
  by_cases hp : p
  · rw [demand_of hp]
    trivial
  · rw [demand_of_not hp]
    exact hc

theorem keylessPhase_checkRegions (size : Nat) (row : CommandRow) :
    KeylessPhase (fun _ => True) (checkRegions size row) := by
  cases h : checkRegions size row with
  | ok u => trivial
  | error e =>
    obtain ⟨hcode, hinfo⟩ := checkRegions_error h
    rcases hcode with hcode | hcode | hcode <;> exact ⟨hinfo, by simp [hcode]⟩

theorem conclude_keyless {s t : State} {x : Except Raise State} (hx : KeylessPhase State.KeylessReport x)
    (h : s.conclude x = .next t) : t.KeylessReport := by
  rcases conclude_cases h with rfl | ⟨e, rfl, rfl⟩
  · exact hx
  · obtain ⟨hinfo, hcode⟩ := hx
    exact ⟨by simp [hinfo], hcode⟩

theorem succeed_keyless (s : State) (m : Memory) (len count klen : Nat) :
    (s.succeed m len count klen).KeylessReport :=
  ⟨rfl, nofun, nofun, nofun, nofun⟩

theorem raiseUnspecified_keyless (s : State) (row : CommandRow) {c : ErrCode} (hc : Raise.Keyless { code := c }) :
    (s.raiseUnspecified row c).KeylessReport :=
  ⟨rfl, hc.2⟩

theorem planGeneration_keyless (s : State) : KeylessPhase (fun _ => True) (planGeneration s) :=
  keylessPhase_bind (keylessPhase_checkRegions _ _) fun _ _ =>
    keylessPhase_bind (keylessPhase_demand _ (by decide)) fun _ _ =>
      keylessPhase_bind (keylessPhase_demand _ (by decide)) fun _ _ => trivial

theorem generate_keyless (s : State) (p : GenerationPlan) : (generate s p).KeylessReport := by
  unfold generate
  split
  · exact raiseUnspecified_keyless _ _ (by decide)
  · exact succeed_keyless _ _ _ _ _

theorem unsealVault_keyless (s : State) (x : Bytes) : (unsealVault s x).KeylessReport := by
  unfold unsealVault
  dsimp only
  split
  · exact raiseUnspecified_keyless _ _ (by decide)
  · split
    · exact succeed_keyless _ _ _ _ _
    · exact raiseUnspecified_keyless _ _ (by decide)

theorem exec_keyless {i : Instr} {s t : State} (hi : keyed i = false) (h : exec i s = .next t) : t.KeylessReport := by
  cases i with
  | kgen =>
    exact conclude_keyless (keylessPhase_bind (planGeneration_keyless s) fun p _ => generate_keyless s p) h
  | vaultUnseal =>
    refine conclude_keyless ?_ h
    exact keylessPhase_bind (keylessPhase_checkRegions _ _) fun _ _ =>
      keylessPhase_bind (keylessPhase_demand _ (by decide)) fun _ _ =>
        keylessPhase_bind (keylessPhase_demand _ (by decide)) fun _ _ =>
          keylessPhase_bind (keylessPhase_demand _ (by decide)) fun _ _ => unsealVault_keyless s _
  | b64e =>
    refine conclude_keyless ?_ h
    exact keylessPhase_bind (keylessPhase_checkRegions _ _) fun _ _ =>
      keylessPhase_bind (keylessPhase_demand _ (by decide)) fun _ _ => succeed_keyless _ _ _ _ _
  | b64d =>
    refine conclude_keyless ?_ h
    exact keylessPhase_bind (keylessPhase_checkRegions _ _) fun _ _ =>
      keylessPhase_bind (keylessPhase_demand _ (by decide)) fun _ _ =>
        keylessPhase_bind (keylessPhase_demand _ (by decide)) fun _ _ => succeed_keyless _ _ _ _ _
  | _ => cases hi

/-- Settles O24: the report of an ending, and that of a command without keys. -/
theorem errorReportsAreBlankButForTheKeyNumber : Obligations.ErrorReportsAreBlankButForTheKeyNumber := by
  intro i s t h
  have hreport := (ending_of_exec h).reportOk
  refine ⟨hreport.results, fun hinfo => ⟨?_, hreport.info hinfo⟩, hreport.produced.1, hreport.produced.2, fun hi =>
    (exec_keyless hi h).2⟩
  cases hi : keyed i with
  | true => rfl
  | false => exact absurd (exec_keyless hi h).1 hinfo

end Sys2Proof.Machine
end

section
/-!
PROOFS. The invariant of Safety.lean: it holds right after reset, and every step keeps it, whether the step completes
the command or serves the host.
-/

namespace Sys2Proof.Machine

/-- Settles O57: no register, no byte and no command is there to break it. -/
theorem invariantHoldsAtReset : Obligations.InvariantHoldsAtReset where
  params := by decide
  memCanonical := reset_mem_wf
  memInside := nofun
  errProduced := by decide
  busyReport := nofun
  busyCommand := nofun
  errorResults h := absurd rfl h
  errorInfo h := absurd rfl h

/-! ### The completion of a command -/

/-- A string that fits a write region in bounds is empty or ends inside buffer memory. -/
theorem FitsRow.inside {row : CommandRow} {w : Nat × Bytes} {size : Nat} (hw : FitsRow row w)
    (hin : ∀ r ∈ row.writes, r.InBounds size) : w.2 = [] ∨ w.1 + w.2.length ≤ size := by
  obtain ⟨r, hr, haddr, hlen⟩ := hw
  rcases hin r hr with hempty | hend
  · exact .inl (List.length_eq_zero_iff.1 (by omega))
  · exact .inr (by omega)

theorem Ending.mem_wf {s t : State} {i : Instr} (h : Ending s i t) (hs : s.mem.wf) : t.mem.wf := by
  cases h with
  | checked e => exact hs
  | success ws ent len count klen => exact applyWrites_wf hs ws
  | unspecified ent c => exact scramble_mem_wf (s := { s with entropy := ent }) hs _

theorem Ending.mem_within {s t : State} {i : Instr} (h : Ending s i t) (hs : s.mem.Within s.params.bufSize) :
    t.mem.Within s.params.bufSize := by
  cases h with
  | checked e => exact hs
  | success ws ent len count klen hr hw => exact applyWrites_within hs fun w hmem => (hw w hmem).inside hr.2.1
  | unspecified ent c => exact scramble_mem_within (s := { s with entropy := ent }) hs _

/-- A completion keeps the invariant when its report and its memory are in order: no command runs after it. -/
theorem CompletedFrom.inv {s t : State} (h : CompletedFrom s t) (hs : s.Inv) (hreport : ReportOk t) (hwf : t.mem.wf)
    (hin : t.mem.Within s.params.bufSize) : t.Inv where
  params := h.params ▸ hs.params
  memCanonical := hwf
  memInside := h.params ▸ hin
  errProduced := hreport.produced
  busyReport hb := by simp [h.busy] at hb
  busyCommand hb := by simp [h.busy] at hb
  errorResults := hreport.results
  errorInfo := hreport.info

theorem Ending.inv {s t : State} {i : Instr} (h : Ending s i t) (hs : s.Inv) : t.Inv :=
  h.completedFrom.inv hs h.reportOk (h.mem_wf hs.memCanonical) (h.mem_within hs.memInside)

theorem runLatched_inv {s t : State} (hs : s.Inv) (h : runLatched s = .next t) : t.Inv := by
  rcases runLatched_cases h with ⟨i, -, hexec⟩ | ⟨e, -, rfl⟩
  · exact (ending_of_exec hexec).inv hs
  · exact (raise_completedFrom s _).inv hs (raise_reportOk s ⟨nofun, nofun⟩ fun h0 => absurd rfl h0) hs.memCanonical
      hs.memInside

/-! ### The host's turn -/

/-- `s` with everything blanked that the invariant does not read: of the sequencer only its presence is left. -/
def State.erased (s : State) : State :=
  { s with
    ie := false
    overrun := false
    ops := Operands.zero
    sequencer := s.sequencer.map fun _ => Sequencer.start 0
    entropy := { ready := false, answers := [], drawn := 0 }
    host := { pending := [], received := [] }
    accepted := 0
    freeUsed := 0 }

theorem State.erased_busy (s : State) : s.erased.busy = s.busy := Option.isSome_map

theorem State.erased_inv_iff (s : State) : s.erased.Inv ↔ s.Inv := by
  constructor
  · intro h
    exact ⟨h.params, h.memCanonical, h.memInside, h.errProduced, fun hb => h.busyReport (s.erased_busy.trans hb),
      fun hb => h.busyCommand (s.erased_busy.trans hb), h.errorResults, h.errorInfo⟩
  · intro h
    exact ⟨h.params, h.memCanonical, h.memInside, h.errProduced, fun hb => h.busyReport (s.erased_busy.symm.trans hb),
      fun hb => h.busyCommand (s.erased_busy.symm.trans hb), h.errorResults, h.errorInfo⟩

/-- A change of blanked fields alone keeps the invariant. -/
theorem State.Inv.of_erased {s t : State} (hs : s.Inv) (h : t.erased = s.erased) : t.Inv :=
  t.erased_inv_iff.1 (h ▸ s.erased_inv_iff.2 hs)

/-- A change of memory to a canonical one inside the buffer keeps the invariant. -/
theorem State.Inv.withMem {s : State} (hs : s.Inv) {m : Memory} (hwf : m.wf) (hin : m.Within s.params.bufSize) :
    State.Inv { s with mem := m } :=
  { hs with memCanonical := hwf, memInside := hin }

theorem HostTurn.inv {s u : State} (h : HostTurn s u) (hs : s.Inv) : u.Inv := by
  cases h with
  | idle => exact hs
  | busy q n hq => exact hs.of_erased (by simp [State.erased, hq])

theorem writeStatus_inv {s : State} (hs : s.Inv) (v : Word) : (s.writeStatus v).Inv :=
  { hs with
    busyReport := fun hb => by
      obtain ⟨hdone, hreport⟩ := hs.busyReport hb
      exact ⟨by simp [hdone], hreport⟩ }

/-- Acceptance leaves a blank report and a latched CMD (R89). -/
theorem accept_inv {s : State} (hs : s.Inv) (w : Word) (n : Nat) : (s.accept w n).Inv where
  params := hs.params
  memCanonical := hs.memCanonical
  memInside := hs.memInside
  errProduced := ⟨nofun, nofun⟩
  busyReport _ := ⟨rfl, rfl, rfl, rfl, rfl, rfl⟩
  busyCommand _ := rfl
  errorResults h := absurd rfl h
  errorInfo h := absurd rfl h

theorem writeCmd_inv {s : State} (hs : s.Inv) (v : Word) : (s.writeCmd v).Inv := by
  unfold State.writeCmd
  split
  · exact hs.of_erased rfl
  · exact (accept_inv hs v (Config.latency s.accepted)).of_erased rfl

theorem writeReg_inv {s : State} (hs : s.Inv) (r : Reg) (v : Word) : (s.writeReg r v).Inv := by
  cases r with
  | status => exact writeStatus_inv hs v
  | cmd => exact writeCmd_inv hs v
  | _ => exact hs.of_erased rfl

theorem resetRegisters_inv {s : State} (hparams : s.params.Admitted) (hwf : s.mem.wf)
    (hin : s.mem.Within s.params.bufSize) : s.resetRegisters.Inv where
  params := hparams
  memCanonical := hwf
  memInside := hin
  errProduced := ⟨nofun, nofun⟩
  busyReport hb := by simp at hb
  busyCommand hb := by simp at hb
  errorResults h := absurd rfl h
  errorInfo h := absurd rfl h

/-- An abandoned command leaves canonical memory inside the same buffer (R291). -/
theorem abandon_mem {s : State} (hwf : s.mem.wf) (hin : s.mem.Within s.params.bufSize) :
    s.abandon.params = s.params ∧ s.abandon.mem.wf ∧ s.abandon.mem.Within s.params.bufSize := by
  unfold State.abandon
  split
  · exact ⟨rfl, hwf, hin⟩
  · exact ⟨State.scramble_params _ _, scramble_mem_wf (by exact hwf) _, scramble_mem_within (by exact hin) _⟩

theorem resetInput_inv {s : State} (hs : s.Inv) : s.resetInput.Inv := by
  unfold State.resetInput
  split
  · obtain ⟨hparams, hwf, hin⟩ := abandon_mem hs.memCanonical hs.memInside
    exact resetRegisters_inv (hparams ▸ hs.params) hwf (hparams ▸ hin)
  · exact resetRegisters_inv hs.params hs.memCanonical hs.memInside

theorem InputEffect.inv {u t : State} (h : InputEffect u t) (hu : u.Inv) : t.Inv := by
  cases h with
  | nothing => exact hu
  | delivered v => exact hu.of_erased rfl
  | read k v => exact hu.of_erased rfl
  | register r v => exact writeReg_inv hu r v
  | written off v hin =>
    exact hu.withMem (Memory.writeBytes_wf hu.memCanonical off v) (Memory.writeBytes_within hu.memInside (.inr hin))
  | reset => exact resetInput_inv hu
  | entropy b => exact hu.of_erased rfl

theorem serveHost_inv {u t : State} (hu : u.Inv) (h : serveHost u = .next t) : t.Inv := by
  rcases serveHost_cases h with hsame | ⟨x, rest, -, hinput⟩
  · cases hsame
    exact hu
  · exact (applyInput_effect hinput).inv (hu.of_erased rfl)

/-- Settles O58: a step is a completion or a host turn, and both keep the invariant. -/
theorem stepKeepsTheInvariant : Obligations.StepKeepsTheInvariant := by
  intro s t hs h
  rcases step_cases h with ⟨q, -, -, hrun⟩ | ⟨u, hturn, hserve⟩
  · exact runLatched_inv hs hrun
  · exact serveHost_inv (hturn.inv hs) hserve

end Sys2Proof.Machine
end

section
/-!
PROOFS. Draws of entropy (10_state.md R57; 60_exceptions.md R276): what a draw gives and uses up, how key derivation
(41_keys.md R174 to R177) is one draw, and the failed draw that ends KGEN and SEAL (R179; 42_vault.md R203).
-/

namespace Sys2Proof.Machine

/-! ### One draw -/

theorem Entropy.draw_succ_of_none {e : Entropy} (h : e.answer = none) (n : Nat) :
    e.draw (n + 1) = (none, e.advance) := by
  simp [Entropy.draw, h]

theorem Entropy.draw_succ_of_some {e : Entropy} {b : Byte} (h : e.answer = some b) (n : Nat) :
    e.draw (n + 1) = ((e.advance.draw n).1.map (b :: ·), (e.advance.draw n).2) := by
  simp only [Entropy.draw, h]
  cases e.advance.draw n with
  | mk o e' => cases o <;> rfl

/-- Listed bytes are given in order, and the source moves on past them. -/
theorem Entropy.draw_listed {bytes : Bytes} {e : Entropy} {rest : List (Option Byte)}
    (h : e.answers = bytes.map some ++ rest) :
    e.draw bytes.length = (some bytes, { e with answers := rest, drawn := e.drawn + bytes.length }) := by
  induction bytes generalizing e with
  | nil =>
    obtain rfl : e.answers = rest := h
    rfl
  | cons b bytes ih =>
    have hanswer : e.answer = some b := by simp [Entropy.answer, h]
    have hnext : e.advance.answers = bytes.map some ++ rest := by simp [Entropy.advance, h]
    rw [List.length_cons, Entropy.draw_succ_of_some hanswer, ih hnext]
    simp [Entropy.advance, Nat.add_assoc, Nat.add_comm]

/-- The first failure ends a draw, and the bytes before it are lost. -/
theorem Entropy.draw_failing {lost : Bytes} {e : Entropy} {rest : List (Option Byte)} {n : Nat}
    (h : e.answers = lost.map some ++ none :: rest) (hn : lost.length < n) :
    e.draw n = (none, { e with answers := rest, drawn := e.drawn + (lost.length + 1) }) := by
  obtain ⟨n, rfl⟩ := Nat.exists_eq_add_of_lt hn
  induction lost generalizing e with
  | nil =>
    have hanswer : e.answer = none := by simp [Entropy.answer, h]
    rw [Entropy.draw_succ_of_none hanswer]
    simp [Entropy.advance, h]
  | cons b lost ih =>
    have hanswer : e.answer = some b := by simp [Entropy.answer, h]
    have hnext : e.advance.answers = lost.map some ++ none :: rest := by simp [Entropy.advance, h]
    rw [Entropy.draw_succ_of_some hanswer, List.length_cons, Nat.add_right_comm, ih hnext (by omega)]
    simp [Entropy.advance, Nat.add_assoc, Nat.add_comm]

/-- Beyond the listed answers each answer is a free value. -/
theorem Entropy.draw_one_free {e : Entropy} (h : e.answers = []) :
    e.draw 1 = ((Config.entropyAnswer e.drawn).map (fun b => [b]), { e with drawn := e.drawn + 1 }) := by
  have hanswer : e.answer = Config.entropyAnswer e.drawn := by simp [Entropy.answer, h]
  have hnext : e.advance = { e with drawn := e.drawn + 1 } := by simp [Entropy.advance, h]
  rw [← hnext]
  cases hfree : Config.entropyAnswer e.drawn with
  | none => exact Entropy.draw_succ_of_none (hanswer.trans hfree) 0
  | some b => exact Entropy.draw_succ_of_some (hanswer.trans hfree) 0

/-! ### A longer draw goes on where a shorter one ends -/

theorem Entropy.draw_add_of_some {e e' : Entropy} {m : Nat} {x : Bytes} (h : e.draw m = (some x, e')) (n : Nat) :
    e.draw (m + n) = ((e'.draw n).1.map (fun y => x ++ y), (e'.draw n).2) := by
  induction m generalizing e x with
  | zero =>
    cases h
    simp
  | succ m ih =>
    cases hanswer : e.answer with
    | none => simp [Entropy.draw_succ_of_none hanswer] at h
    | some b =>
      rw [Entropy.draw_succ_of_some hanswer] at h
      cases hd : e.advance.draw m with
      | mk o e2 =>
        rw [hd] at h
        cases o with
        | none => simp at h
        | some y =>
          cases h
          rw [Nat.add_right_comm, Entropy.draw_succ_of_some hanswer, ih hd]
          simp [Function.comp_def]

theorem Entropy.draw_add_of_none {e e' : Entropy} {m : Nat} (h : e.draw m = (none, e')) (n : Nat) :
    e.draw (m + n) = (none, e') := by
  induction m generalizing e with
  | zero => cases h
  | succ m ih =>
    rw [Nat.add_right_comm]
    cases hanswer : e.answer with
    | none =>
      rw [Entropy.draw_succ_of_none hanswer] at h ⊢
      exact h
    | some b =>
      rw [Entropy.draw_succ_of_some hanswer] at h ⊢
      cases hd : e.advance.draw m with
      | mk o e2 =>
        rw [hd] at h
        cases o with
        | none =>
          cases h
          rw [ih hd]
          rfl
        | some y => simp at h

/-! ### Key derivation is one draw -/

theorem deriveSegments_zero (fuel : Nat) (acc : Bytes) (e : Entropy) : deriveSegments fuel 0 acc e = (some acc, e) := by
  cases fuel <;> simp [deriveSegments]

/-- The segments of a key of `units` times 256 bits hash the bytes of one draw (R174, R175). -/
theorem deriveSegments_eq_draw (units fuel : Nat) (acc : Bytes) (e : Entropy) (hfuel : units ≤ fuel) :
    deriveSegments fuel (256 * units) acc e =
      ((e.draw (32 * units)).1.map (fun x => acc ++ keyOfSeed units x), (e.draw (32 * units)).2) := by
  induction units using Nat.twoStepInduction generalizing fuel acc e with
  | zero =>
    rw [deriveSegments_zero]
    simp [Entropy.draw, keyOfSeed]
  | one =>
    obtain ⟨fuel, rfl⟩ := Nat.exists_eq_add_of_le' hfuel
    rw [deriveSegments, if_neg (by decide), if_neg (by decide)]
    cases hd : e.draw 32 with
    | mk o e' =>
      cases o with
      | none => simp
      | some seed =>
        have htake : seed.take 32 = seed := List.take_of_length_le (Entropy.draw_length hd).le
        simp [deriveSegments_zero, keyOfSeed, htake]
  | more units ih _ =>
    obtain ⟨fuel, rfl⟩ : ∃ f, fuel = f + 1 := ⟨fuel - 1, by omega⟩
    rw [deriveSegments, if_neg (by omega), if_pos (by omega),
      show 256 * (units + 2) - 512 = 256 * units by omega, show 32 * (units + 2) = 64 + 32 * units by omega]
    cases hd : e.draw 64 with
    | mk o e' =>
      cases o with
      | none => simp [Entropy.draw_add_of_none hd]
      | some seed =>
        have hlen : seed.length = 64 := Entropy.draw_length hd
        rw [Entropy.draw_add_of_some hd]
        simp [ih fuel _ e' (by omega), keyOfSeed, Function.comp_def, hlen]

theorem deriveKey_eq_draw {bits : Nat} (hb : bits % 256 = 0) (e : Entropy) :
    deriveKey bits e = ((e.draw (bits / 8)).1.map (keyOfSeed (bits / 256)), (e.draw (bits / 8)).2) := by
  obtain ⟨units, rfl⟩ : ∃ units, bits = 256 * units := ⟨bits / 256, by omega⟩
  rw [deriveKey, show 256 * units / 256 = units by omega, show 256 * units / 8 = 32 * units by omega,
    deriveSegments_eq_draw units units [] e le_rfl]
  rfl

/-- KGEN's keys hash the bytes of one draw, `bits / 8` of them a key (R176, R177). -/
theorem deriveKeys_eq_draw {bits : Nat} (hb : bits % 256 = 0) (n : Nat) (e : Entropy) :
    deriveKeys bits n e =
      ((e.draw (n * (bits / 8))).1.map (keysOfSeeds bits n), (e.draw (n * (bits / 8))).2) := by
  induction n generalizing e with
  | zero => simp [deriveKeys, Entropy.draw, keysOfSeeds]
  | succ n ih =>
    rw [deriveKeys, deriveKey_eq_draw hb, Nat.succ_mul, Nat.add_comm (n * (bits / 8))]
    cases hd : e.draw (bits / 8) with
    | mk o e' =>
      cases o with
      | none => simp [Entropy.draw_add_of_none hd]
      | some seed =>
        have hlen : seed.length = bits / 8 := Entropy.draw_length hd
        rw [Entropy.draw_add_of_some hd]
        simp only [Option.map_some, ih e']
        cases e'.draw (n * (bits / 8)) with
        | mk o e2 => cases o <;> simp [keysOfSeeds, hlen]

/-! ### A failed draw ends KGEN and SEAL -/

/-- Unspecified regions change memory and the model's own counter only. -/
theorem State.scramble_eq (s : State) (rs : List Region) :
    s.scramble rs = { s with mem := (s.scramble rs).mem, freeUsed := (s.scramble rs).freeUsed } := by
  induction rs generalizing s with
  | nil => rfl
  | cons r rs ih => exact ih (s.scrambleRegion r)

/-- An execute-phase error is a report with results 0, and memory is kept outside the write regions (R81, R262). -/
theorem raiseUnspecified_eq_ended (s : State) (row : CommandRow) (c : ErrCode) :
    ∃ (m : Memory) (f : Nat), s.raiseUnspecified row c = ended { s with freeUsed := f } m c 0 0 0 0 ∧
      ∀ a, (∀ w ∈ row.writes, ¬ w.Covers a) → m.read a = s.mem.read a := by
  refine ⟨(s.scramble row.writes).mem, (s.scramble row.writes).freeUsed, ?_, fun a => scramble_mem_read⟩
  rw [State.raiseUnspecified, State.scramble_eq]
  rfl

theorem execKgen_eq_generate {s : State} {p : GenerationPlan} (h : planGeneration s = .ok p) :
    execKgen s = .next (generate s p) := by
  rw [execKgen, h]
  rfl

theorem execSeal_eq_sealVault {s : State} {p : SealPlan} (h : planSeal s = .ok p) :
    execSeal s = .next (sealVault s p) := by
  rw [execSeal, h]
  rfl

theorem generate_of_failed_draw {s : State} {p : GenerationPlan} {e : Entropy} (hb : p.bits % 256 = 0)
    (hdraw : s.entropy.draw (p.count * (p.bits / 8)) = (none, e)) :
    generate s p = ({ s with entropy := e } : State).raiseUnspecified s.latch.generateRow .randomBytes := by
  simp [generate, deriveKeys_eq_draw hb, hdraw]

theorem sealVault_of_failed_draw {s : State} {p : SealPlan} {e : Entropy}
    (hdraw : s.entropy.draw (p.keySet.len / 2) = (none, e)) :
    sealVault s p = ({ s with entropy := e } : State).raiseUnspecified s.latch.sealRow .randomBytes := by
  simp [sealVault, hdraw]

/-- The bytes SEAL stores at SCR (R205, R206). -/
def sealedBytes (s : State) (p : SealPlan) (salt : Bytes) : Bytes :=
  sealRounds (vaultBlob salt p.keySet.keys) (passKey (s.latch.pwd.bytes s.mem))

theorem sealVault_of_draw {s : State} {p : SealPlan} {salt : Bytes} {e : Entropy}
    (hdraw : s.entropy.draw (p.keySet.len / 2) = (some salt, e)) :
    sealVault s p = ({ s with entropy := e } : State).succeed
      (applyWrites s.mem
        [(s.latch.scr.addr, sealedBytes s p salt), (s.latch.dst.addr, base64Encode (sealedBytes s p salt))])
      p.textLen s.latch.sealRow.keyCount p.keySet.len := by
  simp only [sealVault, hdraw, sealedBytes, applyWrites, List.foldl_cons, List.foldl_nil]

theorem exec_kgen_of_failed_draw {s : State} {e : Entropy} (hr : RegionsOk s (s.latch.row .kgen))
    (h0 : s.latch.ops.kgBits.toNat ≠ 0) (hb : s.latch.ops.kgBits.toNat % 256 = 0)
    (hcap : s.latch.ops.kgCount.toNat * (s.latch.ops.kgBits.toNat / 4) ≤ s.latch.dst.len)
    (hdraw : s.entropy.draw (s.latch.ops.kgCount.toNat * (s.latch.ops.kgBits.toNat / 8)) = (none, e)) :
    exec .kgen s =
      .next (({ s with entropy := e } : State).raiseUnspecified s.latch.generateRow .randomBytes) := by
  have hplan := (planGeneration_eq_ok_iff s ⟨_, _, _⟩).2 ⟨hr, ⟨h0, hb⟩, hcap, rfl⟩
  exact (execKgen_eq_generate hplan).trans (congrArg _ (generate_of_failed_draw hb hdraw))

theorem exec_vaultSeal_of_failed_draw {s : State} {ks : List Bytes} {len : Nat} {e : Entropy}
    (hr : RegionsOk s (s.latch.row .vaultSeal)) (hk : KeysOk s (s.latch.row .vaultSeal) ks len)
    (hscr : paddedLength (blobLength len ks.length) passKeyLength ≤ s.latch.scr.len)
    (hdst : base64Length (paddedLength (blobLength len ks.length) passKeyLength) ≤ s.latch.dst.len)
    (hdraw : s.entropy.draw (len / 2) = (none, e)) :
    exec .vaultSeal s =
      .next (({ s with entropy := e } : State).raiseUnspecified s.latch.sealRow .randomBytes) := by
  have hcount : s.latch.sealRow.keyCount = ks.length := hk.1
  have hplan : planSeal s = .ok ⟨⟨len, ks⟩, paddedLength (blobLength len ks.length) passKeyLength, _⟩ :=
    (planSeal_eq_ok_iff s _).2 ⟨hr, hk, by rw [hcount], hscr, rfl, hdst⟩
  exact (execSeal_eq_sealVault hplan).trans (congrArg _ (sealVault_of_failed_draw hdraw))

/-- Settles O37: the draw's clauses, and for KGEN and SEAL the execute-phase error of a failed one. -/
theorem failedDrawsReportRandomBytes : Obligations.FailedDrawsReportRandomBytes := by
  refine ⟨fun _ _ _ => Entropy.draw_listed, fun _ _ _ _ => Entropy.draw_failing, fun _ => Entropy.draw_one_free,
    fun _ _ _ n => ⟨fun _ h => Entropy.draw_add_of_some h n, fun h => Entropy.draw_add_of_none h n⟩, ?_, ?_⟩
  · rintro s _ _ e hr rfl rfl h0 hb hcap hdraw
    rw [exec_kgen_of_failed_draw hr h0 hb hcap hdraw]
    obtain ⟨m, f, heq, hframe⟩ := raiseUnspecified_eq_ended { s with entropy := e } s.latch.generateRow .randomBytes
    exact ⟨m, f, congrArg _ heq, fun a hdst => hframe a (List.forall_mem_singleton.2 hdst)⟩
  · intro s ks len e hr hk hscr hdst hdraw
    rw [exec_vaultSeal_of_failed_draw hr hk hscr hdst hdraw]
    obtain ⟨m, f, heq, hframe⟩ := raiseUnspecified_eq_ended { s with entropy := e } s.latch.sealRow .randomBytes
    exact ⟨m, f, congrArg _ heq, fun a hs hd => hframe a
      (List.forall_mem_cons.2 ⟨hs, List.forall_mem_singleton.2 hd⟩)⟩

end Sys2Proof.Machine
end

section
/-!
PROOFS. What a command depends on (10_state.md R55; 30_encoding.md R105): two states that agree on the operands the
command reads, on the bytes of its read regions and, where it draws, on the entropy answers end it with the same
report and the same stores.
-/

namespace Sys2Proof.Machine

/-- `s` and `r` agree on everything `i` reads. -/
structure SameInputs (i : Instr) (s r : State) : Prop where
  wfLeft : s.mem.wf
  wfRight : r.mem.wf
  size : s.params.bufSize = r.params.bufSize
  operands : s.latch.ops.readBy i = r.latch.ops.readBy i
  bytes : ∀ g ∈ readRegions s i, ∀ a, g.Covers a → s.mem.read a = r.mem.read a
  entropy : i = .kgen ∨ i = .vaultSeal → s.entropy.answers = r.entropy.answers ∧ s.entropy.drawn = r.entropy.drawn

/-- Both runs complete with one report, and on success each byte of memory is the same in both or kept in both. -/
def SameReports (s r : State) (o p : Host.Outcome State Fault Refusal) : Prop :=
  ∃ t u, o = .next t ∧ p = .next u ∧ t.err = u.err ∧ t.errInfo = u.errInfo ∧ t.resultLen = u.resultLen ∧
    t.resultCount = u.resultCount ∧ t.resultKlen = u.resultKlen ∧
    (t.err = .success → ∀ a, t.mem.read a = u.mem.read a ∨
      (t.mem.read a = s.mem.read a ∧ u.mem.read a = r.mem.read a))

/-! ### The same stores to two memories -/

theorem writeBytes_same {m n : Memory} (hm : m.wf) (hn : n.wf) (a : Nat) (v : Bytes) (x : Nat) :
    (m.writeBytes a v).read x = (n.writeBytes a v).read x ∨
      ((m.writeBytes a v).read x = m.read x ∧ (n.writeBytes a v).read x = n.read x) := by
  by_cases hx : a ≤ x ∧ x < a + v.length
  · obtain ⟨k, rfl⟩ := Nat.exists_eq_add_of_le hx.1
    have hk : k < v.length := by omega
    exact .inl (by rw [Memory.read_writeBytes_inside hm hk, Memory.read_writeBytes_inside hn hk])
  · have hout : x < a ∨ a + v.length ≤ x := by omega
    exact .inr ⟨Memory.read_writeBytes_outside m hout, Memory.read_writeBytes_outside n hout⟩

theorem applyWrites_same {m n : Memory} (hm : m.wf) (hn : n.wf) (ws : List (Nat × Bytes)) (x : Nat) :
    (applyWrites m ws).read x = (applyWrites n ws).read x ∨
      ((applyWrites m ws).read x = m.read x ∧ (applyWrites n ws).read x = n.read x) := by
  induction ws generalizing m n with
  | nil => exact .inr ⟨rfl, rfl⟩
  | cons w ws ih =>
    rcases ih (Memory.writeBytes_wf hm w.1 w.2) (Memory.writeBytes_wf hn w.1 w.2) with hsame | ⟨hleft, hright⟩
    · exact .inl hsame
    · rcases writeBytes_same hm hn w.1 w.2 x with hw | ⟨hwl, hwr⟩
      · exact .inl (hleft.trans (hw.trans hright.symm))
      · exact .inr ⟨hleft.trans hwl, hright.trans hwr⟩

/-! ### Two command bodies that end alike -/

/-- Two bodies end in the same error, the same stores and results, or the same execute-phase error. -/
inductive SameEnd (s r : State) : Except Raise State → Except Raise State → Prop
  | error (e : Raise) : SameEnd s r (.error e) (.error e)
  | success (ws : List (Nat × Bytes)) (es er : Entropy) (len count klen : Nat) :
      SameEnd s r (.ok (({ s with entropy := es } : State).succeed (applyWrites s.mem ws) len count klen))
        (.ok (({ r with entropy := er } : State).succeed (applyWrites r.mem ws) len count klen))
  | unspecified (es er : Entropy) (rowLeft rowRight : CommandRow) (c : ErrCode) (hc : c ≠ .success) :
      SameEnd s r (.ok (({ s with entropy := es } : State).raiseUnspecified rowLeft c))
        (.ok (({ r with entropy := er } : State).raiseUnspecified rowRight c))

theorem SameEnd.bind {α : Type} {s r : State} {x y : Except Raise α} {f g : α → Except Raise State} (hxy : x = y)
    (h : ∀ a, x = .ok a → SameEnd s r (f a) (g a)) : SameEnd s r (x >>= f) (y >>= g) := by
  subst hxy
  cases x with
  | ok a => exact h a rfl
  | error e => exact .error e

theorem SameEnd.demand {s r : State} (p : Prop) [Decidable p] (c : ErrCode) {f g : Unit → Except Raise State}
    (h : SameEnd s r (f ()) (g ())) : SameEnd s r (demand p c >>= f) (demand p c >>= g) :=
  .bind rfl fun _ _ => h

theorem SameEnd.sameReports {s r : State} {x y : Except Raise State} (h : SameEnd s r x y) (hs : s.mem.wf)
    (hr : r.mem.wf) : SameReports s r (s.conclude x) (r.conclude y) := by
  cases h with
  | error e => exact ⟨_, _, rfl, rfl, rfl, rfl, rfl, rfl, rfl, fun _ _ => .inr ⟨rfl, rfl⟩⟩
  | success ws es er len count klen =>
    exact ⟨_, _, rfl, rfl, rfl, rfl, rfl, rfl, rfl, fun _ a => applyWrites_same hs hr ws a⟩
  | unspecified es er rowLeft rowRight c hc =>
    exact ⟨_, _, rfl, rfl, rfl, rfl, rfl, rfl, rfl, fun herr => absurd herr hc⟩

/-- Two checks that answer alike, each followed by what answers alike when they succeed. -/
theorem bind_congr_of_ok {α β : Type} {x y : Except Raise α} {f g : α → Except Raise β} (hxy : x = y)
    (h : ∀ a, x = .ok a → f a = g a) : x >>= f = y >>= g := by
  subst hxy
  cases x with
  | ok a => exact h a rfl
  | error e => rfl

/-! ### The rows and regions of two states that agree -/

/-- A region is the one its kind names in the latched registers. -/
def Latch.Names (l : Latch) (g : Region) : Prop :=
  match g.kind with
  | .src => g = l.src
  | .pwd => g = l.pwd
  | .scr => g = l.scr
  | .dst => g = l.dst
  | .keytab => g.addr = l.ops.keytabAddr.toNat
  | .key => True

theorem row_names (l : Latch) (i : Instr) : ∀ g ∈ (l.row i).reads ++ (l.row i).writes, l.Names g := by
  cases i <;>
    simp [Latch.row, Latch.singleKeyRow, Latch.cascadeRow, Latch.checkRow, Latch.generateRow, Latch.sealRow,
      Latch.unsealRow, Latch.base64Row, Latch.artifactRow, Latch.Names, Latch.src, Latch.pwd, Latch.scr, Latch.dst,
      Latch.keytab]

theorem keytab_mem_reads (l : Latch) {i : Instr} (hi : keyed i = true) :
    l.keytab (l.row i).keyCount ∈ (l.row i).reads := by
  cases i <;>
    simp_all [keyed, Latch.row, Latch.singleKeyRow, Latch.cascadeRow, Latch.checkRow, Latch.sealRow, Latch.artifactRow]

/-- A row is computed from the operand registers its command reads. -/
theorem row_congr {l l' : Latch} {i : Instr} (h : l.ops.readBy i = l'.ops.readBy i) : l.row i = l'.row i := by
  cases i <;>
    simp_all [Operands.readBy, Latch.row, Latch.singleKeyRow, Latch.cascadeRow, Latch.checkRow, Latch.generateRow,
      Latch.sealRow, Latch.unsealRow, Latch.base64Row, Latch.artifactRow, Latch.src, Latch.pwd, Latch.scr, Latch.dst,
      Latch.keytab]

namespace SameInputs

variable {i : Instr} {s r : State}

theorem row_eq (h : SameInputs i s r) : s.latch.row i = r.latch.row i := row_congr h.operands

theorem names (h : SameInputs i s r) {g : Region} (hg : g ∈ (s.latch.row i).reads ++ (s.latch.row i).writes) :
    r.latch.Names g :=
  row_names r.latch i g (h.row_eq ▸ hg)

theorem src_eq (h : SameInputs i s r) (hg : s.latch.src ∈ (s.latch.row i).reads) : s.latch.src = r.latch.src :=
  h.names (List.mem_append_left _ hg)

theorem pwd_eq (h : SameInputs i s r) (hg : s.latch.pwd ∈ (s.latch.row i).reads) : s.latch.pwd = r.latch.pwd :=
  h.names (List.mem_append_left _ hg)

theorem scr_eq (h : SameInputs i s r) (hg : s.latch.scr ∈ (s.latch.row i).writes) : s.latch.scr = r.latch.scr :=
  h.names (List.mem_append_right _ hg)

theorem dst_eq (h : SameInputs i s r) (hg : s.latch.dst ∈ (s.latch.row i).writes) : s.latch.dst = r.latch.dst :=
  h.names (List.mem_append_right _ hg)

theorem keytabAddr_eq (h : SameInputs i s r) (hi : keyed i = true) :
    s.latch.ops.keytabAddr.toNat = r.latch.ops.keytabAddr.toNat :=
  h.names (List.mem_append_left _ (keytab_mem_reads s.latch hi))

theorem regionBytes_eq (h : SameInputs i s r) {g : Region} (hg : g ∈ readRegions s i) : g.bytes s.mem = g.bytes r.mem :=
  Memory.readBytes_congr fun a hlo hhi => h.bytes g hg a ⟨hlo, hhi⟩

theorem srcBytes_eq (h : SameInputs i s r) (hg : s.latch.src ∈ (s.latch.row i).reads) :
    s.latch.src.bytes s.mem = r.latch.src.bytes r.mem := by
  rw [h.regionBytes_eq (List.mem_append_left _ hg), h.src_eq hg]

theorem pwdBytes_eq (h : SameInputs i s r) (hg : s.latch.pwd ∈ (s.latch.row i).reads) :
    s.latch.pwd.bytes s.mem = r.latch.pwd.bytes r.mem := by
  rw [h.regionBytes_eq (List.mem_append_left _ hg), h.pwd_eq hg]

theorem checkRegions_eq (h : SameInputs i s r) :
    checkRegions s.params.bufSize (s.latch.row i) = checkRegions r.params.bufSize (r.latch.row i) := by
  rw [h.size, h.row_eq]

/-! ### Keys -/

theorem keyRegion_eq (h : SameInputs i s r) (hi : keyed i = true) {j : Nat} (hj : j < (s.latch.row i).keyCount) :
    s.latch.keyRegion s.mem j = r.latch.keyRegion r.mem j := by
  have htab := h.bytes _ (List.mem_append_left _ (keytab_mem_reads s.latch hi))
  have hword : ∀ a, s.latch.ops.keytabAddr.toNat + 8 * j ≤ a → a < s.latch.ops.keytabAddr.toNat + 8 * j + 8 →
      s.mem.read a = r.mem.read a := fun a hlo hhi =>
    htab a (by simp only [Region.Covers, Latch.keytab]; omega)
  have hread : ∀ off ≤ 4, s.mem.read32 (s.latch.ops.keytabAddr.toNat + 8 * j + off) =
      r.mem.read32 (s.latch.ops.keytabAddr.toNat + 8 * j + off) := fun off hoff =>
    congrArg littleEndianValue (Memory.readBytes_congr fun a hlo hhi => hword a (by omega) (by omega))
  rw [Latch.keyRegion, Latch.keyRegion, ← h.keytabAddr_eq hi, hread 4 le_rfl]
  exact congrArg (Region.mk .key · _) (hread 0 (by omega))

theorem readDescriptors_eq (h : SameInputs i s r) (hi : keyed i = true) (ws : List Region) (n j : Nat)
    (hj : j + n ≤ (s.latch.row i).keyCount) :
    readDescriptors s.latch s.mem s.params.bufSize ws n j = readDescriptors r.latch r.mem r.params.bufSize ws n j := by
  induction n generalizing j with
  | zero => rfl
  | succ n ih =>
    rw [readDescriptors, readDescriptors, ih (j + 1) (by omega), h.keyRegion_eq hi (by omega), h.size]

theorem keyPhase_eq (h : SameInputs i s r) (hi : keyed i = true) (hr : RegionsOk s (s.latch.row i)) :
    keyPhase s (s.latch.row i) = keyPhase r (r.latch.row i) := by
  have hin : (s.latch.keytab (s.latch.row i).keyCount).InBounds s.params.bufSize :=
    hr.1 _ (keytab_mem_reads s.latch hi)
  have hkeys : ∀ j < (s.latch.row i).keyCount, s.latch.keyRegion s.mem j ∈ readRegions s i := fun j hj =>
    List.mem_append_right _ (by
      rw [Latch.keyRegions, if_pos hin]
      exact List.mem_map_of_mem (List.mem_range.2 hj))
  rw [← h.row_eq]
  refine bind_congr_of_ok rfl fun _ _ => bind_congr_of_ok (h.readDescriptors_eq hi _ _ 0 (by omega)) fun rs hrs => ?_
  obtain ⟨-, rfl⟩ := (readDescriptors_eq_ok_iff s _ _ _ _).1 hrs
  refine congrArg validateKeys (List.map_congr_left fun g hg => ?_)
  obtain ⟨j, hj, rfl⟩ := List.mem_map.1 hg
  exact h.regionBytes_eq (hkeys j (by simpa using (List.mem_range'_1.1 hj).2))

/-! ### Commands without entropy -/

/-- The fixed-region checks and the key phase, then bodies that end alike. -/
theorem keyedBody_sameReports (h : SameInputs i s r) (hi : keyed i = true) {f g : KeySet → Except Raise State}
    (hfg : ∀ ks, SameEnd s r (f ks) (g ks)) :
    SameReports s r
      (s.conclude (checkRegions s.params.bufSize (s.latch.row i) >>= fun _ =>
        keyPhase s (s.latch.row i) >>= f))
      (r.conclude (checkRegions r.params.bufSize (r.latch.row i) >>= fun _ =>
        keyPhase r (r.latch.row i) >>= g)) :=
  SameEnd.sameReports
    (.bind h.checkRegions_eq fun _ hr =>
      .bind (h.keyPhase_eq hi ((checkRegions_eq_ok_iff _ _ _).1 hr)) fun ks _ => hfg ks)
    h.wfLeft h.wfRight

theorem forwardCommand_sameReports (h : SameInputs i s r) (hi : keyed i = true)
    (hsrc : s.latch.src ∈ (s.latch.row i).reads) (hdst : s.latch.dst ∈ (s.latch.row i).writes)
    (f : Bytes → List Bytes → Bytes) :
    SameReports s r (forwardCommand s (s.latch.row i) f) (forwardCommand r (r.latch.row i) f) := by
  refine h.keyedBody_sameReports hi fun ks => ?_
  rw [← h.srcBytes_eq hsrc, ← h.src_eq hsrc, ← h.dst_eq hdst, ← h.row_eq]
  exact .demand _ _ (.success [(s.latch.dst.addr, _)] s.entropy r.entropy _ _ _)

theorem inverseCommand_sameReports (h : SameInputs i s r) (hi : keyed i = true)
    (hsrc : s.latch.src ∈ (s.latch.row i).reads) (hdst : s.latch.dst ∈ (s.latch.row i).writes) (z : Bool)
    (f : Bytes → List Bytes → Bytes) :
    SameReports s r (inverseCommand s (s.latch.row i) z f) (inverseCommand r (r.latch.row i) z f) := by
  refine h.keyedBody_sameReports hi fun ks => ?_
  rw [← h.srcBytes_eq hsrc, ← h.src_eq hsrc, ← h.dst_eq hdst, ← h.row_eq]
  exact .demand _ _ (.demand _ _ (.success [(s.latch.dst.addr, _)] s.entropy r.entropy _ _ _))

theorem execKchk_sameReports (h : SameInputs .kchk s r) : SameReports s r (execKchk s) (execKchk r) := by
  have hrow : s.latch.checkRow = r.latch.checkRow := h.row_eq
  refine h.keyedBody_sameReports rfl fun ks => ?_
  rw [← hrow]
  exact .success [] s.entropy r.entropy _ _ _

theorem execEnc_sameReports (h : SameInputs .enc s r) : SameReports s r (execEnc s) (execEnc r) := by
  have hsrc : s.latch.src ∈ (s.latch.row .enc).reads := List.mem_cons_self
  have hscr : s.latch.scr ∈ (s.latch.row .enc).writes := List.mem_cons_self
  have hdst : s.latch.dst ∈ (s.latch.row .enc).writes := List.mem_cons_of_mem _ List.mem_cons_self
  have hrow : s.latch.artifactRow = r.latch.artifactRow := h.row_eq
  refine h.keyedBody_sameReports rfl fun ks => ?_
  rw [← h.srcBytes_eq hsrc, ← h.src_eq hsrc, ← h.scr_eq hscr, ← h.dst_eq hdst, ← hrow]
  exact .demand _ _ (.demand _ _
    (.success [(s.latch.scr.addr, _), (s.latch.dst.addr, _)] s.entropy r.entropy _ _ _))

theorem execDec_sameReports (h : SameInputs .dec s r) : SameReports s r (execDec s) (execDec r) := by
  have hsrc : s.latch.src ∈ (s.latch.row .dec).reads := List.mem_cons_self
  have hscr : s.latch.scr ∈ (s.latch.row .dec).writes := List.mem_cons_self
  have hdst : s.latch.dst ∈ (s.latch.row .dec).writes := List.mem_cons_of_mem _ List.mem_cons_self
  have hrow : s.latch.artifactRow = r.latch.artifactRow := h.row_eq
  refine h.keyedBody_sameReports rfl fun ks => ?_
  rw [← h.srcBytes_eq hsrc, ← h.scr_eq hscr, ← h.dst_eq hdst, ← hrow]
  exact .demand _ _ (.demand _ _ (.demand _ _ (.demand _ _
    (.success [(s.latch.scr.addr, _), (s.latch.dst.addr, _)] s.entropy r.entropy _ _ _))))

theorem execB64e_sameReports (h : SameInputs .b64e s r) : SameReports s r (execB64e s) (execB64e r) := by
  have hsrc : s.latch.src ∈ (s.latch.row .b64e).reads := List.mem_cons_self
  have hdst : s.latch.dst ∈ (s.latch.row .b64e).writes := List.mem_cons_self
  refine SameEnd.sameReports (.bind h.checkRegions_eq fun _ _ => ?_) h.wfLeft h.wfRight
  rw [← h.srcBytes_eq hsrc, ← h.src_eq hsrc, ← h.dst_eq hdst]
  exact .demand _ _ (.success [(s.latch.dst.addr, _)] s.entropy r.entropy _ _ _)

theorem execB64d_sameReports (h : SameInputs .b64d s r) : SameReports s r (execB64d s) (execB64d r) := by
  have hsrc : s.latch.src ∈ (s.latch.row .b64d).reads := List.mem_cons_self
  have hdst : s.latch.dst ∈ (s.latch.row .b64d).writes := List.mem_cons_self
  refine SameEnd.sameReports (.bind h.checkRegions_eq fun _ _ => ?_) h.wfLeft h.wfRight
  rw [← h.srcBytes_eq hsrc, ← h.dst_eq hdst]
  exact .demand _ _ (.demand _ _ (.success [(s.latch.dst.addr, _)] s.entropy r.entropy _ _ _))

theorem unsealVault_sameEnd (h : SameInputs .vaultUnseal s r) (x : Bytes) :
    SameEnd s r (.ok (unsealVault s x)) (.ok (unsealVault r x)) := by
  have hpwd : s.latch.pwd ∈ (s.latch.row .vaultUnseal).reads := List.mem_cons_of_mem _ List.mem_cons_self
  have hscr : s.latch.scr ∈ (s.latch.row .vaultUnseal).writes := List.mem_cons_self
  have hdst : s.latch.dst ∈ (s.latch.row .vaultUnseal).writes := List.mem_cons_of_mem _ List.mem_cons_self
  rw [unsealVault, unsealVault, ← h.pwdBytes_eq hpwd, ← h.scr_eq hscr, ← h.dst_eq hdst]
  dsimp only
  split
  · exact .unspecified s.entropy r.entropy _ _ _ (by decide)
  · split
    · exact .success [(s.latch.scr.addr, _), (s.latch.dst.addr, _)] s.entropy r.entropy _ _ _
    · exact .unspecified s.entropy r.entropy _ _ _ (by decide)

theorem execUnseal_sameReports (h : SameInputs .vaultUnseal s r) : SameReports s r (execUnseal s) (execUnseal r) := by
  have hsrc : s.latch.src ∈ (s.latch.row .vaultUnseal).reads := List.mem_cons_self
  have hscr : s.latch.scr ∈ (s.latch.row .vaultUnseal).writes := List.mem_cons_self
  refine SameEnd.sameReports (.bind h.checkRegions_eq fun _ _ => ?_) h.wfLeft h.wfRight
  rw [← h.srcBytes_eq hsrc, ← h.scr_eq hscr]
  exact .demand _ _ (.demand _ _ (.demand _ _ (h.unsealVault_sameEnd _)))

end SameInputs

/-! ### Commands that draw -/

/-- What a draw gives depends on the answers alone, not on the ready indication. -/
theorem Entropy.draw_fst_congr {e f : Entropy} (ha : e.answers = f.answers) (hd : e.drawn = f.drawn) (n : Nat) :
    (e.draw n).1 = (f.draw n).1 := by
  induction n generalizing e f with
  | zero => rfl
  | succ n ih =>
    have hanswer : e.answer = f.answer := by rw [Entropy.answer, Entropy.answer, ha, hd]
    have hnext : (e.advance.draw n).1 = (f.advance.draw n).1 :=
      ih (by simp [Entropy.advance, ha]) (by simp [Entropy.advance, hd])
    cases hf : f.answer with
    | none => rw [Entropy.draw_succ_of_none hf, Entropy.draw_succ_of_none (hanswer.trans hf)]
    | some b => rw [Entropy.draw_succ_of_some hf, Entropy.draw_succ_of_some (hanswer.trans hf), hnext]

namespace SameInputs

variable {i : Instr} {s r : State}

theorem draw_eq (h : SameInputs i s r) (hi : i = .kgen ∨ i = .vaultSeal) (n : Nat) :
    (s.entropy.draw n).1 = (r.entropy.draw n).1 := by
  obtain ⟨hanswers, hdrawn⟩ := h.entropy hi
  exact Entropy.draw_fst_congr hanswers hdrawn n

theorem planGeneration_eq (h : SameInputs .kgen s r) : planGeneration s = planGeneration r := by
  have hdst : s.latch.dst ∈ (s.latch.row .kgen).writes := List.mem_cons_self
  have hops : s.latch.ops.kgBits = r.latch.ops.kgBits ∧ s.latch.ops.kgCount = r.latch.ops.kgCount := by
    have := h.operands
    simp only [Operands.readBy, List.cons.injEq] at this
    exact ⟨this.1, this.2.1⟩
  refine bind_congr_of_ok h.checkRegions_eq fun _ _ => ?_
  rw [hops.1, hops.2, h.dst_eq hdst]

theorem generate_sameEnd (h : SameInputs .kgen s r) {p : GenerationPlan} (hb : p.bits % 256 = 0) :
    SameEnd s r (.ok (generate s p)) (.ok (generate r p)) := by
  have hdst : s.latch.dst ∈ (s.latch.row .kgen).writes := List.mem_cons_self
  have hkeys : (deriveKeys p.bits p.count s.entropy).1 = (deriveKeys p.bits p.count r.entropy).1 := by
    rw [deriveKeys_eq_draw hb, deriveKeys_eq_draw hb, h.draw_eq (.inl rfl)]
  rw [generate, generate, ← h.dst_eq hdst]
  cases hs : deriveKeys p.bits p.count s.entropy with
  | mk o e =>
    cases hr : deriveKeys p.bits p.count r.entropy with
    | mk o' e' =>
      rw [hs, hr] at hkeys
      obtain rfl : o = o' := hkeys
      cases o with
      | none => exact .unspecified e e' _ _ _ (by decide)
      | some keys => exact .success [(s.latch.dst.addr, keys)] e e' _ _ _

theorem execKgen_sameReports (h : SameInputs .kgen s r) : SameReports s r (execKgen s) (execKgen r) := by
  refine SameEnd.sameReports (.bind h.planGeneration_eq fun p hp => ?_) h.wfLeft h.wfRight
  obtain ⟨-, ⟨-, hb⟩, -, -⟩ := (planGeneration_eq_ok_iff s p).1 hp
  exact h.generate_sameEnd hb

theorem planSeal_eq (h : SameInputs .vaultSeal s r) : planSeal s = planSeal r := by
  have hscr : s.latch.scr ∈ (s.latch.row .vaultSeal).writes := List.mem_cons_self
  have hdst : s.latch.dst ∈ (s.latch.row .vaultSeal).writes := List.mem_cons_of_mem _ List.mem_cons_self
  have hrow : s.latch.sealRow = r.latch.sealRow := h.row_eq
  refine bind_congr_of_ok h.checkRegions_eq fun _ hr =>
    bind_congr_of_ok (h.keyPhase_eq rfl ((checkRegions_eq_ok_iff _ _ _).1 hr)) fun ks _ => ?_
  rw [h.scr_eq hscr, h.dst_eq hdst, hrow]

theorem sealVault_sameEnd (h : SameInputs .vaultSeal s r) (p : SealPlan) :
    SameEnd s r (.ok (sealVault s p)) (.ok (sealVault r p)) := by
  have hpwd : s.latch.pwd ∈ (s.latch.row .vaultSeal).reads := List.mem_cons_self
  have hscr : s.latch.scr ∈ (s.latch.row .vaultSeal).writes := List.mem_cons_self
  have hdst : s.latch.dst ∈ (s.latch.row .vaultSeal).writes := List.mem_cons_of_mem _ List.mem_cons_self
  have hrow : s.latch.sealRow = r.latch.sealRow := h.row_eq
  have hsealed (salt : Bytes) : sealedBytes s p salt = sealedBytes r p salt := by
    rw [sealedBytes, sealedBytes, h.pwdBytes_eq hpwd]
  have hsalt := h.draw_eq (.inr rfl) (p.keySet.len / 2)
  cases hs : s.entropy.draw (p.keySet.len / 2) with
  | mk o e =>
    cases hr : r.entropy.draw (p.keySet.len / 2) with
    | mk o' e' =>
      rw [hs, hr] at hsalt
      obtain rfl : o = o' := hsalt
      cases o with
      | none =>
        rw [sealVault_of_failed_draw hs, sealVault_of_failed_draw hr]
        exact .unspecified e e' _ _ _ (by decide)
      | some salt =>
        rw [sealVault_of_draw hs, sealVault_of_draw hr, ← hsealed, ← h.scr_eq hscr, ← h.dst_eq hdst, ← hrow]
        exact .success _ e e' _ _ _

theorem execSeal_sameReports (h : SameInputs .vaultSeal s r) : SameReports s r (execSeal s) (execSeal r) :=
  SameEnd.sameReports (.bind h.planSeal_eq fun p _ => h.sealVault_sameEnd p) h.wfLeft h.wfRight

theorem exec_sameReports (h : SameInputs i s r) : SameReports s r (exec i s) (exec i r) := by
  have hmem {α : Type} (a : α) (l : List α) : a ∈ a :: l := List.mem_cons_self
  cases i with
  | fwd => exact h.forwardCommand_sameReports rfl (hmem _ _) (hmem _ _) fun x ks => forward x (firstKey ks)
  | cfwd => exact h.forwardCommand_sameReports rfl (hmem _ _) (hmem _ _) cascadeForward
  | inv => exact h.inverseCommand_sameReports rfl (hmem _ _) (hmem _ _) false fun x ks => inverse x (firstKey ks)
  | invZ => exact h.inverseCommand_sameReports rfl (hmem _ _) (hmem _ _) true fun x ks => inverse x (firstKey ks)
  | cinv => exact h.inverseCommand_sameReports rfl (hmem _ _) (hmem _ _) false cascadeInverse
  | cinvZ => exact h.inverseCommand_sameReports rfl (hmem _ _) (hmem _ _) true cascadeInverse
  | kchk => exact h.execKchk_sameReports
  | kgen => exact h.execKgen_sameReports
  | vaultSeal => exact h.execSeal_sameReports
  | vaultUnseal => exact h.execUnseal_sameReports
  | b64e => exact h.execB64e_sameReports
  | b64d => exact h.execB64d_sameReports
  | enc => exact h.execEnc_sameReports
  | dec => exact h.execDec_sameReports

end SameInputs

/-- Settles O56: its hypotheses are `SameInputs`, its conclusion `SameReports`. -/
theorem commandsDependOnTheirOperandsAlone : Obligations.CommandsDependOnTheirOperandsAlone := by
  intro i s r hs hr hsize hops hbytes hentropy
  exact SameInputs.exec_sameReports ⟨hs, hr, hsize, hops, hbytes, hentropy⟩

end Sys2Proof.Machine
end

section
/-!
PROOFS. Who moves in a step (20_memory.md R83, R89 to R91; 30_encoding.md R103, R111): the engine completes its latched
word, or the host's next input is taken up.
-/

namespace Sys2Proof.Machine

/-! ### Legal words decode (30_encoding.md R103) -/

/-- The opcode map has a command exactly for the known operations, with `Z` only where it is allowed (R101). -/
theorem commandOf_isOk_iff (n : Nat) (z : Bool) :
    (∃ i, commandOf n z = .ok i) ↔ (1 ≤ n ∧ n ≤ 12) ∧ (z = false ∨ n = 2 ∨ n = 4) := by
  by_cases hn : n ≤ 12
  · interval_cases n <;> cases z <;> simp [commandOf]
  · obtain ⟨k, rfl⟩ := Nat.exists_eq_add_of_le' (Nat.lt_of_not_le hn)
    simp [commandOf, hn]

/-- A word decodes exactly when it is legal (R103). -/
theorem decode_isOk_iff_legal (w : Word) : (∃ i, decode w = .ok i) ↔ (fieldsOf w).Legal := by
  unfold decode
  split
  next hrsv =>
    rw [commandOf_isOk_iff]
    simp [CommandWord.Legal, CommandWord.DepadAllowed, hrsv, ← BitVec.toNat_inj]
  next hrsv => simp [CommandWord.Legal, hrsv]

theorem decode_isError_iff_not_legal (w : Word) : (∃ e, decode w = .error e) ↔ ¬ (fieldsOf w).Legal := by
  rw [← decode_isOk_iff_legal]
  cases decode w <;> simp

/-! ### Running the latched word -/

theorem runLatched_of_ok {s : State} {i : Instr} (h : decode s.latch.cmd = .ok i) : runLatched s = exec i s := by
  rw [runLatched, h]

theorem runLatched_of_error {s : State} {e : IllegalWord} (h : decode s.latch.cmd = .error e) :
    runLatched s = .next (failed s .illegalCommand 0) := by
  rw [runLatched, h, raise_eq_failed]

/-- Whatever the latched word, running it completes it (R91, R103). -/
theorem runLatched_completes (s : State) : ∃ t, runLatched s = .next t ∧ CompletedFrom s t := by
  cases hd : decode s.latch.cmd with
  | ok i =>
    obtain ⟨t, hexec, hend⟩ := exec_ending i s
    exact ⟨t, (runLatched_of_ok hd).trans hexec, hend.completedFrom⟩
  | error e => exact ⟨_, runLatched_of_error hd, raise_completedFrom s { code := .illegalCommand }⟩

/-! ### The step, by what the sequencer holds -/

theorem step_of_idle {s : State} (h : s.sequencer = none) : step s = serveHost s := by
  rw [step, tick, h]

theorem step_of_latency_left {s : State} {q : Sequencer} {n : Nat} (h : s.sequencer = some q) (hw : q.wait = n + 1) :
    step s = serveHost { s with sequencer := some { q with wait := n } } := by
  simp only [step, tick, h, hw]

theorem step_of_no_latency {s : State} {q : Sequencer} (h : s.sequencer = some q) (hw : q.wait = 0) :
    step s = runLatched s := by
  simp only [step, tick, h, hw]

/-! ### The host's turn, by what is pending -/

theorem serveHost_of_nil {u : State} (h : u.host.pending = []) : serveHost u = .next u := by
  rw [serveHost, h]

/-- A host that waits stays where it is while a command runs (R111). -/
theorem serveHost_of_held {u : State} {rest : List Input} (h : u.host.pending = .waitDone :: rest)
    (hb : u.busy = true) : serveHost u = .next u := by
  simp [serveHost, h, hb]

theorem serveHost_of_cons {u : State} {x : Input} {rest : List Input} (h : u.host.pending = x :: rest)
    (hx : x ≠ .waitDone ∨ u.busy = false) :
    serveHost u = ({ u with host := { u.host with pending := rest } } : State).applyInput x := by
  have hgo : ¬ (x = .waitDone ∧ u.busy = true) := by
    rcases hx with hx | hx <;> simp [hx]
  simp only [serveHost, h, if_neg hgo, State.popInput, List.drop_one, List.tail_cons]

/-! ### A write of CMD -/

theorem writeCmd_of_idle {s : State} (h : s.sequencer = none) (w : Word) :
    s.writeCmd w = { s.accept w (Config.latency s.accepted) with accepted := s.accepted + 1 } :=
  if_neg (by simp [State.busy, h])

theorem writeCmd_of_running {s : State} {q : Sequencer} (h : s.sequencer = some q) (w : Word) :
    s.writeCmd w = { s with overrun := true } :=
  if_pos (by simp [State.busy, h])

/-- An aligned write at offset 0x0C is a write of CMD (R32, R41). -/
theorem applyInput_writeCmd (s : State) (w : Word) :
    s.applyInput (.write .word (s.params.regBase + 0x0C) w) = .next (s.writeCmd w) :=
  hostWrite_register s w (k := 3) (by decide)

/-- R89: a pending CMD write is accepted by an idle block in one step. -/
theorem step_accepts {s : State} {w : Word} {rest : List Input} (h : s.sequencer = none)
    (hp : s.host.pending = .write .word (s.params.regBase + 0x0C) w :: rest) :
    step s = .next (({ s with host := { s.host with pending := rest }, accepted := s.accepted + 1 } : State).accept w
      (Config.latency s.accepted)) := by
  rw [step_of_idle h, serveHost_of_cons hp (.inl nofun)]
  exact (applyInput_writeCmd { s with host := { s.host with pending := rest } } w).trans
    (congrArg _ (writeCmd_of_idle (s := { s with host := { s.host with pending := rest } }) h w))

/-- Settles O4: a word that is not legal decodes to an error; it is accepted like any word, and running it reports
`IllegalCommand` beside an unchanged memory. -/
theorem illegalWordsOnlyReport : Obligations.IllegalWordsOnlyReport := by
  refine ⟨decode_isError_iff_not_legal, fun s w rest h hp => ⟨_, step_accepts h hp⟩, fun s q h hw hillegal => ?_⟩
  obtain ⟨e, he⟩ := (decode_isError_iff_not_legal s.latch.cmd).2 hillegal
  rw [step_of_no_latency h hw, runLatched_of_error he]

/-- The word of a command decodes to the command (R101). -/
theorem decode_encode (i : Instr) : decode (encode i) = .ok i := by
  cases i <;> rfl

theorem withFetchWord_encode (s : State) (i : Instr) :
    s.withFetchWord 32 (encode i).toNat = s.accept (encode i) 0 := by
  rw [State.withFetchWord, Nat.mod_eq_of_lt (encode i).isLt, BitVec.ofNat_toNat, BitVec.setWidth_eq]

/-- Settles O5: with no latency left the step runs the latched word, and `withFetchWord` latches a command's word. -/
theorem stepRunsTheLatchedCommand : Obligations.StepRunsTheLatchedCommand := by
  have hrun : ∀ (s : State) (q : Sequencer) (i : Instr), s.sequencer = some q → q.wait = 0 →
      decode s.latch.cmd = .ok i → step s = exec i s := fun s q i h hw hd => by
    rw [step_of_no_latency h hw, runLatched_of_ok hd]
  refine ⟨hrun, fun s i => ?_⟩
  rw [withFetchWord_encode]
  exact hrun _ (Sequencer.start 0) i rfl rfl (decode_encode i)

/-- While a command has latency left, the host's next input is taken up, unless the host waits. -/
theorem step_takes_input {s : State} {q : Sequencer} {n : Nat} {x : Input} {rest : List Input}
    (h : s.sequencer = some q) (hw : q.wait = n + 1) (hp : s.host.pending = x :: rest) (hx : x ≠ .waitDone) :
    step s = ({ s with
      sequencer := some { q with wait := n }, host := { s.host with pending := rest } } : State).applyInput x :=
  (step_of_latency_left h hw).trans (serveHost_of_cons (by exact hp) (.inl hx))

/-- Settles O6: the step by what the sequencer holds, then the host's turn by what is pending. -/
theorem stepServesTheHostInProgramOrder : Obligations.StepServesTheHostInProgramOrder := by
  refine ⟨fun s x rest h hp => ?_, fun s q n x rest h hw hp hx => ?_, fun s q n rest h hw hp => ?_,
    fun s q n h hw hp => ?_, fun s h hp => ?_⟩
  · exact (step_of_idle h).trans (serveHost_of_cons hp (.inr (s.busy_eq_false_iff.2 h)))
  · exact step_takes_input h hw hp hx
  · exact (step_of_latency_left h hw).trans (serveHost_of_held (by exact hp) rfl)
  · exact (step_of_latency_left h hw).trans (serveHost_of_nil (by exact hp))
  · exact (step_of_idle h).trans (serveHost_of_nil hp)

/-- Settles O7: the write is taken up in the host's turn, and CMD's rule applies by whether a command runs. -/
theorem cmdWriteIsAcceptedOrDropped : Obligations.CmdWriteIsAcceptedOrDropped := by
  refine ⟨fun s w rest h hp => ⟨_, step_accepts h hp⟩, fun s q n w rest h hw hp => ?_⟩
  refine (step_takes_input h hw hp nofun).trans ?_
  exact (applyInput_writeCmd _ w).trans (congrArg _ (writeCmd_of_running rfl w))

/-! ### The latency of a running command -/

/-- The running command of `s` goes on in `t` as it was. -/
def SameRun (s t : State) : Prop := t.sequencer = s.sequencer ∧ t.latch = s.latch

/-- No register write reaches the running command: CMD drops it (R90), the others are outside it (R87). -/
theorem writeReg_sameRun {u : State} (hb : u.busy = true) (r : Reg) (v : Word) : SameRun u (u.writeReg r v) := by
  obtain ⟨q, hq⟩ := u.busy_eq_true_iff.1 hb
  cases r with
  | cmd =>
    rw [State.writeReg, writeCmd_of_running hq]
    exact ⟨rfl, rfl⟩
  | _ => exact ⟨rfl, rfl⟩

/-- Only the reset input reaches the running command. -/
theorem applyInput_sameRun {u t : State} {x : Input} (hb : u.busy = true) (hx : x ≠ .reset)
    (h : u.applyInput x = .next t) : SameRun u t := by
  cases x with
  | read width addr =>
    simp only [State.applyInput, State.hostRead] at h
    split at h <;> cases h <;> exact ⟨rfl, rfl⟩
  | write width addr v =>
    simp only [State.applyInput, State.hostWrite] at h
    split at h
    · cases h
      exact writeReg_sameRun hb _ v
    · unfold State.writeBuffer at h
      split at h <;> cases h
      exact ⟨rfl, rfl⟩
    · cases h
    · cases h
  | reset => exact absurd rfl hx
  | _ =>
    cases h
    exact ⟨rfl, rfl⟩

/-- A step that goes on, no reset taken up, takes one off the latency and keeps the latched context. -/
theorem step_sameRun {s t : State} {q : Sequencer} {n : Nat} (h : s.sequencer = some q) (hw : q.wait = n + 1)
    (hreset : s.host.pending.head? ≠ some .reset) (hstep : step s = .next t) :
    t.sequencer = some { q with wait := n } ∧ t.latch = s.latch := by
  rw [step_of_latency_left h hw] at hstep
  rcases serveHost_cases hstep with hsame | ⟨x, rest, hp, hinput⟩
  · cases hsame
    exact ⟨rfl, rfl⟩
  · have hp : s.host.pending = x :: rest := hp
    exact applyInput_sameRun (by rfl) (by simpa [hp] using hreset) hinput

theorem core_run_succ {s t : State} (h : step s = .next t) (n : Nat) :
    Host.Core.run Sys2Proof.core (n + 1) s = Host.Core.run Sys2Proof.core n t := by
  have h : Sys2Proof.core.step s = .next t := h
  simp only [Host.Core.run, h]

/-- While the host waits or is silent, the command completes one step after its latency (R91). -/
theorem run_completes (n : Nat) {s : State} {q : Sequencer} (h : s.sequencer = some q) (hw : q.wait = n)
    (hp : s.host.pending = [] ∨ ∃ rest, s.host.pending = .waitDone :: rest) :
    ∃ t, Host.Core.run Sys2Proof.core (n + 1) s = .next t ∧ t.busy = false ∧ t.done = true ∧ t.host = s.host := by
  induction n generalizing s q with
  | zero =>
    obtain ⟨t, hrun, hc⟩ := runLatched_completes s
    exact ⟨t, core_run_succ ((step_of_no_latency h hw).trans hrun) 0, hc.busy, hc.done, hc.host⟩
  | succ n ih =>
    have hserve : serveHost { s with sequencer := some { q with wait := n } } =
        .next { s with sequencer := some { q with wait := n } } := by
      rcases hp with hp | ⟨rest, hp⟩
      · exact serveHost_of_nil hp
      · exact serveHost_of_held hp rfl
    rw [core_run_succ ((step_of_latency_left h hw).trans hserve)]
    exact ih (s := { s with sequencer := some { q with wait := n } }) rfl rfl hp

/-- Settles O8: the run of a waiting host, one step of a command with latency left, and the completing step. -/
theorem acceptedCommandsComplete : Obligations.AcceptedCommandsComplete := by
  refine ⟨fun s q h hp => run_completes q.wait h rfl hp, fun s t q n h hw hreset hstep =>
    step_sameRun h hw hreset hstep, fun s q h hw => ?_⟩
  obtain ⟨t, hrun, hc⟩ := runLatched_completes s
  exact ⟨t, (step_of_no_latency h hw).trans hrun, hc.busy, hc.done, hc.host⟩

end Sys2Proof.Machine
end

section
/-!
PROOFS. Buffer memory from the host's side (20_memory.md R70 to R73, R86; 70_reset_and_hazards.md R294): what an access
reaches, the little-endian bytes it stores or returns, and the regions of a running command.
-/

namespace Sys2Proof.Machine

/-! ### What an access reaches -/

theorem busTarget_badRegister {p : Params} {width : Width} {addr : Nat} (hlo : p.regBase ≤ addr)
    (hhi : addr < p.regBase + registerBlockSize) (hbad : width ≠ .word ∨ (addr - p.regBase) % 4 ≠ 0) :
    busTarget p width addr = .badRegister := by
  have hno : ¬ (width = .word ∧ (addr - p.regBase) % 4 = 0) := fun h => hbad.elim (· h.1) (· h.2)
  rw [busTarget, if_pos ⟨hlo, hhi⟩, if_neg hno]

theorem busTarget_outside {p : Params} {width : Width} {addr : Nat}
    (hreg : addr < p.regBase ∨ p.regBase + registerBlockSize ≤ addr)
    (hbuf : addr < p.bufBase ∨ p.bufBase + p.bufSize < addr + width.bytes) : busTarget p width addr = .outside := by
  rw [busTarget, if_neg (by omega), if_neg (by omega)]

theorem busTarget_of_reachesBuffer {p : Params} {width : Width} {off : Nat} (h : ReachesBuffer p width off) :
    busTarget p width (p.bufBase + off) = .buffer off := by
  obtain ⟨hin, hreg⟩ := h
  rw [busTarget, if_neg hreg, if_pos (by omega), Nat.add_sub_cancel_left]

/-- Settles O14: such an access reaches neither a register nor buffer memory. -/
theorem undefinedHostAccessesAreRefused : Obligations.UndefinedHostAccessesAreRefused := by
  refine ⟨fun s width addr v hlo hhi hbad => ?_, fun s width addr v hreg hbuf => ?_⟩
  · rw [State.hostRead, State.hostWrite, busTarget_badRegister hlo hhi hbad]
    exact ⟨rfl, rfl⟩
  · rw [State.hostRead, State.hostWrite, busTarget_outside hreg hbuf]
    exact ⟨rfl, rfl⟩

theorem hostRead_buffer {s : State} {width : Width} {off : Nat} (h : ReachesBuffer s.params width off) :
    s.hostRead width (s.params.bufBase + off) = .next (s.readBuffer width off) := by
  rw [State.hostRead, busTarget_of_reachesBuffer h]

theorem hostWrite_buffer {s : State} {width : Width} {off : Nat} (h : ReachesBuffer s.params width off) (v : Word) :
    s.hostWrite width (s.params.bufBase + off) v = s.writeBuffer width off v := by
  rw [State.hostWrite, busTarget_of_reachesBuffer h]

/-! ### Bytes of a word -/

theorem littleEndianBytes_getElem? (n v j : Nat) (hj : j < n) :
    (littleEndianBytes n v)[j]? = some (BitVec.ofNat 8 (v / 256 ^ j)) := by
  induction n generalizing v j with
  | zero => omega
  | succ n ih =>
    cases j with
    | zero => simp [littleEndianBytes]
    | succ j => simpa [littleEndianBytes, Nat.div_div_eq_div_mul, Nat.pow_succ'] using ih (v / 256) j (by omega)

/-- Byte `j` of a little-endian value is entry `j` of the string, 0 beyond its end. -/
theorem littleEndianValue_byte (x : Bytes) (j : Nat) :
    littleEndianValue x / 256 ^ j % 256 = (x.getD j 0).toNat := by
  induction x generalizing j with
  | nil => simp [littleEndianValue]
  | cons b x ih =>
    have hb := b.isLt
    cases j with
    | zero =>
      simp only [littleEndianValue, List.getD_cons_zero, Nat.pow_zero, Nat.div_one]
      omega
    | succ j =>
      have htail : (b.toNat + 256 * littleEndianValue x) / 256 = littleEndianValue x := by omega
      rw [littleEndianValue, Nat.pow_succ', ← Nat.div_div_eq_div_mul, htail, ih, List.getD_cons_succ]

/-- Byte `j` of a word, from its value. -/
theorem word_byte (v : Word) (j : Nat) : v.extractLsb' (8 * j) 8 = BitVec.ofNat 8 (v.toNat / 256 ^ j) := by
  apply BitVec.eq_of_toNat_eq
  rw [BitVec.extractLsb'_toNat, BitVec.toNat_ofNat, Nat.shiftRight_eq_div_pow, Nat.pow_mul]

/-- The word of a byte string has the string's bytes. -/
theorem word_of_littleEndianValue_byte (x : Bytes) {j : Nat} (hj : j < 4) :
    (BitVec.ofNat 32 (littleEndianValue x)).extractLsb' (8 * j) 8 = x.getD j 0 := by
  apply BitVec.eq_of_toNat_eq
  rw [word_byte, BitVec.toNat_ofNat, BitVec.toNat_ofNat, ← littleEndianValue_byte]
  interval_cases j <;> omega

/-! ### Writes -/

/-- What a host write that lands leaves: the value's low bytes at `off`, least significant first, and every other byte
as it was. -/
structure Stores (m : Memory) (width : Width) (off : Nat) (v : Word) (m' : Memory) : Prop where
  bytes : ∀ j < width.bytes, m'.read (off + j) = v.extractLsb' (8 * j) 8
  others : ∀ a, (a < off ∨ off + width.bytes ≤ a) → m'.read a = m.read a

theorem writeBytes_stores {m : Memory} (hm : m.wf) (width : Width) (off : Nat) (v : Word) :
    Stores m width off v (m.writeBytes off (littleEndianBytes width.bytes v.toNat)) where
  bytes j hj := by
    have hlen : j < (littleEndianBytes width.bytes v.toNat).length := by simpa using hj
    have hbyte := littleEndianBytes_getElem? width.bytes v.toNat j hj
    rw [List.getElem?_eq_getElem hlen, Option.some.injEq] at hbyte
    rw [Memory.read_writeBytes_inside hm hlen, hbyte, word_byte]
  others a ha := Memory.read_writeBytes_outside m (by simpa using ha)

/-- A write clear of the running command's regions lands (R72, R86). -/
theorem hostWrite_lands {s : State} {width : Width} {off : Nat} (v : Word) (hm : s.mem.wf)
    (h : ReachesBuffer s.params width off) (hclear : ¬ Touches s.busyRegions off width.bytes) :
    ∃ m : Memory, s.hostWrite width (s.params.bufBase + off) v = .next { s with mem := m } ∧
      (∀ j < width.bytes, m.read (off + j) = v.extractLsb' (8 * j) 8) ∧
      ∀ a, (a < off ∨ off + width.bytes ≤ a) → m.read a = s.mem.read a := by
  have hstores := writeBytes_stores hm width off v
  refine ⟨_, ?_, hstores.bytes, hstores.others⟩
  rw [hostWrite_buffer h, State.writeBuffer, if_neg hclear]

/-- A write into the running command's regions is the fault of R294. -/
theorem hostWrite_faults {s : State} {width : Width} {off : Nat} (v : Word) (h : ReachesBuffer s.params width off)
    (hhit : Touches s.busyRegions off width.bytes) :
    s.hostWrite width (s.params.bufBase + off) v = .fault .busyRegionWrite := by
  rw [hostWrite_buffer h, State.writeBuffer, if_pos hhit]

/-! ### The running command's regions -/

theorem busyRegions_of_idle {s : State} (h : s.busy = false) : s.busyRegions = [] := by
  simp [State.busyRegions, h]

theorem busyRegions_of_running {s : State} {i : Instr} (h : s.busy = true) (hd : decode s.latch.cmd = .ok i) :
    s.busyRegions = s.latch.allRegions s.mem s.params.bufSize i := by
  simp [State.busyRegions, h, hd]

theorem busyRegions_of_illegal {s : State} {e : IllegalWord} (hd : decode s.latch.cmd = .error e) :
    s.busyRegions = [] := by
  simp [State.busyRegions, hd]

theorem not_touches_nil (off n : Nat) : ¬ Touches [] off n := by
  simp [Touches]

/-- The key regions count when the key table is in bounds (log entry 12). -/
theorem mem_keyRegions_iff (l : Latch) (m : Memory) (size : Nat) (row : CommandRow) (r : Region) :
    r ∈ l.keyRegions m size row ↔
      (l.keytab row.keyCount).InBounds size ∧ ∃ k < row.keyCount, l.keyRegion m k = r := by
  unfold Latch.keyRegions
  split
  next hin => simp [hin]
  next hin => simp [hin]

theorem touches_append (rs qs : List Region) (off n : Nat) :
    Touches (rs ++ qs) off n ↔ Touches rs off n ∨ Touches qs off n := by
  simp only [Touches, List.mem_append, or_and_right, exists_or]

theorem touches_iff (rs : List Region) (off n : Nat) :
    Touches rs off n ↔ ∃ r ∈ rs, ∃ j < n, r.Covers (off + j) := by
  simp only [Touches, List.mem_range]

theorem touches_keyRegions_iff (l : Latch) (m : Memory) (size : Nat) (row : CommandRow) (off n : Nat) :
    Touches (l.keyRegions m size row) off n ↔ (l.keytab row.keyCount).InBounds size ∧
      ∃ k < row.keyCount, ∃ j < n, (l.keyRegion m k).Covers (off + j) := by
  rw [touches_iff]
  constructor
  · rintro ⟨r, hr, hj⟩
    obtain ⟨hin, k, hk, rfl⟩ := (mem_keyRegions_iff l m size row r).1 hr
    exact ⟨hin, k, hk, hj⟩
  · rintro ⟨hin, k, hk, hj⟩
    exact ⟨_, (mem_keyRegions_iff l m size row _).2 ⟨hin, k, hk, rfl⟩, hj⟩

/-- A write touches a command's regions when it touches a read region, a write region or a key region. -/
theorem touches_allRegions_iff (l : Latch) (m : Memory) (size : Nat) (i : Instr) (off n : Nat) :
    Touches (l.allRegions m size i) off n ↔
      (∃ r ∈ (l.row i).reads, ∃ j < n, r.Covers (off + j)) ∨ (∃ r ∈ (l.row i).writes, ∃ j < n, r.Covers (off + j)) ∨
        ((l.keytab (l.row i).keyCount).InBounds size ∧
          ∃ k < (l.row i).keyCount, ∃ j < n, (l.keyRegion m k).Covers (off + j)) := by
  rw [Latch.allRegions, touches_append, touches_append, touches_keyRegions_iff, touches_iff, touches_iff, or_assoc]

/-- Settles O16: the write faults when it touches the regions of the decoded word, and lands otherwise. -/
theorem writesIntoARunningCommandFault : Obligations.WritesIntoARunningCommandFault := by
  refine fun s width off v hb hm hreach => ⟨fun i hd => ?_, fun e hd => ?_⟩
  · have hiff := touches_allRegions_iff s.latch s.mem s.params.bufSize i off width.bytes
    rw [← busyRegions_of_running hb hd] at hiff
    exact ⟨fun hhit => hostWrite_faults v hreach (hiff.2 hhit), fun hclear =>
      hostWrite_lands v hm hreach (mt hiff.1 hclear)⟩
  · exact hostWrite_lands v hm hreach (by rw [busyRegions_of_illegal hd]; exact not_touches_nil _ _)

/-! ### Reads -/

theorem readVisible_getD (m : Memory) (hidden : List Region) (n off k j : Nat) :
    (readVisible m hidden n off k).getD j 0 =
      if j < n then if ∃ r ∈ hidden, r.Covers (off + j) then Config.freeByte (k + j) else m.read (off + j)
      else 0 := by
  induction n generalizing off k j with
  | zero => simp [readVisible]
  | succ n ih =>
    cases j with
    | zero => simp [readVisible]
    | succ j =>
      rw [readVisible, List.getD_cons_succ, ih, Nat.add_right_comm off, Nat.add_right_comm k, Nat.add_assoc off,
        Nat.add_assoc k]
      simp

/-- A host read of buffer memory (R72, R86): memory's bytes outside the running command's write regions, 0 above the
access's width, and free values used only where it touches such a region. -/
theorem hostRead_bytes {s : State} {width : Width} {off : Nat} (h : ReachesBuffer s.params width off) :
    ∃ (w : Word) (n : Nat), s.hostRead width (s.params.bufBase + off) =
        .next { s with freeUsed := n, host := { s.host with received := w :: s.host.received } } ∧
      (∀ j < width.bytes, (∀ r ∈ s.busyWrites, ¬ r.Covers (off + j)) → w.extractLsb' (8 * j) 8 = s.mem.read (off + j)) ∧
      (∀ j < 4, width.bytes ≤ j → w.extractLsb' (8 * j) 8 = 0) ∧ (s.busyWrites = [] → n = s.freeUsed) := by
  refine ⟨_, _, hostRead_buffer h, fun j hj hclear => ?_, fun j hj hwidth => ?_, fun hnone => ?_⟩
  · have hj4 : j < 4 := by
      cases width <;> simp only [Width.bytes] at hj <;> omega
    have hfree : ¬ ∃ r ∈ s.busyWrites, r.Covers (off + j) := by
      rintro ⟨r, hr, hc⟩
      exact hclear r hr hc
    rw [word_of_littleEndianValue_byte _ hj4, readVisible_getD, if_pos hj, if_neg hfree]
  · rw [word_of_littleEndianValue_byte _ hj, readVisible_getD, if_neg (by omega)]
  · rw [hnone, if_neg (not_touches_nil _ _), Nat.add_zero]

/-- Settles O17: the read's bytes, where the decoded word's write regions are those of the running command. -/
theorem readsOfARunningCommandChangeNothing : Obligations.ReadsOfARunningCommandChangeNothing := by
  intro s width off hb hreach
  obtain ⟨w, n, hread, hbytes, hzero, -⟩ := hostRead_bytes hreach
  refine ⟨w, n, hread, fun j hj hclear => hbytes j hj ?_, hzero⟩
  cases hd : decode s.latch.cmd with
  | ok i =>
    rw [busyWrites_of_running hb hd]
    exact hclear i hd
  | error e =>
    rw [busyWrites_of_illegal hd]
    exact nofun

/-- Settles O15: an idle block has no regions, so the write lands and every byte read is memory's. -/
theorem hostBufferAccessesAreLittleEndian : Obligations.HostBufferAccessesAreLittleEndian := by
  intro s width off v hb hm hreach
  refine ⟨hostWrite_lands v hm hreach (by rw [busyRegions_of_idle hb]; exact not_touches_nil _ _), ?_⟩
  obtain ⟨w, n, hread, hbytes, hzero, hfree⟩ := hostRead_bytes hreach
  have hnone := busyWrites_of_idle hb
  obtain rfl := hfree hnone
  refine ⟨w, hread, fun j hj => ?_⟩
  split
  next hlt => exact hbytes j hlt (by rw [hnone]; exact nofun)
  next hge => exact hzero j hj (by omega)

end Sys2Proof.Machine
end

section
/-!
PROOFS. The regions of each command (20_memory.md R75) and the checks that come first (R76, R77; 40_cipher.md R145;
60_exceptions.md R264 steps 2 to 4).
-/

namespace Sys2Proof.Machine

/-! ### The region table -/

/-- A little-endian word of memory, byte by byte (R70). -/
theorem Memory.read32_eq (m : Memory) (a : Nat) :
    m.read32 a = (m.read a).toNat + 0x100 * (m.read (a + 1)).toNat + 0x10000 * (m.read (a + 2)).toNat +
      0x1000000 * (m.read (a + 3)).toNat := by
  simp only [Memory.read32, Memory.readBytes, littleEndianValue, Nat.add_assoc, Nat.reduceAdd]
  omega

/-- Settles O25: the rows are the table's entries, and a descriptor is two little-endian words. -/
theorem regionsAreThoseOfTheTable : Obligations.RegionsAreThoseOfTheTable := by
  intro l
  refine ⟨?_, ?_, rfl, rfl, rfl, rfl, ?_, ?_, fun m k => ?_⟩
  case refine_5 => rw [Latch.keyRegion, Memory.read32_eq, Memory.read32_eq]
  all_goals
    simp only [List.forall_mem_cons, List.not_mem_nil, false_implies, implies_true, and_true]
    and_intros <;> rfl

/-! ### Which intersections are an overlap -/

/-- The commands that may work in place (R145), and the operands with which they do. -/
abbrev InPlace (l : Latch) (i : Instr) : Prop :=
  i ∈ [Instr.fwd, .inv, .invZ, .cfwd, .cinv, .cinvZ] ∧ l.ops.srcAddr = l.ops.dstAddr

theorem row_inPlace_iff (l : Latch) (i : Instr) :
    (l.row i).inPlace = true ↔ i ∈ [Instr.fwd, .inv, .invZ, .cfwd, .cinv, .cinvZ] := by
  cases i <;>
    simp [Latch.row, Latch.singleKeyRow, Latch.cascadeRow, Latch.checkRow, Latch.generateRow, Latch.sealRow,
      Latch.unsealRow, Latch.base64Row, Latch.artifactRow]

theorem writes_of_inPlace {l : Latch} {i : Instr} (h : (l.row i).inPlace = true) : (l.row i).writes = [l.dst] := by
  rw [row_inPlace_iff] at h
  fin_cases h <;> rfl

theorem eq_src_of_mem_reads {l : Latch} {i : Instr} {r : Region} (hr : r ∈ (l.row i).reads) (h : r.kind = .src) :
    r = l.src := by
  have hnames := row_names l i r (List.mem_append_left _ hr)
  rwa [Latch.Names, h] at hnames

/-- The excuse of R77 for a write region of the row is SRC of a command that works in place. -/
theorem excuses_iff (l : Latch) (i : Instr) {w r : Region} (hw : w ∈ (l.row i).writes) (hr : r ∈ (l.row i).reads) :
    (l.row i).Excuses w r ↔ InPlace l i ∧ r.kind = .src := by
  rw [CommandRow.Excuses, InPlace, ← row_inPlace_iff l i, and_assoc]
  refine and_congr_right fun hplace => ?_
  obtain rfl : w = l.dst := by simpa [writes_of_inPlace hplace] using hw
  rw [and_comm (a := l.ops.srcAddr = l.ops.dstAddr)]
  refine and_congr_right fun hsrc => ?_
  obtain rfl := eq_src_of_mem_reads hr hsrc
  exact ⟨fun h => BitVec.eq_of_toNat_eq h.2, fun h => ⟨rfl, congrArg BitVec.toNat h⟩⟩

/-- Among the write regions only SCR and DST can meet. -/
theorem writes_apart_iff (l : Latch) (i : Instr) :
    (l.row i).writes.Pairwise (fun w v => ¬ w.Intersects v) ↔
      ¬ (l.scr ∈ (l.row i).writes ∧ l.scr.Intersects l.dst) := by
  have hkind : l.scr ≠ l.dst := nofun
  cases i <;>
    simp [Latch.row, Latch.singleKeyRow, Latch.cascadeRow, Latch.checkRow, Latch.generateRow, Latch.sealRow,
      Latch.unsealRow, Latch.base64Row, Latch.artifactRow, hkind]

theorem disjoint_iff (l : Latch) (i : Instr) :
    (l.row i).Disjoint ↔
      ¬ ((∃ w ∈ (l.row i).writes, ∃ r ∈ (l.row i).reads, w.Intersects r ∧ ¬ (InPlace l i ∧ r.kind = .src)) ∨
        (l.scr ∈ (l.row i).writes ∧ l.scr.Intersects l.dst)) := by
  rw [CommandRow.Disjoint, writes_apart_iff, not_or]
  refine and_congr_left fun _ => ⟨?_, fun h w hw r hr hi => ?_⟩
  · rintro h ⟨w, hw, r, hr, hi, hno⟩
    exact hno ((excuses_iff l i hw hr).1 (h w hw r hr hi))
  · exact (excuses_iff l i hw hr).2 (Classical.byContradiction fun hno => h ⟨w, hw, r, hr, hi, hno⟩)

/-! ### The first checks of every command -/

theorem planGeneration_of_checkRegions_error {s : State} {e : Raise}
    (h : checkRegions s.params.bufSize s.latch.generateRow = .error e) : planGeneration s = .error e := by
  rw [planGeneration, h, error_bind]

theorem planSeal_of_checkRegions_error {s : State} {e : Raise}
    (h : checkRegions s.params.bufSize s.latch.sealRow = .error e) : planSeal s = .error e := by
  simp only [planSeal, h, error_bind]

/-- Every command begins with the checks of its fixed regions, and reports their error. -/
theorem exec_of_checkRegions_error {i : Instr} {s : State} {e : Raise}
    (h : checkRegions s.params.bufSize (s.latch.row i) = .error e) : exec i s = .next (failed s e.code e.info) := by
  have hbody (f : Unit → Except Raise State) :
      s.conclude (checkRegions s.params.bufSize (s.latch.row i) >>= f) = .next (failed s e.code e.info) := by
    rw [h, error_bind, conclude_error, raise_eq_failed]
  cases i with
  | kgen =>
    rw [exec, execKgen, planGeneration_of_checkRegions_error h, error_bind, conclude_error, raise_eq_failed]
  | vaultSeal =>
    rw [exec, execSeal, planSeal_of_checkRegions_error h, error_bind, conclude_error, raise_eq_failed]
  | _ => exact hbody _

/-- Settles O26: the fixed-region checks answer the first of the three errors, and every command reports it. -/
theorem fixedRegionErrorsComeFirst : Obligations.FixedRegionErrorsComeFirst := by
  refine ⟨fun _ _ => Iff.rfl, fun _ _ => Iff.rfl, fun i s => ?_⟩
  have hfirst := fun e => @exec_of_checkRegions_error i s e
  simp only [checkRegions_eq] at hfirst
  refine ⟨disjoint_iff s.latch i, fun ⟨r, hr, hlen, hend⟩ => ?_, fun hreads ⟨w, hw, hlen, hend⟩ => ?_,
    fun hreads hwrites hover => ?_⟩
  · have hout : ¬ ∀ r ∈ (s.latch.row i).reads, r.InBounds s.params.bufSize := fun h => by
      have := h r hr
      omega
    exact hfirst ⟨.readFailed, 0⟩ (if_neg hout)
  · have hout : ¬ ∀ w ∈ (s.latch.row i).writes, w.InBounds s.params.bufSize := fun h => by
      have := h w hw
      omega
    exact hfirst ⟨.writeFailed, 0⟩ ((if_pos hreads).trans (if_neg hout))
  · have hmeet : ¬ (s.latch.row i).Disjoint := fun h => (disjoint_iff s.latch i).1 h hover
    exact hfirst ⟨.overlap, 0⟩ ((if_pos hreads).trans ((if_pos hwrites).trans (if_neg hmeet)))

end Sys2Proof.Machine
end

section
/-!
PROOFS. What a command leaves in buffer memory (20_memory.md R75, R80, R81): nothing changes outside its write regions,
a success stores to the bytes its rule names only, and an error of the check phase stores nothing.
-/

namespace Sys2Proof.Machine

/-! ### The three endings -/

theorem Ending.mem_read_outside {s t : State} {i : Instr} (h : Ending s i t) {a : Nat}
    (ha : ∀ w ∈ (s.latch.row i).writes, ¬ w.Covers a) : t.mem.read a = s.mem.read a := by
  cases h with
  | checked e => rfl
  | success ws ent len count klen hr hw =>
    refine read_applyWrites_outside fun w hmem => ?_
    obtain ⟨r, hr, haddr, hlen⟩ := hw w hmem
    have := ha r hr
    omega
  | unspecified ent c => exact scramble_mem_read (s := { s with entropy := ent }) ha

/-- Settles O21: no ending stores outside the row's write regions. -/
theorem memoryOutsideWriteRegionsIsKept : Obligations.MemoryOutsideWriteRegionsIsKept := by
  intro i s t h a ha
  exact (ending_of_exec h).mem_read_outside ha

/-- Settles O23: an error that the execute phase cannot raise is an error of the check phase, which stores nothing. -/
theorem checkPhaseErrorsKeepMemory : Obligations.CheckPhaseErrorsKeepMemory := by
  intro i s t h herr hdraw hunseal
  cases ending_of_exec h with
  | checked e => exact ⟨rfl, rfl⟩
  | success ws ent len count klen => exact absurd rfl herr
  | unspecified ent c hr he hc => exact absurd hc (not_or.2 ⟨hdraw, hunseal⟩)

/-! ### What a success stores -/

/-- `t` holds `s`'s bytes outside the ranges that `i` stores to when it succeeds from `s` to `t`. -/
def StoresNamedBytes (i : Instr) (s t : State) : Prop :=
  ∀ a, Outside (storedRanges i s t) a → t.mem.read a = s.mem.read a

/-- Whatever the body of a command goes on to, it stores to the named bytes only if it succeeds. -/
abbrev SuccessStoresNamed (i : Instr) (s : State) (x : Except Raise State) : Prop :=
  ∀ t, x = .ok t → t.err = .success → StoresNamedBytes i s t

theorem storesNamedBytes_of_applyWrites {i : Instr} {s t : State} (ws : List (Nat × Bytes))
    (hmem : t.mem = applyWrites s.mem ws) (hranges : storedRanges i s t = ws.map fun w => (w.1, w.2.length)) :
    StoresNamedBytes i s t := by
  intro a ha
  rw [hmem]
  refine read_applyWrites_outside fun w hw => ?_
  exact ha (w.1, w.2.length) (hranges ▸ List.mem_map_of_mem hw)

theorem successStoresNamed_bind {i : Instr} {s : State} {α : Type} {x : Except Raise α} {f : α → Except Raise State}
    (h : ∀ a, x = .ok a → SuccessStoresNamed i s (f a)) : SuccessStoresNamed i s (x >>= f) := by
  intro t ht
  obtain ⟨a, ha, hf⟩ := bind_eq_ok.1 ht
  exact h a ha t hf

theorem successStoresNamed_demand {i : Instr} {s : State} {p : Prop} [Decidable p] {c : ErrCode}
    {f : Unit → Except Raise State} (h : p → SuccessStoresNamed i s (f ())) :
    SuccessStoresNamed i s (demand p c >>= f) := by
  intro t ht
  rw [demand_bind] at ht
  split at ht
  next hp => exact h hp t ht
  next => cases ht

theorem successStoresNamed_pure {i : Instr} {s t : State} (h : t.err = .success → StoresNamedBytes i s t) :
    SuccessStoresNamed i s (pure t) := by
  intro u hu
  cases hu
  exact h

/-- An error completion of the check phase stores nothing at all. -/
theorem conclude_storesNamedBytes {i : Instr} {s t : State} {x : Except Raise State} (hx : SuccessStoresNamed i s x)
    (h : s.conclude x = .next t) (herr : t.err = .success) : StoresNamedBytes i s t := by
  rcases conclude_cases h with rfl | ⟨e, rfl, rfl⟩
  · exact hx t rfl herr
  · exact fun _ _ => rfl

/-! ### Results read back -/

/-- A length within a 32-bit capacity is its own RESULT_LEN. -/
theorem ofNat_toNat_of_le {n : Nat} {w : Word} (h : n ≤ w.toNat) : (BitVec.ofNat 32 n).toNat = n := by
  have := w.isLt
  rw [BitVec.toNat_ofNat]
  omega

/-- Valid keys are no longer than a descriptor can say, so their length is its own RESULT_KLEN. -/
theorem KeysOk.len_toNat {s : State} {row : CommandRow} {ks : List Bytes} {len : Nat} (h : KeysOk s row ks len) :
    (BitVec.ofNat 32 len).toNat = len := by
  obtain ⟨hcount, ⟨hne, -, -, hk⟩, hdesc⟩ := h
  have hpos : 0 < row.keyCount := hcount ▸ List.length_pos_of_ne_nil hne
  have hkey := List.mem_of_getElem? (hdesc 0 hpos).2
  have hlen : (s.latch.keyRegion s.mem 0).len = len := (srcBytes_length _ _).symm.trans (hk _ hkey).1
  have hlt : (s.latch.keyRegion s.mem 0).len < 2 ^ 32 := Memory.read32_lt _ _
  rw [BitVec.toNat_ofNat, Nat.mod_eq_of_lt (hlen ▸ hlt)]

/-- The first key has the keys' length. -/
theorem forward_firstKey_length {s : State} {row : CommandRow} {ks : KeySet} (h : KeysOk s row ks.keys ks.len)
    (x : Bytes) : (forward x (firstKey ks.keys)).length = paddedLength x.length ks.len := by
  obtain ⟨-, hpos, -, hlen⟩ := keysOk_facts h
  rw [forward_length x (by omega), hlen]

theorem cascadeForward_keys_length {s : State} {row : CommandRow} {ks : KeySet} (h : KeysOk s row ks.keys ks.len)
    (x : Bytes) : (cascadeForward x ks.keys).length = paddedLength x.length ks.len := by
  obtain ⟨hne, hpos, hlen, -⟩ := keysOk_facts h
  exact cascadeForward_length x hne hpos hlen

/-! ### One command after another -/

section
variable {s t : State}

/-- FWD and CFWD store the padded length (R140, R142). -/
theorem forwardCommand_storesNamedBytes {i : Instr} {row : CommandRow} {f : Bytes → List Bytes → Bytes}
    (hi : ∀ t, storedRanges i s t = [(s.latch.dst.addr, t.resultLen.toNat)])
    (hf : ∀ x (ks : KeySet), KeysOk s row ks.keys ks.len → (f x ks.keys).length = paddedLength x.length ks.len)
    (h : forwardCommand s row f = .next t) (herr : t.err = .success) : StoresNamedBytes i s t := by
  refine conclude_storesNamedBytes ?_ h herr
  refine successStoresNamed_bind fun _ _ => successStoresNamed_bind fun ks hk =>
    successStoresNamed_demand fun hcap => successStoresNamed_pure fun _ => ?_
  have hlen := hf (s.latch.src.bytes s.mem) ks ((keyPhase_eq_ok_iff _ _ _).1 hk)
  refine storesNamedBytes_of_applyWrites [(s.latch.dst.addr, f (s.latch.src.bytes s.mem) ks.keys)] rfl ?_
  simp [hi, hlen, ofNat_toNat_of_le hcap]

/-- INV and CINV store as many bytes as SRC has, with and without Z (R141, R143, R144). -/
theorem inverseCommand_storesNamedBytes {i : Instr} {row : CommandRow} {z : Bool} {f : Bytes → List Bytes → Bytes}
    (hi : ∀ t, storedRanges i s t = [(s.latch.dst.addr, s.latch.src.len)]) (hf : ∀ x ks, (f x ks).length = x.length)
    (h : inverseCommand s row z f = .next t) (herr : t.err = .success) : StoresNamedBytes i s t := by
  refine conclude_storesNamedBytes ?_ h herr
  refine successStoresNamed_bind fun _ _ => successStoresNamed_bind fun ks _ =>
    successStoresNamed_demand fun _ => successStoresNamed_demand fun _ => successStoresNamed_pure fun _ => ?_
  refine storesNamedBytes_of_applyWrites [(s.latch.dst.addr, f (s.latch.src.bytes s.mem) ks.keys)] rfl ?_
  simp [hi, hf]

theorem execKchk_storesNamedBytes (h : execKchk s = .next t) (herr : t.err = .success) :
    StoresNamedBytes .kchk s t := by
  refine conclude_storesNamedBytes ?_ h herr
  exact successStoresNamed_bind fun _ _ => successStoresNamed_bind fun _ _ => successStoresNamed_pure fun _ =>
    storesNamedBytes_of_applyWrites [] rfl rfl

/-- KGEN stores its keys one after another (R107, R177). -/
theorem execKgen_storesNamedBytes (h : execKgen s = .next t) (herr : t.err = .success) :
    StoresNamedBytes .kgen s t := by
  refine conclude_storesNamedBytes ?_ h herr
  refine successStoresNamed_bind fun p hp => successStoresNamed_pure fun hsuccess => ?_
  obtain ⟨-, ⟨-, hbits⟩, hcap, rfl⟩ := (planGeneration_eq_ok_iff s p).1 hp
  unfold generate at hsuccess ⊢
  split at hsuccess
  next => cases hsuccess
  next keys e hkeys =>
    refine storesNamedBytes_of_applyWrites [(s.latch.dst.addr, keys)] rfl ?_
    simp [storedRanges, deriveKeys_length hbits hkeys, ofNat_toNat_of_le hcap]

/-- SEAL stores the sealed bytes and their text (R206). -/
theorem execSeal_storesNamedBytes (h : execSeal s = .next t) (herr : t.err = .success) :
    StoresNamedBytes .vaultSeal s t := by
  refine conclude_storesNamedBytes ?_ h herr
  refine successStoresNamed_bind fun p hp => successStoresNamed_pure fun hsuccess => ?_
  obtain ⟨-, hk, hsealed, -, htext, hdst⟩ := (planSeal_eq_ok_iff s p).1 hp
  cases hd : s.entropy.draw (p.keySet.len / 2) with
  | mk o e =>
    cases o with
    | none =>
      rw [sealVault_of_failed_draw hd] at hsuccess
      cases hsuccess
    | some salt =>
      obtain ⟨-, -, hlen, -⟩ := keysOk_facts hk
      have hbytes : (sealedBytes s p salt).length = p.sealedLen := by
        rw [sealedBytes, sealRounds_length (by simp [passKeyLength]), vaultBlob_length (Entropy.draw_length hd) hlen,
          passKey_length, hsealed, hk.1]
      have hklen : (BitVec.ofNat 32 p.keySet.len).toNat = p.keySet.len := KeysOk.len_toNat hk
      have hcount : (BitVec.ofNat 32 s.latch.sealRow.keyCount).toNat = s.latch.sealRow.keyCount :=
        ofNat_toNat_of_le (w := s.latch.ops.keyCount) le_rfl
      rw [sealVault_of_draw hd]
      refine storesNamedBytes_of_applyWrites
        [(s.latch.scr.addr, sealedBytes s p salt), (s.latch.dst.addr, base64Encode (sealedBytes s p salt))] rfl ?_
      simp [storedRanges, hbytes, hklen, hcount, ← hsealed, ← htext, ofNat_toNat_of_le hdst]

/-- UNSEAL stores the unsealed bytes and the keys (R215). -/
theorem execUnseal_storesNamedBytes (h : execUnseal s = .next t) (herr : t.err = .success) :
    StoresNamedBytes .vaultUnseal s t := by
  refine conclude_storesNamedBytes ?_ h herr
  refine successStoresNamed_bind fun _ _ => successStoresNamed_demand fun _ => successStoresNamed_demand fun _ =>
    successStoresNamed_demand fun _ => successStoresNamed_pure fun hsuccess => ?_
  unfold unsealVault at hsuccess ⊢
  dsimp only at hsuccess ⊢
  split at hsuccess
  next => cases hsuccess
  next ks hv =>
    split at hsuccess
    next hcap =>
      obtain ⟨⟨-, -, -, hk⟩, hkeys⟩ := (validateKeys_eq_ok_iff _ _).1 hv
      have hflat : ks.keys.flatten.length = ks.keys.length * ks.len :=
        flatten_length fun k hmem => (hk k (hkeys ▸ hmem)).1
      rw [if_pos hcap]
      refine storesNamedBytes_of_applyWrites
        [(s.latch.scr.addr, unsealRounds (base64Decode (s.latch.src.bytes s.mem)) (passKey (s.latch.pwd.bytes s.mem))),
          (s.latch.dst.addr, ks.keys.flatten)] rfl ?_
      simp [storedRanges, hflat, ofNat_toNat_of_le hcap, -List.length_flatten]
    next => cases hsuccess

/-- B64E stores its text (R234). -/
theorem execB64e_storesNamedBytes (h : execB64e s = .next t) (herr : t.err = .success) :
    StoresNamedBytes .b64e s t := by
  refine conclude_storesNamedBytes ?_ h herr
  refine successStoresNamed_bind fun _ _ => successStoresNamed_demand fun hcap => successStoresNamed_pure fun _ => ?_
  refine storesNamedBytes_of_applyWrites [(s.latch.dst.addr, base64Encode (s.latch.src.bytes s.mem))] rfl ?_
  simp [storedRanges, ofNat_toNat_of_le hcap]

/-- B64D stores the decoded bytes (R235). -/
theorem execB64d_storesNamedBytes (h : execB64d s = .next t) (herr : t.err = .success) :
    StoresNamedBytes .b64d s t := by
  refine conclude_storesNamedBytes ?_ h herr
  refine successStoresNamed_bind fun _ _ => successStoresNamed_demand fun _ => successStoresNamed_demand fun hcap =>
    successStoresNamed_pure fun _ => ?_
  refine storesNamedBytes_of_applyWrites [(s.latch.dst.addr, base64Decode (s.latch.src.bytes s.mem))] rfl ?_
  simp [storedRanges, ofNat_toNat_of_le hcap]

/-- ENC stores the ciphertext and its text (R236). -/
theorem execEnc_storesNamedBytes (h : execEnc s = .next t) (herr : t.err = .success) : StoresNamedBytes .enc s t := by
  refine conclude_storesNamedBytes ?_ h herr
  refine successStoresNamed_bind fun _ _ => successStoresNamed_bind fun ks hk => successStoresNamed_demand fun _ =>
    successStoresNamed_demand fun hcap => successStoresNamed_pure fun _ => ?_
  have hko := (keyPhase_eq_ok_iff _ _ _).1 hk
  have hlen := cascadeForward_keys_length hko (s.latch.src.bytes s.mem)
  have hklen : (BitVec.ofNat 32 ks.len).toNat = ks.len := KeysOk.len_toNat hko
  refine storesNamedBytes_of_applyWrites
    [(s.latch.scr.addr, cascadeForward (s.latch.src.bytes s.mem) ks.keys),
      (s.latch.dst.addr, base64Encode (cascadeForward (s.latch.src.bytes s.mem) ks.keys))] rfl ?_
  simp [storedRanges, hlen, hklen, ofNat_toNat_of_le hcap]

/-- DEC stores the ciphertext and the plaintext (R237). -/
theorem execDec_storesNamedBytes (h : execDec s = .next t) (herr : t.err = .success) : StoresNamedBytes .dec s t := by
  refine conclude_storesNamedBytes ?_ h herr
  refine successStoresNamed_bind fun _ _ => successStoresNamed_bind fun ks _ => successStoresNamed_demand fun _ =>
    successStoresNamed_demand fun _ => successStoresNamed_demand fun _ => successStoresNamed_demand fun _ =>
      successStoresNamed_pure fun _ => ?_
  refine storesNamedBytes_of_applyWrites
    [(s.latch.scr.addr, base64Decode (s.latch.src.bytes s.mem)),
      (s.latch.dst.addr, cascadeInverse (base64Decode (s.latch.src.bytes s.mem)) ks.keys)] rfl ?_
  simp [storedRanges]

theorem exec_storesNamedBytes {i : Instr} (h : exec i s = .next t) (herr : t.err = .success) :
    StoresNamedBytes i s t := by
  cases i with
  | fwd =>
    rw [exec, execFwd] at h
    exact forwardCommand_storesNamedBytes (fun _ => rfl) (fun x _ hk => forward_firstKey_length hk x) h herr
  | cfwd =>
    rw [exec, execCfwd] at h
    exact forwardCommand_storesNamedBytes (fun _ => rfl) (fun x _ hk => cascadeForward_keys_length hk x) h herr
  | inv =>
    rw [exec, execInv] at h
    exact inverseCommand_storesNamedBytes (fun _ => rfl) (fun x _ => inverse_length x _) h herr
  | invZ =>
    rw [exec, execInvZ] at h
    exact inverseCommand_storesNamedBytes (fun _ => rfl) (fun x _ => inverse_length x _) h herr
  | cinv =>
    rw [exec, execCinv] at h
    exact inverseCommand_storesNamedBytes (fun _ => rfl) (fun x ks => cascadeInverse_length ks x) h herr
  | cinvZ =>
    rw [exec, execCinvZ] at h
    exact inverseCommand_storesNamedBytes (fun _ => rfl) (fun x ks => cascadeInverse_length ks x) h herr
  | kchk => exact execKchk_storesNamedBytes h herr
  | kgen => exact execKgen_storesNamedBytes h herr
  | vaultSeal => exact execSeal_storesNamedBytes h herr
  | vaultUnseal => exact execUnseal_storesNamedBytes h herr
  | b64e => exact execB64e_storesNamedBytes h herr
  | b64d => exact execB64d_storesNamedBytes h herr
  | enc => exact execEnc_storesNamedBytes h herr
  | dec => exact execDec_storesNamedBytes h herr

end

/-- Settles O22: command by command, what a success writes has the lengths that `storedRanges` names. -/
theorem successStoresOnlyTheNamedBytes : Obligations.SuccessStoresOnlyTheNamedBytes := by
  intro i s t h herr
  exact exec_storesNamedBytes h herr

end Sys2Proof.Machine
end

section
/-!
PROOFS. The command word (30_encoding.md R100 to R104): its three fields hold it bit for bit, and each command is the
meaning of one word.
-/

namespace Sys2Proof

/-! ### The fields of a word (R100) -/

/-- Each bit of a word belongs to one field: bits 7 to 0 to `OP`, bit 8 to `Z`, the others to `RSV`. -/
theorem getLsbD_wordOf (c : CommandWord) (k : Nat) :
    (wordOf c).getLsbD k =
      if k < 8 then c.op.getLsbD k else if k = 8 then c.z else c.rsv.getLsbD (k - 9) := by
  have hlow : (BitVec.ofBool c.z ++ c.op : BitVec 9).getLsbD k =
      if k < 8 then c.op.getLsbD k else (BitVec.ofBool c.z).getLsbD (k - 8) := BitVec.getLsbD_append
  have hword : (wordOf c).getLsbD k =
      if k < 9 then (BitVec.ofBool c.z ++ c.op : BitVec 9).getLsbD k else c.rsv.getLsbD (k - 9) :=
    BitVec.getLsbD_append
  rw [hword, hlow]
  rcases Nat.lt_trichotomy k 8 with hk | rfl | hk
  · simp [hk, Nat.lt_succ_of_lt hk]
  · simp
  · simp [Nat.not_lt.2 (Nat.succ_le_of_lt hk), hk.not_gt, hk.ne']

theorem fieldsOf_wordOf (c : CommandWord) : fieldsOf (wordOf c) = c := by
  have hop : (wordOf c).extractLsb' 0 8 = c.op := by
    ext k hk
    simp [getLsbD_wordOf, hk, BitVec.getLsbD_eq_getElem]
  have hz : (wordOf c).getLsbD 8 = c.z := getLsbD_wordOf c 8
  have hrsv : (wordOf c).extractLsb' 9 23 = c.rsv := by
    ext k hk
    simp [getLsbD_wordOf, show ¬ 9 + k < 8 by omega, show 9 + k ≠ 8 by omega, BitVec.getLsbD_eq_getElem hk]
  rw [fieldsOf, hop, hz, hrsv]

theorem wordOf_fieldsOf (w : Word) : wordOf (fieldsOf w) = w := by
  refine BitVec.eq_of_getLsbD_eq fun k hk => ?_
  rw [getLsbD_wordOf]
  split
  next hop => simp [fieldsOf, hop]
  next hop =>
    split
    next hz => rw [hz, fieldsOf]
    next hz =>
      have hrsv : 9 + (k - 9) = k := by omega
      have hlt : k - 9 < 23 := by omega
      simp [fieldsOf, hrsv, hlt]

theorem fieldsOf_injective : Function.Injective fieldsOf := Function.LeftInverse.injective wordOf_fieldsOf

/-! ### The decoder and the command words (R101, R103) -/

theorem encode_statement (i : Instr) : Laws.Encoding.Statement i := by
  cases i with
  | fwd => exact Laws.Encoding.fwd
  | inv => exact Laws.Encoding.inv
  | invZ => exact Laws.Encoding.invZ
  | cfwd => exact Laws.Encoding.cfwd
  | cinv => exact Laws.Encoding.cinv
  | cinvZ => exact Laws.Encoding.cinvZ
  | kchk => exact Laws.Encoding.kchk
  | kgen => exact Laws.Encoding.kgen
  | vaultSeal => exact Laws.Encoding.vaultSeal
  | vaultUnseal => exact Laws.Encoding.vaultUnseal
  | b64e => exact Laws.Encoding.b64e
  | b64d => exact Laws.Encoding.b64d
  | enc => exact Laws.Encoding.enc
  | dec => exact Laws.Encoding.dec

@[simp] theorem decode_encode (i : Instr) : decode (encode i) = .ok i := by
  obtain ⟨-, hdecode, -⟩ := encode_statement i
  exact hdecode

theorem rsv_fieldsOf_encode (i : Instr) : (fieldsOf (encode i)).rsv = 0 := by
  obtain ⟨⟨hrsv, -, -⟩, -, -⟩ := encode_statement i
  exact hrsv

/-- A command stands in one place of the opcode map, the one its word names (R101). -/
theorem eq_of_commandOf_eq_ok {n : Nat} {z : Bool} {i : Instr} (h : commandOf n z = .ok i) :
    n = (fieldsOf (encode i)).op.toNat ∧ z = (fieldsOf (encode i)).z := by
  unfold commandOf at h
  split at h
  case h_15 =>
    -- The map's last arm answers an error, whichever of the two it is.
    split at h <;> cases h
  all_goals
    cases h
    exact ⟨rfl, rfl⟩

/-- A word that decodes to a command has the fields of the command's word. -/
theorem fieldsOf_of_decode_eq_ok {w : Word} {i : Instr} (h : decode w = .ok i) :
    fieldsOf w = fieldsOf (encode i) := by
  unfold decode at h
  split at h
  next hrsv =>
    obtain ⟨hop, hz⟩ := eq_of_commandOf_eq_ok h
    exact (CommandWord.mk.injEq ..).mpr ⟨BitVec.eq_of_toNat_eq hop, hz, hrsv.trans (rsv_fieldsOf_encode i).symm⟩
  next => cases h

theorem decode_eq_ok_iff (w : Word) (i : Instr) : decode w = .ok i ↔ w = encode i := by
  constructor
  · intro h
    exact fieldsOf_injective (fieldsOf_of_decode_eq_ok h)
  · rintro rfl
    exact decode_encode i

end Sys2Proof

namespace Sys2Proof.Machine

/-- Settles O2: a word decodes exactly when it is legal, and a decoded word has the fields of its command's word. -/
theorem decodeAcceptsExactlyTheLegalWords : Obligations.DecodeAcceptsExactlyTheLegalWords :=
  fun w => ⟨decode_isOk_iff_legal w, decode_eq_ok_iff w⟩

/-- Settles O1: each listed word is its command's `encode`. -/
theorem listedCommandWordsDecode : Obligations.ListedCommandWordsDecode :=
  ⟨decode_encode .fwd, decode_encode .inv, decode_encode .invZ, decode_encode .cfwd, decode_encode .cinv,
    decode_encode .cinvZ, decode_encode .kchk, decode_encode .kgen, decode_encode .vaultSeal,
    decode_encode .vaultUnseal, decode_encode .b64e, decode_encode .b64d, decode_encode .enc, decode_encode .dec⟩

/-- Settles O3: the two directions, bit by bit. -/
theorem commandWordFieldsAreExact : Obligations.CommandWordFieldsAreExact :=
  ⟨fieldsOf_wordOf, wordOf_fieldsOf⟩

end Sys2Proof.Machine
end

section
/-!
PROOFS. The pure functions of 40_cipher.md (R130 to R137) and depadding (R147).  Both passes XOR their input with the
ciphertext delayed by one key: `Forward` gives the `out` with `out = padded xor (key ++ out)`, and `Inverse` is
`data xor (key ++ data)`.  The closed forms and the round trips follow from these two equations.
-/

namespace Sys2Proof.Machine

/-! ### Exclusive-or and blocks (R7) -/

@[simp] theorem xorBytes_nil (y : Bytes) : xorBytes [] y = [] := rfl

@[simp] theorem xorBytes_cons (a b : Byte) (x y : Bytes) : xorBytes (a :: x) (b :: y) = (a ^^^ b) :: xorBytes x y := rfl

/-- The same string XORed on twice cancels. -/
theorem xorBytes_xorBytes_self {x y : Bytes} (h : x.length ≤ y.length) : xorBytes (xorBytes x y) y = x := by
  induction x generalizing y with
  | nil => rfl
  | cons a x ih =>
    cases y with
    | nil => simp at h
    | cons b y =>
      have hcancel : a ^^^ b ^^^ b = a := by rw [BitVec.xor_assoc, BitVec.xor_self, BitVec.xor_zero]
      rw [xorBytes_cons, xorBytes_cons, hcancel, ih (Nat.le_of_succ_le_succ h)]

/-- Zero bytes leave the other string as it is. -/
theorem xorBytes_zeros {n : Nat} {y : Bytes} (h : y.length = n) : xorBytes (zeros n) y = y := by
  subst h
  induction y with
  | nil => rfl
  | cons b y ih =>
    rw [List.length_cons, zeros, List.replicate_succ, xorBytes_cons, ih]
    exact congrArg (· :: y) BitVec.zero_xor

theorem blockOf_xorBytes (len : Nat) (x y : Bytes) (b : Nat) :
    blockOf len (xorBytes x y) b = xorBytes (blockOf len x b) (blockOf len y b) := by
  simp only [blockOf, xorBytes, List.drop_zipWith, List.take_zipWith]

/-- The block of `x` before block `b`, or the key: what block `b` is chained to (R132, R133). -/
abbrev previousBlock (key x : Bytes) (b : Nat) : Bytes := if b = 0 then key else blockOf key.length x (b - 1)

/-- With the key put in front, every block comes one later. -/
theorem blockOf_key_append (key x : Bytes) (b : Nat) : blockOf key.length (key ++ x) b = previousBlock key x b := by
  cases b with
  | zero => simp [blockOf]
  | succ b =>
    have hpos : (b + 1) * key.length = key.length + b * key.length := by rw [Nat.succ_mul, Nat.add_comm]
    rw [blockOf, hpos, List.drop_length_add_append]
    rfl

theorem previousBlock_length {key x : Bytes} {b : Nat} (h : (b + 1) * key.length ≤ x.length) :
    (previousBlock key x b).length = key.length := by
  cases b with
  | zero => rfl
  | succ b => exact blockOf_length (le_trans (Nat.mul_le_mul_right _ (by omega)) h)

/-! ### `Forward` -/

/-- `data` with the padding of R130. -/
abbrev padded (len : Nat) (data : Bytes) : Bytes := data ++ zeros (paddedLength data.length len - data.length)

theorem padded_of_dvd {len : Nat} {data : Bytes} (h : 0 < len) (hd : len ∣ data.length) : padded len data = data := by
  simp [padded, paddedLength_of_dvd h hd]

/-- The key bytes of the next positions from `j` on: the rest of the key buffer, then what the stage holds so far. -/
def PassBuffers.queue (p : PassBuffers) (len j : Nat) : Bytes := p.keyBuf.drop (j % len) ++ p.stage.take (j % len)

/-- The buffers after the cipher byte `c` of position `j` (R131). -/
def PassBuffers.push (p : PassBuffers) (len j : Nat) (c : Byte) : PassBuffers :=
  { keyBuf := if j % len = len - 1 then p.stage.set (j % len) c else p.keyBuf, stage := p.stage.set (j % len) c }

theorem forwardBytes_cons (len j : Nat) (d : Byte) (x : Bytes) (p : PassBuffers) :
    forwardBytes len (d :: x) j p = (d ^^^ p.keyBuf.getD (j % len) 0) ::
      forwardBytes len x (j + 1) (p.push len j (d ^^^ p.keyBuf.getD (j % len) 0)) := rfl

/-- Both buffers hold a whole key or block. -/
abbrev PassBuffers.Full (p : PassBuffers) (len : Nat) : Prop := p.keyBuf.length = len ∧ p.stage.length = len

theorem PassBuffers.push_full {p : PassBuffers} {len : Nat} (h : p.Full len) (j : Nat) (c : Byte) :
    (p.push len j c).Full len := by
  obtain ⟨hkey, hstage⟩ := h
  refine ⟨?_, by simp [push, hstage]⟩
  simp only [push]
  split
  · simp [hstage]
  · exact hkey

/-- A cipher byte goes to the end of the queue, and the byte at its front is used up. -/
theorem PassBuffers.queue_push {p : PassBuffers} {len : Nat} (h0 : 0 < len) (h : p.Full len) (j : Nat) (c : Byte) :
    p.queue len j ++ [c] = p.keyBuf.getD (j % len) 0 :: (p.push len j c).queue len (j + 1) := by
  obtain ⟨hkey, hstage⟩ := h
  have hr : j % len < len := Nat.mod_lt j h0
  have hfront : p.keyBuf.drop (j % len) = p.keyBuf.getD (j % len) 0 :: p.keyBuf.drop (j % len + 1) := by
    rw [List.drop_eq_getElem_cons (by omega), List.getD_eq_getElem _ _ (by omega)]
  have hback : (p.stage.set (j % len) c).take (j % len + 1) = p.stage.take (j % len) ++ [c] := by
    rw [List.take_succ_eq_append_getElem (by simpa [hstage] using hr), List.take_set_of_le le_rfl,
      List.getElem_set_self]
  rw [queue, queue, hfront, List.cons_append, List.cons_append, List.append_assoc, ← hback, push]
  congr 1
  by_cases hlast : j % len = len - 1
  · have hend : j % len + 1 = len := by omega
    have hnext : (j + 1) % len = 0 := by rw [← Nat.mod_add_mod, hend, Nat.mod_self]
    rw [if_pos hlast, hnext, hend, List.drop_of_length_le hkey.le, List.take_of_length_le (by simp [hstage])]
    simp
  · have hnext : (j + 1) % len = j % len + 1 := by rw [← Nat.mod_add_mod, Nat.mod_eq_of_lt (by omega)]
    rw [if_neg hlast, hnext]

/-- The chain of R131: each output byte is XORed with the queue, and then with the output itself. -/
theorem forwardBytes_eq_xorBytes {len : Nat} (h0 : 0 < len) (x : Bytes) (j : Nat) {p : PassBuffers} (h : p.Full len) :
    forwardBytes len x j p = xorBytes x (p.queue len j ++ forwardBytes len x j p) := by
  induction x generalizing j p with
  | nil => rfl
  | cons d x ih =>
    rw [forwardBytes_cons, List.append_cons, PassBuffers.queue_push h0 h, List.cons_append, xorBytes_cons,
      ← ih (j + 1) (PassBuffers.push_full h j _)]

/-- `Forward` chains the padded input to its own output, one key later (R132). -/
theorem forward_eq_xorBytes {key : Bytes} (hk : 0 < key.length) (data : Bytes) :
    forward data key = xorBytes (padded key.length data) (key ++ forward data key) := by
  have hfull : PassBuffers.Full { keyBuf := key, stage := zeros key.length } key.length := ⟨rfl, List.length_replicate⟩
  have hqueue : PassBuffers.queue { keyBuf := key, stage := zeros key.length } key.length 0 = key := by
    simp [PassBuffers.queue]
  have h := forwardBytes_eq_xorBytes hk (padded key.length data) 0 hfull
  rwa [hqueue] at h

/-! ### `Inverse` -/

/-- The loop of R133 replaces the blocks below `n` by those of `data xor (key ++ data)`. -/
theorem inverseBlocks_eq {data key out : Bytes} {n : Nat} (hn : n * key.length ≤ data.length)
    (ho : out.length = data.length) :
    inverseBlocks data key n out = (xorBytes data (key ++ data)).take (n * key.length) ++ out.drop (n * key.length) := by
  induction n generalizing out with
  | zero => simp [inverseBlocks]
  | succ b ih =>
    have hblock : xorBytes (blockOf key.length data b) (previousBlock key data b) =
        blockOf key.length (xorBytes data (key ++ data)) b := by
      rw [blockOf_xorBytes, blockOf_key_append]
    have hpos : b * key.length + key.length ≤ data.length := by rwa [← Nat.succ_mul]
    have hlen : (blockOf key.length (xorBytes data (key ++ data)) b).length = key.length :=
      blockOf_length (by simpa using hn)
    have htake : (out.take (b * key.length)).length = b * key.length := by
      rw [List.length_take]
      omega
    rw [inverseBlocks, hblock, ih (by omega) (by rw [splice_length] <;> omega), splice, hlen, List.append_assoc,
      List.drop_left' htake, ← List.append_assoc, Nat.succ_mul, List.take_add]
    rfl

/-- `Inverse` XORs its input with the input itself, one key later (R134). -/
theorem inverse_eq_xorBytes {data key : Bytes} (hd : key.length ∣ data.length) :
    inverse data key = xorBytes data (key ++ data) := by
  have hall : data.length / key.length * key.length = data.length := Nat.div_mul_cancel hd
  rw [inverse, inverseBlocks_eq hall.le (by simp), hall, List.take_of_length_le (by simp), List.drop_of_length_le (by simp),
    List.append_nil]

/-! ### Round trips (R137) -/

theorem forward_dvd {key : Bytes} (hk : 0 < key.length) (data : Bytes) : key.length ∣ (forward data key).length := by
  rw [forward_length data hk]
  exact paddedLength_dvd _ _

theorem padded_length {len : Nat} (h : 0 < len) (data : Bytes) :
    (padded len data).length = paddedLength data.length len := by
  have := le_paddedLength (n := data.length) h
  simp [padded]
  omega

theorem inverse_forward {key : Bytes} (hk : 0 < key.length) (data : Bytes) :
    inverse (forward data key) key = padded key.length data := by
  have hlen : (padded key.length data).length ≤ (key ++ forward data key).length := by
    rw [padded_length hk, List.length_append, forward_length data hk]
    omega
  calc inverse (forward data key) key
      = xorBytes (forward data key) (key ++ forward data key) := inverse_eq_xorBytes (forward_dvd hk data)
    _ = xorBytes (xorBytes (padded key.length data) (key ++ forward data key)) (key ++ forward data key) := by
        rw [← forward_eq_xorBytes hk]
    _ = padded key.length data := xorBytes_xorBytes_self hlen

/-- A string chained to itself behind at least one byte is determined by what it is chained with. -/
theorem eq_of_eq_xorBytes {x q c c' : Bytes} (hq : q ≠ []) (hc : c = xorBytes x (q ++ c))
    (hc' : c' = xorBytes x (q ++ c')) : c = c' := by
  induction x generalizing q c c' with
  | nil => rw [hc, hc', xorBytes_nil, xorBytes_nil]
  | cons a x ih =>
    cases q with
    | nil => exact absurd rfl hq
    | cons b q =>
      rw [List.cons_append, xorBytes_cons] at hc hc'
      obtain ⟨d, rfl⟩ : ∃ d, c = (a ^^^ b) :: d := ⟨_, hc⟩
      obtain ⟨d', rfl⟩ : ∃ d, c' = (a ^^^ b) :: d := ⟨_, hc'⟩
      rw [List.append_cons] at hc hc'
      rw [ih (by simp) (List.tail_eq_of_cons_eq hc) (List.tail_eq_of_cons_eq hc')]

theorem forward_inverse {c key : Bytes} (hk : 0 < key.length) (hd : key.length ∣ c.length) :
    forward (inverse c key) key = c := by
  have hpad : padded key.length (inverse c key) = inverse c key := padded_of_dvd hk (by rwa [inverse_length])
  refine eq_of_eq_xorBytes (x := inverse c key) (List.ne_nil_of_length_pos hk) ?_ ?_
  · conv_lhs => rw [forward_eq_xorBytes hk, hpad]
  · rw [inverse_eq_xorBytes hd, xorBytes_xorBytes_self (by simp)]

theorem cascadeInverse_cons (x k : Bytes) (ks : List Bytes) :
    cascadeInverse x (k :: ks) = inverse (cascadeInverse x ks) k := by
  simp [cascadeInverse]

theorem cascadeInverse_cascadeForward_of_dvd {ks : List Bytes} {len : Nat} (h0 : 0 < len)
    (hk : ∀ k ∈ ks, k.length = len) {data : Bytes} (hd : len ∣ data.length) :
    cascadeInverse (cascadeForward data ks) ks = data := by
  induction ks generalizing data with
  | nil => rfl
  | cons k ks ih =>
    obtain ⟨rfl, hks⟩ := List.forall_mem_cons.1 hk
    calc cascadeInverse (cascadeForward data (k :: ks)) (k :: ks)
        = inverse (cascadeInverse (cascadeForward (forward data k) ks) ks) k := cascadeInverse_cons _ _ _
      _ = inverse (forward data k) k := by rw [ih hks (forward_dvd h0 data)]
      _ = data := by rw [inverse_forward h0, padded_of_dvd h0 hd]

/-- Only the first pass pads, so only its inverse gives back the padding. -/
theorem cascadeInverse_cascadeForward {ks : List Bytes} {len : Nat} (h : ValidKeys ks len) (data : Bytes) :
    cascadeInverse (cascadeForward data ks) ks = padded len data := by
  obtain ⟨hne, h0, -, hk⟩ := h
  obtain ⟨k, ks, rfl⟩ := List.exists_cons_of_ne_nil hne
  obtain ⟨⟨rfl, -⟩, hks⟩ := List.forall_mem_cons.1 hk
  have hpos : 0 < k.length := Nat.pos_of_ne_zero h0
  calc cascadeInverse (cascadeForward data (k :: ks)) (k :: ks)
      = inverse (cascadeInverse (cascadeForward (forward data k) ks) ks) k := cascadeInverse_cons _ _ _
    _ = inverse (forward data k) k := by
        rw [cascadeInverse_cascadeForward_of_dvd hpos (fun q hq => (hks q hq).1) (forward_dvd hpos data)]
    _ = padded k.length data := inverse_forward hpos data

/-! ### Depadding (R147) -/

theorem stripZeros_cons (b : Byte) (x : Bytes) :
    stripZeros (b :: x) = if stripZeros x = [] ∧ b = 0 then [] else b :: stripZeros x := by
  rw [stripZeros]
  cases stripZeros x <;> simp

/-- What is stripped is zero bytes. -/
theorem eq_stripZeros_append_zeros (x : Bytes) : ∃ n, x = stripZeros x ++ zeros n := by
  induction x with
  | nil => exact ⟨0, rfl⟩
  | cons b x ih =>
    obtain ⟨n, hn⟩ := ih
    rw [stripZeros_cons]
    split
    next h =>
      obtain ⟨hx, rfl⟩ := h
      rw [hx] at hn
      exact ⟨n + 1, congrArg (0 :: ·) hn⟩
    next => exact ⟨n, congrArg (b :: ·) hn⟩

/-- What is left does not end in a zero byte. -/
theorem getLast?_stripZeros_ne (x : Bytes) : (stripZeros x).getLast? ≠ some 0 := by
  induction x with
  | nil => simp [stripZeros]
  | cons b x ih =>
    rw [stripZeros_cons]
    split
    next => simp
    next h =>
      cases hx : stripZeros x with
      | nil => simpa [hx] using h
      | cons c y => rwa [hx, ← List.getLast?_cons_cons (a := b)] at ih

theorem stripZeros_append_zeros (x : Bytes) (n : Nat) : stripZeros (x ++ zeros n) = stripZeros x := by
  induction x with
  | nil =>
    induction n with
    | zero => rfl
    | succ n ih => exact (stripZeros_cons 0 (zeros n)).trans (if_pos ⟨ih, rfl⟩)
  | cons b x ih => rw [List.cons_append, stripZeros_cons, stripZeros_cons, ih]

theorem stripZeros_eq_self_iff (x : Bytes) : stripZeros x = x ↔ x = [] ∨ x.getLast? ≠ some 0 := by
  constructor
  · intro h
    exact .inr (h ▸ getLast?_stripZeros_ne x)
  · rintro (rfl | hlast)
    · rfl
    · obtain ⟨n, hn⟩ := eq_stripZeros_append_zeros x
      cases n with
      | zero => simpa using hn.symm
      | succ n =>
        rw [hn, zeros, List.replicate_succ', ← List.append_assoc, List.getLast?_concat] at hlast
        exact absurd rfl hlast

/-- Settles O47: what is stripped is zero bytes, and what is left does not end in one. -/
theorem stripZerosRemovesOnlyTrailingZeros : Obligations.StripZerosRemovesOnlyTrailingZeros := by
  refine fun x => ⟨eq_stripZeros_append_zeros x, ?_⟩
  cases hx : (stripZeros x).getLast? with
  | none => exact .inl (List.getLast?_eq_none_iff.1 hx)
  | some b =>
    refine .inr ⟨b, rfl, ?_⟩
    rintro rfl
    exact getLast?_stripZeros_ne x hx

/-- Depadding gives the data back exactly when it does not end in a zero byte (R137). -/
theorem stripZeros_padded_eq_iff (len : Nat) (data : Bytes) :
    stripZeros (padded len data) = data ↔ data = [] ∨ data.getLast? ≠ some 0 := by
  rw [padded, stripZeros_append_zeros, stripZeros_eq_self_iff]

/-! ### The statements -/

/-- Settles O44: the blocks of the chain; and `Inverse` undoes `Forward` on both sides. -/
theorem forwardChainsBlocks : Obligations.ForwardChainsBlocks := by
  intro key hkey
  have hk : 0 < key.length := List.length_pos_of_ne_nil hkey
  refine ⟨fun data => ⟨forward_length data hk, fun b hb => ?_⟩, fun n hn => ⟨fun x y hx hy hxy => ?_, fun c hc => ?_⟩⟩
  · have hblock : blockOf key.length (forward data key) b =
        xorBytes (blockOf key.length (padded key.length data) b) (previousBlock key (forward data key) b) := by
      rw [← blockOf_key_append, ← blockOf_xorBytes, ← forward_eq_xorBytes hk]
    refine ⟨hblock, fun hzero => ?_⟩
    rw [hblock, hzero]
    exact xorBytes_zeros (previousBlock_length hb)
  · calc x = inverse (forward x key) key := by rw [inverse_forward hk, padded_of_dvd hk (hx ▸ hn)]
      _ = y := by rw [hxy, inverse_forward hk, padded_of_dvd hk (hy ▸ hn)]
  · exact ⟨inverse c key, (inverse_length c key).trans hc, forward_inverse hk (hc ▸ hn)⟩

/-- Settles O45: block `b` of the delayed input is the block before block `b`. -/
theorem inverseUnchainsBlocks : Obligations.InverseUnchainsBlocks := by
  intro data key _ hd
  refine ⟨inverse_length data key, fun b _ => ?_⟩
  rw [inverse_eq_xorBytes hd, blockOf_xorBytes, blockOf_key_append]

/-- Settles O46: the key order is that of the two folds, the round trips give back the padded data, and depadding sees
through the padding. -/
theorem cipherRoundTrips : Obligations.CipherRoundTrips := by
  refine ⟨fun x k ks => ⟨rfl, rfl, rfl, by simp [cascadeInverse]⟩, fun data key hkey => ?_, fun data ks len h => ?_,
    fun c key hkey => forward_inverse (List.length_pos_of_ne_nil hkey)⟩
  · rw [inverse_forward (List.length_pos_of_ne_nil hkey)]
    exact ⟨rfl, stripZeros_padded_eq_iff _ data⟩
  · rw [cascadeInverse_cascadeForward h]
    exact ⟨rfl, stripZeros_padded_eq_iff _ data⟩

end Sys2Proof.Machine
end

section
/-!
PROOFS. The cipher commands (40_cipher.md R139 to R146): what FWD and CFWD, and INV and CINV with and without Z, end in
once their regions and keys are in order.
-/

namespace Sys2Proof.Machine

section
variable {s : State} {row : CommandRow} {ks : List Bytes} {len : Nat} (hr : RegionsOk s row) (hk : KeysOk s row ks len)
include hr hk

/-- FWD and CFWD check the padded length against DST_CAP, then encipher SRC into DST (R140, R142). -/
theorem forwardCommand_of_keysOk (f : Bytes → List Bytes → Bytes) :
    forwardCommand s row f = .next (
      if paddedLength s.latch.src.len len ≤ s.latch.dst.len then
        ended s (s.mem.writeBytes s.latch.dst.addr (f (s.latch.src.bytes s.mem) ks)) .success 0
          (paddedLength s.latch.src.len len) ks.length len
      else failed s .capacityExceeded 0) := by
  rw [forwardCommand, checkRegions_ok hr, ok_bind, keyPhase_ok hk, ok_bind, demand_bind, hk.1]
  split <;> rfl

/-- INV and CINV check for whole blocks, then the length against DST_CAP, then decipher SRC into DST (R141, R143). -/
theorem inverseCommand_of_keysOk (depad : Bool) (f : Bytes → List Bytes → Bytes) :
    inverseCommand s row depad f = .next (
      if s.latch.src.len % len = 0 then
        if s.latch.src.len ≤ s.latch.dst.len then
          ended s (s.mem.writeBytes s.latch.dst.addr (f (s.latch.src.bytes s.mem) ks)) .success 0
            (if depad then (stripZeros (f (s.latch.src.bytes s.mem) ks)).length else s.latch.src.len) ks.length len
        else failed s .capacityExceeded 0
      else failed s .blockLength 0) := by
  rw [inverseCommand, checkRegions_ok hr, ok_bind, keyPhase_ok hk, ok_bind, demand_bind, demand_bind, hk.1]
  split
  · split <;> rfl
  · rfl

theorem inverseCommand_succeeds (hblocks : s.latch.src.len % len = 0) (hcap : s.latch.src.len ≤ s.latch.dst.len)
    (depad : Bool) (f : Bytes → List Bytes → Bytes) :
    inverseCommand s row depad f = .next (ended s
      (s.mem.writeBytes s.latch.dst.addr (f (s.latch.src.bytes s.mem) ks)) .success 0
      (if depad then (stripZeros (f (s.latch.src.bytes s.mem) ks)).length else s.latch.src.len) ks.length len) := by
  rw [inverseCommand_of_keysOk hr hk, if_pos hblocks, if_pos hcap]

end

/-! ### The six commands -/

theorem exec_fwd (s : State) :
    exec .fwd s = forwardCommand s (s.latch.row .fwd) fun data keys => forward data (firstKey keys) := rfl

theorem exec_cfwd (s : State) : exec .cfwd s = forwardCommand s (s.latch.row .cfwd) cascadeForward := rfl

theorem exec_inv (s : State) :
    exec .inv s = inverseCommand s (s.latch.row .inv) false fun data keys => inverse data (firstKey keys) := rfl

theorem exec_invZ (s : State) :
    exec .invZ s = inverseCommand s (s.latch.row .invZ) true fun data keys => inverse data (firstKey keys) := rfl

theorem exec_cinv (s : State) : exec .cinv s = inverseCommand s (s.latch.row .cinv) false cascadeInverse := rfl

theorem exec_cinvZ (s : State) : exec .cinvZ s = inverseCommand s (s.latch.row .cinvZ) true cascadeInverse := rfl

theorem exec_eq_forwardCommand : ∀ i ∈ [Instr.fwd, .cfwd], ∃ f, ∀ s, exec i s = forwardCommand s (s.latch.row i) f :=
  List.forall_mem_cons.2 ⟨⟨_, exec_fwd⟩, List.forall_mem_singleton.2 ⟨_, exec_cfwd⟩⟩

theorem exec_eq_inverseCommand : ∀ i ∈ [Instr.inv, .invZ, .cinv, .cinvZ],
    ∃ depad f, ∀ s, exec i s = inverseCommand s (s.latch.row i) depad f :=
  List.forall_mem_cons.2 ⟨⟨_, _, exec_inv⟩, List.forall_mem_cons.2 ⟨⟨_, _, exec_invZ⟩,
    List.forall_mem_cons.2 ⟨⟨_, _, exec_cinv⟩, List.forall_mem_singleton.2 ⟨_, _, exec_cinvZ⟩⟩⟩⟩

/-- Settles O28, from the two shapes' checks. -/
theorem cipherCommandsCheckLengths : Obligations.CipherCommandsCheckLengths := by
  refine fun s ks len => ⟨fun i hi hr hk hcap => ?_, fun i hi hr hk => ?_⟩
  · obtain ⟨f, hexec⟩ := exec_eq_forwardCommand i hi
    rw [hexec, forwardCommand_of_keysOk hr hk, if_neg hcap.not_ge]
  · obtain ⟨depad, f, hexec⟩ := exec_eq_inverseCommand i hi
    rw [hexec, inverseCommand_of_keysOk hr hk]
    exact ⟨fun hblocks => by rw [if_neg hblocks], fun hblocks hcap => by rw [if_pos hblocks, if_neg hcap.not_ge]⟩

/-- Settles O31: FWD's transform uses the first key of the table. -/
theorem fwdEnciphersWithTheFirstKey : Obligations.FwdEnciphersWithTheFirstKey := by
  intro s key len hr hk hcap
  rw [exec_fwd, forwardCommand_of_keysOk hr hk, if_pos hcap]
  rfl

/-- Settles O32: CFWD's transform is the cascade. -/
theorem cfwdEnciphersWithEveryKey : Obligations.CfwdEnciphersWithEveryKey := by
  intro s ks len hr hk hcap
  rw [exec_cfwd, forwardCommand_of_keysOk hr hk, if_pos hcap]
  rfl

/-- Settles O33: INV and INV.Z have one row and one transform, and differ in the Z bit. -/
theorem invDeciphersWithTheFirstKey : Obligations.InvDeciphersWithTheFirstKey := by
  intro s key len hr hk hblocks hcap
  exact ⟨(exec_inv s).trans (inverseCommand_succeeds hr hk hblocks hcap false _),
    (exec_invZ s).trans (inverseCommand_succeeds hr hk hblocks hcap true _)⟩

/-- Settles O34: CINV and CINV.Z have one row and one transform, and differ in the Z bit. -/
theorem cinvDeciphersWithEveryKey : Obligations.CinvDeciphersWithEveryKey := by
  intro s ks len hr hk hblocks hcap
  exact ⟨(exec_cinv s).trans (inverseCommand_succeeds hr hk hblocks hcap false _),
    (exec_cinvZ s).trans (inverseCommand_succeeds hr hk hblocks hcap true _)⟩

end Sys2Proof.Machine
end

section
/-!
PROOFS. Keys (41_keys.md): which error validation gives (R171), what the key phase reports (R170, R172; 60_exceptions.md
R264 step 5), and KCHK (R173).
-/

namespace Sys2Proof.Machine

/-! ### Validation -/

/-- The position of the first element with a property. -/
theorem findIdx?_of_first {α : Type} {p : α → Bool} {l : List α} {j : Nat} {q : α} (hq : l[j]? = some q)
    (hp : p q = true) (hbefore : ∀ i < j, ∀ x, l[i]? = some x → p x = false) : l.findIdx? p = some j := by
  obtain ⟨hj, rfl⟩ := List.getElem?_eq_some_iff.1 hq
  refine List.findIdx?_eq_some_iff_getElem.2 ⟨hj, hp, fun i hi => ?_⟩
  rw [hbefore i hi _ (List.getElem?_eq_getElem _)]
  exact Bool.false_ne_true

section
variable {k : Bytes} {rest : List Bytes}

theorem validateKeys_invalidLength (h : k.length = 0 ∨ k.length % 64 ≠ 0) :
    validateKeys (k :: rest) = .error { code := .invalidLength, info := 1 } := if_pos h

variable (h0 : k.length ≠ 0) (h64 : k.length % 64 = 0)
include h0 h64

theorem validateKeys_lengthMismatch {j : Nat} {q : Bytes} (hq : (k :: rest)[j]? = some q) (hlen : q.length ≠ k.length)
    (hbefore : ∀ i < j, ∀ p, (k :: rest)[i]? = some p → p.length = k.length) :
    validateKeys (k :: rest) = .error { code := .lengthMismatch, info := j + 1 } := by
  have hfirst : (k :: rest).findIdx? (fun q => decide (q.length ≠ k.length)) = some j :=
    findIdx?_of_first hq (decide_eq_true hlen) fun i hi p hp => decide_eq_false (not_not.2 (hbefore i hi p hp))
  rw [validateKeys, if_neg (by omega), hfirst]

theorem validateKeys_invalidKey (hsame : ∀ q ∈ k :: rest, q.length = k.length) {j : Nat} {q : Bytes}
    (hq : (k :: rest)[j]? = some q) (hbad : ∃ c ∈ q, ¬ IsHexChar c)
    (hbefore : ∀ i < j, ∀ p, (k :: rest)[i]? = some p → ∀ c ∈ p, IsHexChar c) :
    validateKeys (k :: rest) = .error { code := .invalidKey, info := j + 1 } := by
  have hlengths : (k :: rest).findIdx? (fun q => decide (q.length ≠ k.length)) = none :=
    List.findIdx?_eq_none_iff.2 fun q hq => decide_eq_false (not_not.2 (hsame q hq))
  have hfirst : (k :: rest).findIdx? (fun q => q.any (fun c => decide (¬ IsHexChar c))) = some j := by
    refine findIdx?_of_first hq ?_ fun i hi p hp => List.any_eq_false.2 fun c hc => ?_
    · obtain ⟨c, hc, hchar⟩ := hbad
      exact List.any_eq_true.2 ⟨c, hc, decide_eq_true hchar⟩
    · rw [decide_eq_true_iff]
      exact not_not.2 (hbefore i hi p hp c hc)
  rw [validateKeys, if_neg (by omega), hlengths]
  simp only [hfirst]

end

/-- Settles O49: one law for each case of the rule, and success from the characterisation of valid key sets. -/
theorem validationReportsTheFirstDefect : Obligations.ValidationReportsTheFirstDefect := by
  refine ⟨rfl, fun k rest => ⟨validateKeys_invalidLength, fun h0 h64 => ⟨fun _ _ => validateKeys_lengthMismatch h0 h64,
    fun hsame => ⟨fun _ _ => validateKeys_invalidKey h0 h64 hsame, fun hhex => ?_⟩⟩⟩⟩
  have hvalid : ValidKeys (k :: rest) k.length :=
    ⟨List.cons_ne_nil k rest, h0, h64, fun q hq => ⟨hsame q hq, hhex q hq⟩⟩
  exact (validateKeys_eq_ok_iff (k :: rest) ⟨k.length, k :: rest⟩).2 ⟨hvalid, rfl⟩

/-! ### The key phase -/

theorem keyPhase_noKeys {s : State} {row : CommandRow} (h : row.keyCount = 0) :
    keyPhase s row = .error { code := .noKeys } := by
  rw [keyPhase, demand_of_not (not_not.2 h), error_bind]

/-- The lowest descriptor that is not in order ends the descriptor loop, with its bounds checked first (R170). -/
theorem readDescriptors_first_error {s : State} {row : CommandRow} {n j : Nat} (hj : j < n)
    (hbefore : ∀ k < j, DescriptorOk s row k) (hbad : ¬ DescriptorOk s row j) :
    readDescriptors s.latch s.mem s.params.bufSize row.writes n 0 = .error
      { code := if (s.latch.keyRegion s.mem j).InBounds s.params.bufSize then .overlap else .readFailed
        info := j + 1 } := by
  cases h : readDescriptors s.latch s.mem s.params.bufSize row.writes n 0 with
  | ok rs => exact absurd (((readDescriptors_eq_ok_iff s row n 0 rs).1 h).1 j (Nat.zero_le j) (by omega)) hbad
  | error e =>
    obtain ⟨i, -, -, hinfo, hlower, hfail⟩ := readDescriptors_error h
    have hij : i = j := by
      rcases Nat.lt_trichotomy i j with hlt | heq | hgt
      · obtain ⟨hin, hclear⟩ := hbefore i hlt
        rcases hfail with ⟨-, hout⟩ | ⟨-, -, hmeet⟩
        · exact absurd hin hout
        · exact absurd hclear hmeet
      · exact heq
      · exact absurd (hlower j (Nat.zero_le j) hgt) hbad
    subst hij
    obtain ⟨code, info⟩ := e
    obtain rfl : info = i + 1 := hinfo
    rcases hfail with ⟨rfl, hout⟩ | ⟨rfl, hin, -⟩
    · rw [if_neg hout]
    · rw [if_pos hin]

theorem keyPhase_of_descriptor_error {s : State} {row : CommandRow} {e : Raise} (hk : row.keyCount ≠ 0)
    (h : readDescriptors s.latch s.mem s.params.bufSize row.writes row.keyCount 0 = .error e) :
    keyPhase s row = .error e := by
  rw [keyPhase, demand_of hk, ok_bind, h, error_bind]

/-- With every descriptor in order the key phase is validation of the keys they name. -/
theorem keyPhase_eq_validateKeys {s : State} {row : CommandRow} (hk : row.keyCount ≠ 0)
    (hd : ∀ k < row.keyCount, DescriptorOk s row k) :
    keyPhase s row =
      validateKeys ((List.range row.keyCount).map (fun k => (s.latch.keyRegion s.mem k).bytes s.mem)) := by
  have hread := (readDescriptors_eq_ok_iff s row row.keyCount 0 _).2 ⟨fun j _ hj => hd j (by omega), rfl⟩
  rw [keyPhase, demand_of hk, ok_bind, hread, ok_bind, List.map_map, List.range_eq_range']
  rfl

theorem planSeal_of_keyPhase_error {s : State} {e : Raise} (hr : RegionsOk s s.latch.sealRow)
    (h : keyPhase s s.latch.sealRow = .error e) : planSeal s = .error e := by
  simp only [planSeal, checkRegions_ok hr, ok_bind, h, error_bind]

/-- Every keyed command whose fixed regions are in order goes on with the key phase, and reports its error. -/
theorem exec_of_keyPhase_error {i : Instr} {s : State} {e : Raise} (hi : keyed i = true)
    (hr : RegionsOk s (s.latch.row i)) (h : keyPhase s (s.latch.row i) = .error e) :
    exec i s = .next (failed s e.code e.info) := by
  have hbody (f : KeySet → Except Raise State) :
      s.conclude (checkRegions s.params.bufSize (s.latch.row i) >>= fun _ => keyPhase s (s.latch.row i) >>= f) =
        .next (failed s e.code e.info) := by
    rw [checkRegions_ok hr, ok_bind, h, error_bind, conclude_error, raise_eq_failed]
  cases i with
  | vaultSeal =>
    rw [exec, execSeal, planSeal_of_keyPhase_error hr h, error_bind, conclude_error, raise_eq_failed]
  | kgen => cases hi
  | vaultUnseal => cases hi
  | b64e => cases hi
  | b64d => cases hi
  | _ => exact hbody _

/-- Settles O27: each clause is an error of the key phase, which every keyed command reports. -/
theorem keyErrorsAreReportedWithTheKeyNumber : Obligations.KeyErrorsAreReportedWithTheKeyNumber := by
  intro i s hi hr
  have hreport := fun e => @exec_of_keyPhase_error i s e hi hr
  refine ⟨fun hk => hreport _ (keyPhase_noKeys hk), fun j hj hbefore hout => ?_,
    fun j hj hbefore hin ⟨w, hw, hmeet⟩ => ?_, fun hk hd e he => hreport e ((keyPhase_eq_validateKeys hk hd).trans he)⟩
  · have hfirst := readDescriptors_first_error hj hbefore fun hok => hout hok.1
    rw [if_neg hout] at hfirst
    exact hreport _ (keyPhase_of_descriptor_error (by omega) hfirst)
  · have hfirst := readDescriptors_first_error hj hbefore fun hok => hok.2 w hw hmeet
    rw [if_pos hin] at hfirst
    exact hreport _ (keyPhase_of_descriptor_error (by omega) hfirst)

/-- Settles O35: KCHK's whole work is its two checks. -/
theorem kchkReportsTheKeySet : Obligations.KchkReportsTheKeySet := by
  intro s ks len hr hk
  have hregions : checkRegions s.params.bufSize s.latch.checkRow = .ok () := checkRegions_ok hr
  have hkeys : keyPhase s s.latch.checkRow = .ok ⟨len, ks⟩ := keyPhase_ok hk
  have hcount : s.latch.checkRow.keyCount = ks.length := hk.1
  simp only [exec, execKchk, hregions, hkeys, hcount, ok_bind]
  rfl

end Sys2Proof.Machine
end

section
/-!
PROOFS. The commands without keys after their regions (41_keys.md R177, R178; 42_vault.md R215; 43_envelope.md R234,
R235; 60_exceptions.md R264 step 6): their checks in order, and what follows them; and what KGEN leaves (R174 to R177;
30_encoding.md R107).
-/

namespace Sys2Proof.Machine

/-! ### The checks of the four commands -/

section
variable {s : State}

/-- KGEN checks the key size, then the capacity, then generates (R177, R178). -/
theorem exec_kgen_of_regionsOk (hr : RegionsOk s (s.latch.row .kgen)) :
    exec .kgen s = .next (
      if s.latch.ops.kgBits.toNat ≠ 0 ∧ s.latch.ops.kgBits.toNat % 256 = 0 then
        if s.latch.ops.kgCount.toNat * (s.latch.ops.kgBits.toNat / 4) ≤ s.latch.dst.len then
          generate s { bits := s.latch.ops.kgBits.toNat, count := s.latch.ops.kgCount.toNat,
                       keyLen := s.latch.ops.kgBits.toNat / 4 }
        else failed s .capacityExceeded 0
      else failed s .keySize 0) := by
  have hregions : checkRegions s.params.bufSize s.latch.generateRow = .ok () := checkRegions_ok hr
  simp only [exec, execKgen, planGeneration, hregions, ok_bind, demand_bind]
  split
  · split <;> rfl
  · rfl

/-- B64E checks the length of its text, then encodes (R234). -/
theorem exec_b64e_of_regionsOk (hr : RegionsOk s (s.latch.row .b64e)) :
    exec .b64e s = .next (
      if base64Length s.latch.src.len ≤ s.latch.dst.len then
        ended s (s.mem.writeBytes s.latch.dst.addr (base64Encode (s.latch.src.bytes s.mem))) .success 0
          (base64Length s.latch.src.len) 0 0
      else failed s .capacityExceeded 0) := by
  have hregions : checkRegions s.params.bufSize s.latch.base64Row = .ok () := checkRegions_ok hr
  simp only [exec, execB64e, hregions, ok_bind, demand_bind]
  split <;> rfl

/-- B64D checks the text, then the length of the decoded bytes, then stores them (R235). -/
theorem exec_b64d_of_regionsOk (hr : RegionsOk s (s.latch.row .b64d)) :
    exec .b64d s = .next (
      if base64Valid (s.latch.src.bytes s.mem) = true then
        if (base64Decode (s.latch.src.bytes s.mem)).length ≤ s.latch.dst.len then
          ended s (s.mem.writeBytes s.latch.dst.addr (base64Decode (s.latch.src.bytes s.mem))) .success 0
            (base64Decode (s.latch.src.bytes s.mem)).length 0 0
        else failed s .capacityExceeded 0
      else failed s .decodeFailed 0) := by
  have hregions : checkRegions s.params.bufSize s.latch.base64Row = .ok () := checkRegions_ok hr
  simp only [exec, execB64d, hregions, ok_bind, demand_bind]
  split
  · split <;> rfl
  · rfl

/-- UNSEAL checks the text, then the length of the decoded bytes against SCR_CAP, then that they are whole blocks of the
passKey, then unseals (R215). -/
theorem exec_vaultUnseal_of_regionsOk (hr : RegionsOk s (s.latch.row .vaultUnseal)) :
    exec .vaultUnseal s = .next (
      if base64Valid (s.latch.src.bytes s.mem) = true then
        if (base64Decode (s.latch.src.bytes s.mem)).length ≤ s.latch.scr.len then
          if (base64Decode (s.latch.src.bytes s.mem)).length % passKeyLength = 0 then
            unsealVault s (base64Decode (s.latch.src.bytes s.mem))
          else failed s .wrongPasswordOrCorrupt 0
        else failed s .capacityExceeded 0
      else failed s .decodeFailed 0) := by
  have hregions : checkRegions s.params.bufSize s.latch.unsealRow = .ok () := checkRegions_ok hr
  simp only [exec, execUnseal, hregions, ok_bind, demand_bind]
  split
  · split
    · split <;> rfl
    · rfl
  · rfl

end

/-- Settles O30, from the four commands' checks. -/
theorem keylessCommandsCheckTheirOperands : Obligations.KeylessCommandsCheckTheirOperands := by
  refine fun s => ⟨fun hr => ?_, fun hr hcap => ?_, fun hr => ?_, fun hr => ?_⟩
  · rw [exec_kgen_of_regionsOk hr]
    exact ⟨fun hsize => by rw [if_neg (by omega)], fun h0 hbits hcap => by rw [if_pos ⟨h0, hbits⟩, if_neg hcap.not_ge]⟩
  · rw [exec_b64e_of_regionsOk hr, if_neg hcap.not_ge]
  · rw [exec_b64d_of_regionsOk hr]
    exact ⟨fun hbad => by rw [if_neg (ne_true_of_eq_false hbad)],
      fun hvalid hcap => by rw [if_pos hvalid, if_neg hcap.not_ge]⟩
  · rw [exec_vaultUnseal_of_regionsOk hr]
    exact ⟨fun hbad => by rw [if_neg (ne_true_of_eq_false hbad)], fun hvalid =>
      ⟨fun hcap => by rw [if_pos hvalid, if_neg hcap.not_ge],
        fun hcap hblocks => by
          rw [if_pos hvalid, if_pos hcap]
          exact congrArg _ (if_neg hblocks)⟩⟩

/-! ### KGEN's execute phase -/

theorem generate_of_draw {s : State} {p : GenerationPlan} {seeds : Bytes} {e : Entropy} (hb : p.bits % 256 = 0)
    (hdraw : s.entropy.draw (p.count * (p.bits / 8)) = (some seeds, e)) :
    generate s p = ended { s with entropy := e }
      (s.mem.writeBytes s.latch.dst.addr (keysOfSeeds p.bits p.count seeds)) .success 0
      (p.count * p.keyLen) p.count p.keyLen := by
  simp only [generate, deriveKeys_eq_draw hb, hdraw, Option.map_some]
  rfl

/-- Settles O36: the checks pass, and the keys hash the bytes of one draw. -/
theorem kgenHashesEntropyIntoKeys : Obligations.KgenHashesEntropyIntoKeys := by
  rintro s _ _ seeds e hr rfl rfl h0 hb hcap hdraw
  rw [exec_kgen_of_regionsOk hr, if_pos ⟨h0, hb⟩, if_pos hcap, generate_of_draw hb hdraw]

/-- A command that succeeds has its fixed regions in order. -/
theorem Ending.regionsOk_of_success {s t : State} {i : Instr} (h : Ending s i t) (herr : t.err = .success) :
    RegionsOk s (s.latch.row i) := by
  cases h with
  | checked e he => exact absurd herr he.1
  | success ws ent len count klen hr => exact hr
  | unspecified ent c hr => exact hr

/-- KGEN succeeds only by drawing the seeds of its keys. -/
theorem exec_kgen_success {s t : State} (h : exec .kgen s = .next t) (herr : t.err = .success) :
    ∃ (seeds : Bytes) (e : Entropy), s.latch.ops.kgBits.toNat ≠ 0 ∧ s.latch.ops.kgBits.toNat % 256 = 0 ∧
      t = ended { s with entropy := e } (s.mem.writeBytes s.latch.dst.addr
          (keysOfSeeds s.latch.ops.kgBits.toNat s.latch.ops.kgCount.toNat seeds)) .success 0
        (s.latch.ops.kgCount.toNat * (s.latch.ops.kgBits.toNat / 4)) s.latch.ops.kgCount.toNat
        (s.latch.ops.kgBits.toNat / 4) := by
  have hr := (ending_of_exec h).regionsOk_of_success herr
  rw [exec_kgen_of_regionsOk hr] at h
  split at h
  next hbits =>
    split at h
    next =>
      obtain rfl := Host.Outcome.next.inj h
      cases hdraw : s.entropy.draw (s.latch.ops.kgCount.toNat * (s.latch.ops.kgBits.toNat / 8)) with
      | mk o e =>
        cases o with
        | none =>
          rw [generate_of_failed_draw hbits.2 hdraw] at herr
          cases herr
        | some seeds => exact ⟨seeds, e, hbits.1, hbits.2, generate_of_draw hbits.2 hdraw⟩
    next =>
      cases h
      cases herr
  next =>
    cases h
    cases herr

/-! ### The generated keys -/

theorem keyOfSeed_length (units : Nat) (seed : Bytes) : (keyOfSeed units seed).length = 64 * units := by
  induction units, seed using keyOfSeed.induct with
  | case1 seed => rfl
  | case2 seed => simp [keyOfSeed]
  | case3 seed units ih => simp [keyOfSeed, ih]; omega

theorem keyOfSeed_isHexChar (units : Nat) (seed : Bytes) : ∀ c ∈ keyOfSeed units seed, IsHexChar c := by
  induction units, seed using keyOfSeed.induct with
  | case1 seed => exact nofun
  | case2 seed => exact hexText_isHexChar _
  | case3 seed units ih => exact List.forall_mem_append.2 ⟨hexText_isHexChar _, ih⟩

/-- The keys are contiguous, `bits / 4` characters each (R107, R175). -/
theorem keysOfSeeds_length {bits : Nat} (hb : bits % 256 = 0) (n : Nat) (seeds : Bytes) :
    (keysOfSeeds bits n seeds).length = n * (bits / 4) := by
  induction n generalizing seeds with
  | zero => simp [keysOfSeeds]
  | succ n ih =>
    rw [keysOfSeeds, List.length_append, keyOfSeed_length, ih, Nat.succ_mul n]
    omega

theorem keysOfSeeds_isHexChar (bits n : Nat) (seeds : Bytes) : ∀ c ∈ keysOfSeeds bits n seeds, IsHexChar c := by
  induction n generalizing seeds with
  | zero => exact nofun
  | succ n ih => exact List.forall_mem_append.2 ⟨keyOfSeed_isHexChar _ _, ih _⟩

/-- A byte read back from a written string is one of the string's. -/
theorem mem_of_mem_readBytes_writeBytes {m : Memory} (hm : m.wf) {a k n : Nat} {v : Bytes} (h : k + n ≤ v.length)
    {c : Byte} (hc : c ∈ (m.writeBytes a v).readBytes (a + k) n) : c ∈ v := by
  obtain ⟨i, hi⟩ := List.mem_iff_getElem?.1 hc
  have hin : i < n := by
    obtain ⟨hlt, -⟩ := List.getElem?_eq_some_iff.1 hi
    rwa [Memory.readBytes_length] at hlt
  rw [Memory.readBytes_getElem? _ _ _ _ hin, Nat.add_assoc, Memory.read_writeBytes_inside hm (by omega)] at hi
  exact Option.some.inj hi ▸ List.getElem_mem _

/-- Settles O53: DST holds hex text of `n * (B / 4)` characters, and key `j` is a part of it. -/
theorem generatedKeysAreValid : Obligations.GeneratedKeysAreValid := by
  intro s t hwf hn h herr
  obtain ⟨seeds, e, h0, hb, rfl⟩ := exec_kgen_success h herr
  have hcount : (BitVec.ofNat 32 s.latch.ops.kgCount.toNat).toNat = s.latch.ops.kgCount.toNat :=
    ofNat_toNat_of_le (w := s.latch.ops.kgCount) le_rfl
  have hklen : (BitVec.ofNat 32 (s.latch.ops.kgBits.toNat / 4)).toNat = s.latch.ops.kgBits.toNat / 4 :=
    ofNat_toNat_of_le (w := s.latch.ops.kgBits) (Nat.div_le_self _ _)
  simp only [ended, hcount, hklen]
  refine ⟨?_, by omega, by omega, List.forall_mem_map.2 fun j hj => ⟨Memory.readBytes_length _ _ _, fun c hc => ?_⟩⟩
  · simpa [BitVec.toNat_eq] using hn
  · refine keysOfSeeds_isHexChar _ _ _ c (mem_of_mem_readBytes_writeBytes hwf ?_ hc)
    rw [keysOfSeeds_length hb, ← Nat.succ_mul]
    exact Nat.mul_le_mul_right _ (List.mem_range.1 hj)

end Sys2Proof.Machine
end

section
/-!
PROOFS. SEAL, and the checks of SEAL, ENC and DEC after the key phase (42_vault.md R201 to R207; 43_envelope.md R236,
R237; 60_exceptions.md R264 step 6): what the three commands end in once their regions and keys are in order.
-/

namespace Sys2Proof.Machine

section
variable {s : State} {ks : List Bytes} {len : Nat}

/-- SEAL checks the sealed length against SCR_CAP, then the text's length against DST_CAP, then seals (R206). -/
theorem exec_vaultSeal_of_keysOk (hr : RegionsOk s (s.latch.row .vaultSeal))
    (hk : KeysOk s (s.latch.row .vaultSeal) ks len) :
    exec .vaultSeal s = .next (
      if paddedLength (blobLength len ks.length) passKeyLength ≤ s.latch.scr.len then
        if base64Length (paddedLength (blobLength len ks.length) passKeyLength) ≤ s.latch.dst.len then
          sealVault s { keySet := { len := len, keys := ks }
                        sealedLen := paddedLength (blobLength len ks.length) passKeyLength
                        textLen := base64Length (paddedLength (blobLength len ks.length) passKeyLength) }
        else failed s .capacityExceeded 0
      else failed s .capacityExceeded 0) := by
  have hregions : checkRegions s.params.bufSize s.latch.sealRow = .ok () := checkRegions_ok hr
  have hkeys : keyPhase s s.latch.sealRow = .ok { len := len, keys := ks } := keyPhase_ok hk
  have hcount : s.latch.sealRow.keyCount = ks.length := hk.1
  simp only [exec, execSeal, planSeal, hregions, hkeys, hcount, ok_bind, demand_bind]
  split
  · split <;> rfl
  · rfl

/-- ENC checks the padded length against SCR_CAP, then the text's length against DST_CAP, then enciphers (R236). -/
theorem exec_enc_of_keysOk (hr : RegionsOk s (s.latch.row .enc)) (hk : KeysOk s (s.latch.row .enc) ks len) :
    exec .enc s = .next (
      if paddedLength s.latch.src.len len ≤ s.latch.scr.len then
        if base64Length (paddedLength s.latch.src.len len) ≤ s.latch.dst.len then
          ended s
            ((s.mem.writeBytes s.latch.scr.addr (cascadeForward (s.latch.src.bytes s.mem) ks)).writeBytes
              s.latch.dst.addr (base64Encode (cascadeForward (s.latch.src.bytes s.mem) ks)))
            .success 0 (base64Length (paddedLength s.latch.src.len len)) ks.length len
        else failed s .capacityExceeded 0
      else failed s .capacityExceeded 0) := by
  have hregions : checkRegions s.params.bufSize s.latch.artifactRow = .ok () := checkRegions_ok hr
  have hkeys : keyPhase s s.latch.artifactRow = .ok { len := len, keys := ks } := keyPhase_ok hk
  have hcount : s.latch.artifactRow.keyCount = ks.length := hk.1
  simp only [exec, execEnc, hregions, hkeys, hcount, ok_bind, demand_bind]
  split
  · split <;> rfl
  · rfl

/-- DEC checks the text, then the length of the decoded bytes against SCR_CAP, then that they are whole blocks, then their
length against DST_CAP, then deciphers (R237). -/
theorem exec_dec_of_keysOk (hr : RegionsOk s (s.latch.row .dec)) (hk : KeysOk s (s.latch.row .dec) ks len) :
    exec .dec s = .next (
      if base64Valid (s.latch.src.bytes s.mem) = true then
        if (base64Decode (s.latch.src.bytes s.mem)).length ≤ s.latch.scr.len then
          if (base64Decode (s.latch.src.bytes s.mem)).length % len = 0 then
            if (base64Decode (s.latch.src.bytes s.mem)).length ≤ s.latch.dst.len then
              ended s
                ((s.mem.writeBytes s.latch.scr.addr (base64Decode (s.latch.src.bytes s.mem))).writeBytes
                  s.latch.dst.addr (cascadeInverse (base64Decode (s.latch.src.bytes s.mem)) ks))
                .success 0 (stripZeros (cascadeInverse (base64Decode (s.latch.src.bytes s.mem)) ks)).length
                ks.length len
            else failed s .capacityExceeded 0
          else failed s .blockLength 0
        else failed s .capacityExceeded 0
      else failed s .decodeFailed 0) := by
  have hregions : checkRegions s.params.bufSize s.latch.artifactRow = .ok () := checkRegions_ok hr
  have hkeys : keyPhase s s.latch.artifactRow = .ok { len := len, keys := ks } := keyPhase_ok hk
  have hcount : s.latch.artifactRow.keyCount = ks.length := hk.1
  simp only [exec, execDec, hregions, hkeys, hcount, ok_bind, demand_bind]
  split
  · split
    · split
      · split <;> rfl
      · rfl
    · rfl
  · rfl

end

/-- Two capacity checks with one error: a failure of either raises it. -/
theorem ite_capacities_of_exceeded {α : Type} {a b c d : Nat} (h : b < a ∨ d < c) (x y : α) :
    (if a ≤ b then if c ≤ d then x else y else y) = y := by
  rcases h with h | h
  · exact if_neg h.not_ge
  · rw [if_neg h.not_ge, ite_self]

/-- Settles O29, from the three commands' checks. -/
theorem sealAndArtifactCommandsCheckLengths : Obligations.SealAndArtifactCommandsCheckLengths := by
  refine fun s ks len => ⟨fun hr hk hcap => ?_, fun hr hk hcap => ?_, fun hr hk => ?_⟩
  · exact (exec_vaultSeal_of_keysOk hr hk).trans (congrArg _ (ite_capacities_of_exceeded hcap _ _))
  · rw [exec_enc_of_keysOk hr hk, ite_capacities_of_exceeded hcap]
  · rw [exec_dec_of_keysOk hr hk]
    exact ⟨fun hbad => by rw [if_neg (ne_true_of_eq_false hbad)], fun hvalid =>
      ⟨fun hscr => by rw [if_pos hvalid, if_neg hscr.not_ge], fun hscr =>
        ⟨fun hblocks => by rw [if_pos hvalid, if_pos hscr, if_neg hblocks],
          fun hblocks hdst => by rw [if_pos hvalid, if_pos hscr, if_pos hblocks, if_neg hdst.not_ge]⟩⟩⟩

/-! ### The vault -/

theorem keyLines_eq_flatten (ks : List Bytes) : keyLines ks = (ks.map fun k => k ++ [newline]).flatten := by
  induction ks with
  | nil => rfl
  | cons k ks ih => simp [keyLines, ih]

/-- The blob is the salt and the keys, a newline after each (R204). -/
theorem vaultBlob_eq (salt : Bytes) (ks : List Bytes) :
    vaultBlob salt ks = salt ++ [newline] ++ (ks.map fun k => k ++ [newline]).flatten := by
  rw [vaultBlob, keyLines_eq_flatten, List.append_assoc, List.singleton_append]

/-- SEAL's whole effect when the lengths fit and the draw succeeds (R206). -/
theorem exec_vaultSeal_of_draw {s : State} {ks : List Bytes} {len : Nat} {salt : Bytes} {e : Entropy}
    (hr : RegionsOk s (s.latch.row .vaultSeal)) (hk : KeysOk s (s.latch.row .vaultSeal) ks len)
    (hscr : paddedLength (blobLength len ks.length) passKeyLength ≤ s.latch.scr.len)
    (hdst : base64Length (paddedLength (blobLength len ks.length) passKeyLength) ≤ s.latch.dst.len)
    (hdraw : s.entropy.draw (len / 2) = (some salt, e)) :
    exec .vaultSeal s =
      let cipher := sealRounds (vaultBlob salt ks) (passKey (s.latch.pwd.bytes s.mem))
      .next (ended { s with entropy := e }
        ((s.mem.writeBytes s.latch.scr.addr cipher).writeBytes s.latch.dst.addr (base64Encode cipher))
        .success 0 (base64Length (paddedLength (blobLength len ks.length) passKeyLength)) ks.length len) := by
  have hcount : s.latch.sealRow.keyCount = ks.length := hk.1
  rw [exec_vaultSeal_of_keysOk hr hk, if_pos hscr, if_pos hdst, sealVault_of_draw hdraw, hcount]
  rfl

/-- Settles O38: the five rounds unfold, and the blob is written out. -/
theorem sealWritesTheVault : Obligations.SealWritesTheVault := by
  intro s ks len salt e hr hk hscr hdst hdraw
  simp only [← vaultBlob_eq]
  exact exec_vaultSeal_of_draw hr hk hscr hdst hdraw

end Sys2Proof.Machine
end

section
/-!
PROOFS. The split of unsealed bytes and their candidate keys (42_vault.md R212, R213), and UNSEAL after its checks (R210
to R215; 20_memory.md R81): the keys on success, and the two errors of its execute phase.
-/

namespace Sys2Proof.Machine

/-! ### Split (R212) -/

/-- All segments of a string, the first one included (R212). -/
def segments (y : Bytes) : List Bytes := (splitLines y).1 :: (splitLines y).2

theorem segments_newline_cons (y : Bytes) : segments (newline :: y) = [] :: segments y := by
  simp [segments, splitLines]

theorem splitLines_cons_of_ne {b : Byte} (h : b ≠ newline) (y : Bytes) :
    splitLines (b :: y) = (b :: (splitLines y).1, (splitLines y).2) := by
  simp [splitLines, h]

/-- A newline ends a segment: the others are those of the bytes before it, then those of the bytes after it. -/
theorem splitLines_append_newline (x y : Bytes) :
    splitLines (x ++ newline :: y) = ((splitLines x).1, (splitLines x).2 ++ segments y) := by
  induction x with
  | nil => simp [splitLines, segments]
  | cons b x ih =>
    rw [List.cons_append]
    simp only [splitLines, ih]
    split <;> rfl

theorem segments_append_newline (x y : Bytes) : segments (x ++ newline :: y) = segments x ++ segments y := by
  simp [segments, splitLines_append_newline]

theorem splitLines_of_not_mem {x : Bytes} (h : newline ∉ x) : splitLines x = (x, []) := by
  induction x with
  | nil => rfl
  | cons b x ih =>
    rw [splitLines_cons_of_ne (List.ne_of_not_mem_cons h).symm, ih (List.not_mem_of_not_mem_cons h)]

/-- Joining strings without newlines by newlines and splitting gives the strings back. -/
theorem splitLines_intercalate {first : Bytes} {others : List Bytes} (h : ∀ g ∈ first :: others, newline ∉ g) :
    splitLines ([newline].intercalate (first :: others)) = (first, others) := by
  induction others generalizing first with
  | nil => simpa using splitLines_of_not_mem (h first (by simp))
  | cons g others ih =>
    obtain ⟨hfirst, hothers⟩ := List.forall_mem_cons.1 h
    rw [List.intercalate_cons_cons, List.append_assoc, List.singleton_append, splitLines_append_newline, segments,
      ih hothers, splitLines_of_not_mem hfirst]
    rfl

theorem newline_not_mem_segments (y : Bytes) : ∀ g ∈ segments y, newline ∉ g := by
  induction y with
  | nil => simp [segments, splitLines]
  | cons b y ih =>
    by_cases hb : b = newline
    · subst hb
      rw [segments_newline_cons]
      exact List.forall_mem_cons.2 ⟨List.not_mem_nil, ih⟩
    · obtain ⟨hfirst, hothers⟩ := List.forall_mem_cons.1 ih
      rw [segments, splitLines_cons_of_ne hb]
      exact List.forall_mem_cons.2 ⟨List.not_mem_cons_of_ne_of_not_mem (Ne.symm hb) hfirst, hothers⟩

/-- The segments joined by newlines are the string itself. -/
theorem intercalate_segments (y : Bytes) : [newline].intercalate (segments y) = y := by
  induction y with
  | nil => rfl
  | cons b y ih =>
    by_cases hb : b = newline
    · subst hb
      rw [segments_newline_cons, segments, List.intercalate_cons_cons, ← segments, ih]
      rfl
    · rw [segments, splitLines_cons_of_ne hb]
      conv_rhs => rw [← ih, segments]
      cases (splitLines y).2 <;> simp

/-! ### Candidates (R213) -/

/-- The candidates are the non-empty segments but the first, or the only segment. -/
theorem candidates_eq (y : Bytes) :
    candidates y =
      (if (splitLines y).2 = [] then [(splitLines y).1] else (splitLines y).2).filter fun k => decide (k ≠ []) := by
  rw [candidates]
  cases splitLines y with
  | mk first others => cases others <;> rfl

/-! ### UNSEAL's execute phase -/

theorem validateKeys_of_validKeys {ks : List Bytes} {len : Nat} (h : ValidKeys ks len) :
    validateKeys ks = .ok { len := len, keys := ks } := (validateKeys_eq_ok_iff ks _).2 ⟨h, rfl⟩

/-- The bytes UNSEAL stores at SCR (R210, R215). -/
def unsealedBytes (s : State) (x : Bytes) : Bytes := unsealRounds x (passKey (s.latch.pwd.bytes s.mem))

section
variable {s : State} {x : Bytes}

/-- A valid set is written to DST when it fits, and is `CapacityExceeded` otherwise (R215). -/
theorem unsealVault_of_validKeys {len : Nat} (h : ValidKeys (candidates (stripZeros (unsealedBytes s x))) len) :
    unsealVault s x =
      let keys := candidates (stripZeros (unsealedBytes s x))
      if keys.length * len ≤ s.latch.dst.len then
        ended s ((s.mem.writeBytes s.latch.scr.addr (unsealedBytes s x)).writeBytes s.latch.dst.addr keys.flatten)
          .success 0 (keys.length * len) keys.length len
      else s.raiseUnspecified s.latch.unsealRow .capacityExceeded := by
  have hvalid := validateKeys_of_validKeys h
  rw [unsealedBytes] at hvalid
  simp only [unsealVault, hvalid]
  rfl

/-- Whatever is wrong with the candidates, UNSEAL reports `WrongPasswordOrCorrupt` (R214). -/
theorem unsealVault_of_not_validKeys (h : ∀ len, ¬ ValidKeys (candidates (stripZeros (unsealedBytes s x))) len) :
    unsealVault s x = s.raiseUnspecified s.latch.unsealRow .wrongPasswordOrCorrupt := by
  cases hv : validateKeys (candidates (stripZeros (unsealedBytes s x))) with
  | ok r =>
    obtain ⟨hvalid, -⟩ := (validateKeys_eq_ok_iff _ r).1 hv
    exact absurd hvalid (h r.len)
  | error e =>
    rw [unsealedBytes] at hv
    simp only [unsealVault, hv]

end

/-- UNSEAL goes on to its execute phase when the text is valid and its bytes fit and are whole blocks (R215). -/
theorem exec_vaultUnseal_of_checks {s : State} (hr : RegionsOk s (s.latch.row .vaultUnseal))
    (hvalid : base64Valid (s.latch.src.bytes s.mem) = true)
    (hscr : (base64Decode (s.latch.src.bytes s.mem)).length ≤ s.latch.scr.len)
    (hblocks : (base64Decode (s.latch.src.bytes s.mem)).length % passKeyLength = 0) :
    exec .vaultUnseal s = .next (unsealVault s (base64Decode (s.latch.src.bytes s.mem))) := by
  rw [exec_vaultUnseal_of_regionsOk hr, if_pos hvalid, if_pos hscr, if_pos hblocks]

/-- Settles O39: joining and splitting are inverse, and a valid set that fits is UNSEAL's success. -/
theorem unsealReturnsTheKeys : Obligations.UnsealReturnsTheKeys := by
  refine ⟨fun first others h => ?_, fun y => ⟨intercalate_segments y, newline_not_mem_segments y⟩, ?_⟩
  · have hsplit : splitLines ([0x0A].intercalate (first :: others)) = (first, others) := splitLines_intercalate h
    refine ⟨hsplit, ?_⟩
    rw [candidates_eq, hsplit]
    split
    · by_cases hfirst : first = [] <;> simp [hfirst]
    · rfl
  · intro s len hr hvalid hscr hblocks key plain keys hkeys hdst
    rw [exec_vaultUnseal_of_checks hr hvalid hscr hblocks, unsealVault_of_validKeys hkeys]
    exact congrArg _ (if_pos hdst)

/-- An execute-phase error of UNSEAL touches SCR and DST only (R81). -/
theorem raiseUnspecified_unsealRow (s : State) (c : ErrCode) :
    ∃ (m : Memory) (f : Nat), s.raiseUnspecified s.latch.unsealRow c = ended { s with freeUsed := f } m c 0 0 0 0 ∧
      ∀ a, ¬ s.latch.scr.Covers a → ¬ s.latch.dst.Covers a → m.read a = s.mem.read a := by
  obtain ⟨m, f, heq, hframe⟩ := raiseUnspecified_eq_ended s s.latch.unsealRow c
  exact ⟨m, f, heq, fun a hscr hdst => hframe a (List.forall_mem_cons.2 ⟨hscr, List.forall_mem_singleton.2 hdst⟩)⟩

/-- Settles O40: both errors of the execute phase. -/
theorem unsealHidesTheKeyError : Obligations.UnsealHidesTheKeyError := by
  intro s hr hvalid hscr hblocks key keys
  rw [exec_vaultUnseal_of_checks hr hvalid hscr hblocks]
  refine ⟨fun hbad => ?_, fun len hkeys hdst => ?_⟩
  · obtain ⟨m, f, heq, hframe⟩ := raiseUnspecified_unsealRow s .wrongPasswordOrCorrupt
    exact ⟨m, f, congrArg _ ((unsealVault_of_not_validKeys hbad).trans heq), hframe⟩
  · obtain ⟨m, f, heq, hframe⟩ := raiseUnspecified_unsealRow s .capacityExceeded
    refine ⟨m, f, congrArg _ (((unsealVault_of_validKeys hkeys).trans ?_).trans heq), hframe⟩
    exact if_neg hdst.not_ge

end Sys2Proof.Machine
end

section
/-!
PROOFS. Base64 text is valid and decodes to the bytes it was made from (43_envelope.md R230 to R233): group by group, the
four characters of three bytes, and the padded groups of one and two bytes.
-/

namespace Sys2Proof.Machine

theorem base64Value_base64Char : ∀ v < 64, base64Value (base64Char v) = some v := by decide

theorem base64Char_ne_base64Pad : ∀ v < 64, base64Char v ≠ base64Pad := by decide

theorem base64Bits_base64Char {v : Nat} (h : v < 64) : base64Bits (base64Char v) = v := by
  rw [base64Bits, base64Value_base64Char v h, Option.getD_some]

@[simp] theorem base64Bits_base64Pad : base64Bits base64Pad = 0 := rfl

theorem isBase64Char_base64Char {v : Nat} (h : v < 64) : IsBase64Char (base64Char v) := by
  rw [IsBase64Char, base64Value_base64Char v h, Option.isSome_some]

section
variable {v0 v1 v2 v3 : Nat} (h0 : v0 < 64) (h1 : v1 < 64)
include h0 h1

/-- A whole group of characters is valid in front of any valid text. -/
theorem base64Valid_group (h2 : v2 < 64) (h3 : v3 < 64) (rest : Bytes) :
    base64Valid (base64Char v0 :: base64Char v1 :: base64Char v2 :: base64Char v3 :: rest) = base64Valid rest := by
  have c0 := isBase64Char_base64Char h0
  have c1 := isBase64Char_base64Char h1
  have c2 := isBase64Char_base64Char h2
  have c3 := isBase64Char_base64Char h3
  cases rest with
  | nil => simp [base64Valid, c0, c1, c2, c3]
  | cons c rest => simp [base64Valid, c0, c1, c2, c3]

theorem base64Decode_group (h2 : v2 < 64) (h3 : v3 < 64) (rest : Bytes) :
    base64Decode (base64Char v0 :: base64Char v1 :: base64Char v2 :: base64Char v3 :: rest) =
      (base64Group v0 v1 v2 v3).1 :: (base64Group v0 v1 v2 v3).2.1 :: (base64Group v0 v1 v2 v3).2.2 ::
        base64Decode rest := by
  simp only [base64Decode, base64Bits_base64Char, h0, h1, h2, h3, base64Char_ne_base64Pad, if_false]

theorem base64Valid_onePad (h2 : v2 < 64) :
    base64Valid [base64Char v0, base64Char v1, base64Char v2, base64Pad] = true := by
  simp [base64Valid, isBase64Char_base64Char, h0, h1, h2]

theorem base64Decode_onePad (h2 : v2 < 64) :
    base64Decode [base64Char v0, base64Char v1, base64Char v2, base64Pad] =
      [(base64Group v0 v1 v2 0).1, (base64Group v0 v1 v2 0).2.1] := by
  simp [base64Decode, base64Bits_base64Char, h0, h1, h2, base64Char_ne_base64Pad]

theorem base64Valid_twoPads : base64Valid [base64Char v0, base64Char v1, base64Pad, base64Pad] = true := by
  simp [base64Valid, isBase64Char_base64Char, h0, h1]

theorem base64Decode_twoPads :
    base64Decode [base64Char v0, base64Char v1, base64Pad, base64Pad] = [(base64Group v0 v1 0 0).1] := by
  simp [base64Decode, base64Bits_base64Char, h0, h1]

end

/-- The three bytes of a group give its four 6-bit values, and those give the bytes back. -/
theorem base64Group_split (b0 b1 b2 : Byte) :
    base64Group (b0.toNat / 4) (b0.toNat % 4 * 16 + b1.toNat / 16) (b1.toNat % 16 * 4 + b2.toNat / 64) (b2.toNat % 64) =
      (b0, b1, b2) := by
  have h0 := b0.isLt
  have h1 := b1.isLt
  have h2 := b2.isLt
  rw [base64Group,
    show b0.toNat / 4 * 4 + (b0.toNat % 4 * 16 + b1.toNat / 16) / 16 = b0.toNat by omega,
    show (b0.toNat % 4 * 16 + b1.toNat / 16) % 16 * 16 + (b1.toNat % 16 * 4 + b2.toNat / 64) / 4 = b1.toNat by omega,
    show (b1.toNat % 16 * 4 + b2.toNat / 64) % 4 * 64 + b2.toNat % 64 = b2.toNat by omega]
  simp only [BitVec.ofNat_toNat, BitVec.setWidth_eq]

/-- Base64 text is valid and decodes to the bytes it was made from (R232, R233). -/
theorem base64Encode_valid_decode (x : Bytes) :
    base64Valid (base64Encode x) = true ∧ base64Decode (base64Encode x) = x := by
  induction x using base64Encode.induct with
  | case1 b0 b1 b2 rest ih =>
    have := b0.isLt
    have := b1.isLt
    have := b2.isLt
    obtain ⟨hvalid, hdecode⟩ := ih
    rw [base64Encode, base64Valid_group (by omega) (by omega) (by omega) (by omega),
      base64Decode_group (by omega) (by omega) (by omega) (by omega), base64Group_split, hdecode]
    exact ⟨hvalid, rfl⟩
  | case2 b0 b1 =>
    have := b0.isLt
    have := b1.isLt
    have hgroup : base64Group (b0.toNat / 4) (b0.toNat % 4 * 16 + b1.toNat / 16) (b1.toNat % 16 * 4) 0 = (b0, b1, 0) :=
      base64Group_split b0 b1 0
    rw [base64Encode, base64Valid_onePad (by omega) (by omega) (by omega),
      base64Decode_onePad (by omega) (by omega) (by omega), hgroup]
    exact ⟨rfl, rfl⟩
  | case3 b0 =>
    have := b0.isLt
    have hgroup : base64Group (b0.toNat / 4) (b0.toNat % 4 * 16) 0 0 = (b0, 0, 0) := base64Group_split b0 0 0
    rw [base64Encode, base64Valid_twoPads (by omega) (by omega), base64Decode_twoPads (by omega) (by omega), hgroup]
    exact ⟨rfl, rfl⟩
  | case4 => exact ⟨rfl, rfl⟩

end Sys2Proof.Machine
end

section
/-!
PROOFS. What SEAL wrote goes back through UNSEAL (42_vault.md R210, R211, R216): the rounds cancel up to the padding, and
the candidates are what the salt leaves after its first newline, then the sealed keys.
-/

namespace Sys2Proof.Machine

/-! ### The rounds (R210, R211) -/

/-- Five passKeys are a valid key set, so the rounds are a cascade and its inverse. -/
theorem validKeys_passKey (pw : Bytes) : ValidKeys (List.replicate vaultRounds (passKey pw)) passKeyLength :=
  ⟨List.cons_ne_nil _ _, by decide, by decide, fun k hk => by
    rw [List.eq_of_mem_replicate hk]
    exact ⟨passKey_length pw, hexText_isHexChar _⟩⟩

theorem unsealRounds_sealRounds (blob pw : Bytes) :
    unsealRounds (sealRounds blob (passKey pw)) (passKey pw) = padded passKeyLength blob :=
  cascadeInverse_cascadeForward (validKeys_passKey pw) blob

theorem getLast?_newline_keyLines (ks : List Bytes) : (newline :: keyLines ks).getLast? = some newline := by
  induction ks with
  | nil => rfl
  | cons k ks ih =>
    rw [keyLines, ← List.cons_append, List.getLast?_append, ih]
    rfl

/-- A blob ends in a newline, so depadding removes the padding and nothing else (R211). -/
theorem stripZeros_padded_vaultBlob (len : Nat) (salt : Bytes) (ks : List Bytes) :
    stripZeros (padded len (vaultBlob salt ks)) = vaultBlob salt ks := by
  have hlast : (vaultBlob salt ks).getLast? = some newline := by
    rw [vaultBlob, List.getLast?_append, getLast?_newline_keyLines]
    rfl
  exact (stripZeros_padded_eq_iff len _).2 (.inr (by rw [hlast]; decide))

/-! ### The candidates of a blob (R213, R216) -/

theorem ValidKeys.length_eq {ks : List Bytes} {len : Nat} (h : ValidKeys ks len) : ∀ k ∈ ks, k.length = len := by
  obtain ⟨-, -, -, hk⟩ := h
  exact fun k hmem => (hk k hmem).1

theorem ValidKeys.newline_not_mem {ks : List Bytes} {len : Nat} (h : ValidKeys ks len) : ∀ k ∈ ks, newline ∉ k := by
  obtain ⟨-, -, -, hk⟩ := h
  exact fun k hmem hnew => absurd ((hk k hmem).2 newline hnew) (by decide)

theorem segments_keyLines {ks : List Bytes} (h : ∀ k ∈ ks, newline ∉ k) : segments (keyLines ks) = ks ++ [[]] := by
  induction ks with
  | nil => rfl
  | cons k ks ih =>
    obtain ⟨hk, hks⟩ := List.forall_mem_cons.1 h
    rw [keyLines, segments_append_newline, ih hks, segments, splitLines_of_not_mem hk]
    rfl

/-- What the salt leaves as candidates: its non-empty segments after its first newline. -/
def saltCandidates (salt : Bytes) : List Bytes := (splitLines salt).2.filter fun k => decide (k ≠ [])

theorem candidates_vaultBlob {ks : List Bytes} {len : Nat} (h : ValidKeys ks len) (salt : Bytes) :
    candidates (vaultBlob salt ks) = saltCandidates salt ++ ks := by
  have hkeys : ks.filter (fun k => decide (k ≠ [])) = ks := by
    have ⟨_, h0, _⟩ := h
    refine List.filter_eq_self.2 fun k hmem => decide_eq_true ?_
    rintro rfl
    exact h0 (h.length_eq [] hmem).symm
  rw [candidates_eq, vaultBlob, splitLines_append_newline, segments_keyLines h.newline_not_mem,
    if_neg (by simp), List.filter_append, List.filter_append, hkeys, saltCandidates]
  simp

/-! ### The salt (R216) -/

theorem segments_length_le (x : Bytes) : ∀ g ∈ segments x, g.length ≤ x.length := by
  induction x with
  | nil => simp [segments, splitLines]
  | cons b x ih =>
    by_cases hb : b = newline
    · subst hb
      rw [segments_newline_cons]
      exact List.forall_mem_cons.2 ⟨Nat.zero_le _, fun g hg => Nat.le_succ_of_le (ih g hg)⟩
    · obtain ⟨hfirst, hothers⟩ := List.forall_mem_cons.1 ih
      rw [segments, splitLines_cons_of_ne hb]
      exact List.forall_mem_cons.2 ⟨Nat.succ_le_succ hfirst, fun g hg => Nat.le_succ_of_le (hothers g hg)⟩

/-- A salt reopens when a newline in it is followed by newlines only. -/
theorem saltReopens_iff_pairwise (salt : Bytes) :
    SaltReopens salt ↔ salt.Pairwise fun a b => a = newline → b = newline := by
  rw [List.pairwise_iff_getElem]
  constructor
  · intro h i j hi hj hij hnew
    simpa [hj] using h i hi j hj hij (by simpa [hi] using hnew)
  · intro h i hi j hj hij hnew
    simpa [hj] using h i j hi hj hij (by simpa [hi] using hnew)

theorem segments_empty_iff (x : Bytes) : (∀ g ∈ segments x, g = []) ↔ ∀ b ∈ x, b = newline := by
  induction x with
  | nil => simp [segments, splitLines]
  | cons b x ih =>
    by_cases hb : b = newline
    · subst hb
      rw [segments_newline_cons, List.forall_mem_cons, List.forall_mem_cons, ih]
      simp
    · simp [segments, splitLines_cons_of_ne hb, hb]

/-- The segments after the first newline are all empty exactly when only newlines follow it. -/
theorem otherSegments_empty_iff (x : Bytes) :
    (∀ g ∈ (splitLines x).2, g = []) ↔ x.Pairwise fun a b => a = newline → b = newline := by
  induction x with
  | nil => simp [splitLines]
  | cons b x ih =>
    rw [List.pairwise_cons]
    by_cases hb : b = newline
    · subst hb
      have hrest : (splitLines (newline :: x)).2 = segments x := List.tail_eq_of_cons_eq (segments_newline_cons x)
      rw [hrest, segments_empty_iff]
      exact ⟨fun h => ⟨fun c hc _ => h c hc, List.pairwise_of_forall_mem_list fun _ _ c hc _ => h c hc⟩,
        fun h c hc => h.1 c hc rfl⟩
    · simp [splitLines_cons_of_ne hb, hb, ih]

theorem saltCandidates_eq_nil_iff (salt : Bytes) : saltCandidates salt = [] ↔ SaltReopens salt := by
  rw [saltReopens_iff_pairwise, ← otherSegments_empty_iff]
  simp [saltCandidates]

/-- A candidate that the salt leaves is shorter than the keys, so a valid set of candidates holds none (R216). -/
theorem saltReopens_of_validKeys_append {ks : List Bytes} {len len' : Nat} {salt : Bytes} (h : ValidKeys ks len)
    (hsalt : salt.length = len / 2) (h' : ValidKeys (saltCandidates salt ++ ks) len') : SaltReopens salt := by
  have ⟨hne, h0, _⟩ := h
  obtain ⟨k, hmem⟩ := List.exists_mem_of_ne_nil ks hne
  have hlen : len' = len := (h'.length_eq k (List.mem_append_right _ hmem)).symm.trans (h.length_eq k hmem)
  refine (saltCandidates_eq_nil_iff salt).1 (List.eq_nil_iff_forall_not_mem.2 fun g hg => ?_)
  have hgsalt : g.length ≤ salt.length :=
    segments_length_le salt g (List.mem_cons_of_mem _ (List.mem_of_mem_filter hg))
  have hglen : g.length = len' := h'.length_eq g (List.mem_append_left _ hg)
  omega

/-! ### The round trip (R216) -/

/-- SEAL succeeds only when its text fits in DST, and writes the sealed blob (R206). -/
theorem exec_vaultSeal_success {s t : State} {ks : List Bytes} {len : Nat} {salt : Bytes} {e : Entropy}
    (hr : RegionsOk s (s.latch.row .vaultSeal)) (hk : KeysOk s (s.latch.row .vaultSeal) ks len)
    (hdraw : s.entropy.draw (len / 2) = (some salt, e)) (h : exec .vaultSeal s = .next t) (herr : t.err = .success) :
    let sealed := sealRounds (vaultBlob salt ks) (passKey (s.latch.pwd.bytes s.mem))
    sealed.length = paddedLength (blobLength len ks.length) passKeyLength ∧
      t.mem = (s.mem.writeBytes s.latch.scr.addr sealed).writeBytes s.latch.dst.addr (base64Encode sealed) ∧
      t.resultLen.toNat = (base64Encode sealed).length := by
  intro sealed
  have ⟨_, hvalid, _⟩ := hk
  have hsealed : sealed.length = paddedLength (blobLength len ks.length) passKeyLength := by
    rw [sealRounds_length (by simp [passKeyLength]), passKey_length,
      vaultBlob_length (Entropy.draw_length hdraw) hvalid.length_eq]
  have hchecks := h
  rw [exec_vaultSeal_of_keysOk hr hk] at hchecks
  split at hchecks
  next hscr =>
    split at hchecks
    next hdst =>
      rw [exec_vaultSeal_of_draw hr hk hscr hdst hdraw] at h
      cases h
      refine ⟨hsealed, rfl, ?_⟩
      rw [base64Encode_length, hsealed]
      exact ofNat_toNat_of_le hdst
    next =>
      cases hchecks
      cases herr
  next =>
    cases hchecks
    cases herr

/-- A text stored where SRC begins, and as long as SRC, is what SRC holds. -/
theorem src_bytes_of_written {u : State} {m : Memory} {a : Word} {text : Bytes} (hm : m.wf)
    (hmem : u.mem = m.writeBytes a.toNat text) (haddr : u.latch.ops.srcAddr = a)
    (hlen : u.latch.ops.srcLen.toNat = text.length) : u.latch.src.bytes u.mem = text := by
  have hread : u.latch.src.bytes u.mem = u.mem.readBytes a.toNat text.length := by
    rw [← haddr, ← hlen]
    rfl
  rw [hread, hmem, Memory.readBytes_writeBytes hm]

/-- UNSEAL of the Base64 text of whole blocks that fit in SCR goes on with those blocks (R215). -/
theorem exec_vaultUnseal_of_encoded {u : State} {x : Bytes} (hr : RegionsOk u (u.latch.row .vaultUnseal))
    (htext : u.latch.src.bytes u.mem = base64Encode x) (hscr : x.length ≤ u.latch.scr.len)
    (hblocks : x.length % passKeyLength = 0) : exec .vaultUnseal u = .next (unsealVault u x) := by
  obtain ⟨hvalid, hdecode⟩ := base64Encode_valid_decode x
  rw [← htext] at hvalid hdecode
  rw [exec_vaultUnseal_of_checks hr hvalid (by rwa [hdecode]) (by rwa [hdecode]), hdecode]

/-- A valid set that fits in DST is reported as it is, and DST then holds it (R215). -/
theorem unsealVault_returns {u : State} {x : Bytes} {ks : List Bytes} {len : Nat} (hwf : u.mem.wf)
    (hcand : candidates (stripZeros (unsealedBytes u x)) = ks) (hvalid : ValidKeys ks len)
    (hdst : ks.length * len ≤ u.latch.dst.len) :
    (unsealVault u x).err = .success ∧ (unsealVault u x).resultCount.toNat = ks.length ∧
      (unsealVault u x).resultKlen.toNat = len ∧
      (unsealVault u x).mem.readBytes u.latch.dst.addr (unsealVault u x).resultLen.toNat = ks.flatten := by
  subst hcand
  have ⟨hne, h0, _⟩ := hvalid
  rw [unsealVault_of_validKeys hvalid]
  generalize candidates (stripZeros (unsealedBytes u x)) = ks at *
  simp only [if_pos hdst]
  have hpos : 0 < ks.length := List.length_pos_of_ne_nil hne
  have hcount : ks.length ≤ u.latch.dst.len := (Nat.le_mul_of_pos_right _ (Nat.pos_of_ne_zero h0)).trans hdst
  have hklen : len ≤ u.latch.dst.len := (Nat.le_mul_of_pos_left _ hpos).trans hdst
  have hlen : (BitVec.ofNat 32 (ks.length * len)).toNat = ks.flatten.length :=
    (ofNat_toNat_of_le hdst).trans (flatten_length hvalid.length_eq).symm
  refine ⟨rfl, ofNat_toNat_of_le hcount, ofNat_toNat_of_le hklen, ?_⟩
  show Memory.readBytes _ _ (BitVec.ofNat 32 (ks.length * len)).toNat = _
  rw [hlen]
  exact Memory.readBytes_writeBytes (Memory.writeBytes_wf hwf _ _) _ _

/-- Settles O55: the candidates are those the salt leaves, then the sealed keys: a valid set exactly when the salt leaves
none. -/
theorem vaultsRoundTrip : Obligations.VaultsRoundTrip := by
  intro s t u ks len salt e hwf hr hk hdraw hseal herr hmem haddr hlen hpwd hru hscr hdst
  obtain ⟨hsealed, htmem, htlen⟩ := exec_vaultSeal_success hr hk hdraw hseal herr
  obtain ⟨-, hvalid, -⟩ := hk
  have hplain := unsealRounds_sealRounds (vaultBlob salt ks) (s.latch.pwd.bytes s.mem)
  generalize sealRounds (vaultBlob salt ks) (passKey (s.latch.pwd.bytes s.mem)) = x at hsealed htmem htlen hplain
  have hwf1 : (s.mem.writeBytes s.latch.scr.addr x).wf := Memory.writeBytes_wf hwf _ _
  have htext : u.latch.src.bytes u.mem = base64Encode x :=
    src_bytes_of_written hwf1 (hmem.trans htmem) haddr (by rw [hlen, htlen])
  have hblocks : x.length % passKeyLength = 0 := hsealed ▸ Nat.mod_eq_zero_of_dvd (paddedLength_dvd _ _)
  have hcand : candidates (stripZeros (unsealedBytes u x)) = saltCandidates salt ++ ks := by
    rw [unsealedBytes, hpwd, hplain, stripZeros_padded_vaultBlob, candidates_vaultBlob hvalid]
  refine ⟨_, exec_vaultUnseal_of_encoded hru htext (hsealed.trans_le hscr) hblocks, fun hopen => ?_, fun hlost => ?_⟩
  · rw [(saltCandidates_eq_nil_iff salt).2 hopen, List.nil_append] at hcand
    exact unsealVault_returns (hmem ▸ htmem ▸ Memory.writeBytes_wf hwf1 _ _) hcand hvalid hdst
  · have hbad : ∀ len', ¬ ValidKeys (candidates (stripZeros (unsealedBytes u x))) len' := fun len' h' =>
      hlost (saltReopens_of_validKeys_append hvalid (Entropy.draw_length hdraw) (hcand ▸ h'))
    rw [unsealVault_of_not_validKeys hbad]
    rfl

end Sys2Proof.Machine
end

section
/-!
PROOFS. B64E, B64D, ENC and DEC when every check passes (43_envelope.md R234 to R237).
-/

namespace Sys2Proof.Machine

/-- Settles O41: the checks of both commands pass. -/
theorem base64CommandsConvertSrc : Obligations.Base64CommandsConvertSrc := by
  refine fun s => ⟨fun hr hcap => ?_, fun hr => ?_⟩
  · rw [exec_b64e_of_regionsOk hr, if_pos hcap]
    rfl
  · intro text hvalid hcap
    exact (exec_b64d_of_regionsOk hr).trans (congrArg _ ((if_pos hvalid).trans (if_pos hcap)))

/-- Settles O42: both capacities suffice. -/
theorem encWritesTheArtifact : Obligations.EncWritesTheArtifact := by
  intro s ks len hr hk hscr hdst cipher
  rw [exec_enc_of_keysOk hr hk, if_pos hscr, if_pos hdst]
  rfl

/-- DEC's whole effect on a valid text of whole blocks that fit in SCR and DST (R237). -/
theorem exec_dec_of_checks {s : State} {ks : List Bytes} {len : Nat} (hr : RegionsOk s (s.latch.row .dec))
    (hk : KeysOk s (s.latch.row .dec) ks len) (hvalid : base64Valid (s.latch.src.bytes s.mem) = true)
    (hscr : (base64Decode (s.latch.src.bytes s.mem)).length ≤ s.latch.scr.len)
    (hblocks : (base64Decode (s.latch.src.bytes s.mem)).length % len = 0)
    (hdst : (base64Decode (s.latch.src.bytes s.mem)).length ≤ s.latch.dst.len) :
    exec .dec s =
      let cipher := base64Decode (s.latch.src.bytes s.mem)
      .next (ended s
        ((s.mem.writeBytes s.latch.scr.addr cipher).writeBytes s.latch.dst.addr (cascadeInverse cipher ks))
        .success 0 (stripZeros (cascadeInverse cipher ks)).length ks.length len) := by
  rw [exec_dec_of_keysOk hr hk, if_pos hvalid, if_pos hscr, if_pos hblocks, if_pos hdst]

/-- Settles O43: the text is valid, and the decoded bytes are whole blocks that fit in SCR and DST. -/
theorem decReadsTheArtifact : Obligations.DecReadsTheArtifact := by
  intro s ks len hr hk text hvalid hscr hblocks hdst plain
  exact exec_dec_of_checks hr hk hvalid hscr hblocks hdst

end Sys2Proof.Machine
end

section
/-!
PROOFS. Base64 position by position and bit by bit (43_envelope.md R230 to R233): the alphabet, which texts are valid,
the groups of encoding and decoding, and the decoded length.
-/

namespace Sys2Proof.Machine

/-! ### Validity (R232) -/

/-- The alphabet of R230 by character ranges, as the statement writes it. -/
theorem isBase64Char_iff (c : Byte) :
    IsBase64Char c ↔ (0x41 ≤ c.toNat ∧ c.toNat ≤ 0x5A) ∨ (0x61 ≤ c.toNat ∧ c.toNat ≤ 0x7A) ∨
      (0x30 ≤ c.toNat ∧ c.toNat ≤ 0x39) ∨ c = 0x2B ∨ c = 0x2F := by
  have hplus : c = 0x2B ↔ c.toNat = 0x2B := BitVec.toNat_eq
  have hslash : c = 0x2F ↔ c.toNat = 0x2F := BitVec.toNat_eq
  rw [hplus, hslash, IsBase64Char, base64Value]
  split_ifs <;> simp only [Option.isSome_some, Option.isSome_none, Bool.false_eq_true, true_iff, false_iff] <;> omega

/-- How a valid text's last group may end. -/
abbrev Base64LastPair (c2 c3 : Byte) : Prop :=
  (IsBase64Char c2 ∧ IsBase64Char c3) ∨ (IsBase64Char c2 ∧ c3 = base64Pad) ∨ (c2 = base64Pad ∧ c3 = base64Pad)

theorem base64Valid_last_iff (c0 c1 c2 c3 : Byte) :
    base64Valid [c0, c1, c2, c3] = true ↔ (IsBase64Char c0 ∧ IsBase64Char c1) ∧ Base64LastPair c2 c3 := by
  simp only [base64Valid, Base64LastPair, Bool.and_eq_true, Bool.or_eq_true, decide_eq_true_eq, or_assoc]

theorem base64Valid_cons_iff (c0 c1 c2 c3 : Byte) {rest : Bytes} (h : rest ≠ []) :
    base64Valid (c0 :: c1 :: c2 :: c3 :: rest) = true ↔
      (((IsBase64Char c0 ∧ IsBase64Char c1) ∧ IsBase64Char c2) ∧ IsBase64Char c3) ∧ base64Valid rest = true := by
  rw [base64Valid.eq_3 _ _ _ _ _ h]
  simp only [Bool.and_eq_true, decide_eq_true_eq]

/-- R232's conditions by position. -/
def Base64Positions (t : Bytes) : Prop :=
  t.length % 4 = 0 ∧ (∀ i < t.length - 2, IsBase64Char (t.getD i 0)) ∧
    (4 ≤ t.length → Base64LastPair (t.getD (t.length - 2) 0) (t.getD (t.length - 1) 0))

theorem base64Positions_last_iff (c0 c1 c2 c3 : Byte) :
    Base64Positions [c0, c1, c2, c3] ↔ (IsBase64Char c0 ∧ IsBase64Char c1) ∧ Base64LastPair c2 c3 := by
  simp only [Base64Positions, List.length_cons, List.length_nil, Nat.reduceAdd, Nat.reduceSub,
    Nat.forall_lt_succ_left, List.getD_cons_zero, List.getD_cons_succ]
  simp

theorem base64Positions_cons_iff (c0 c1 c2 c3 : Byte) {rest : Bytes} (h : rest ≠ []) :
    Base64Positions (c0 :: c1 :: c2 :: c3 :: rest) ↔
      (((IsBase64Char c0 ∧ IsBase64Char c1) ∧ IsBase64Char c2) ∧ IsBase64Char c3) ∧ Base64Positions rest := by
  have hpos : 0 < rest.length := List.length_pos_of_ne_nil h
  by_cases hmod : rest.length % 4 = 0
  · obtain ⟨n, hn⟩ : ∃ n, rest.length = n + 4 := ⟨rest.length - 4, by omega⟩
    have hmod4 : (n + 4) % 4 = 0 := hn ▸ hmod
    have hmod8 : (n + 8) % 4 = 0 := by omega
    simp only [Base64Positions, List.length_cons, hn, Nat.reduceSubDiff, Nat.add_assoc, Nat.reduceAdd,
      Nat.forall_lt_succ_left, List.getD_cons_zero, List.getD_cons_succ]
    simp only [hmod4, hmod8, true_and, and_assoc, Nat.le_add_left, forall_const]
  · refine iff_of_false (fun ⟨hlen, _⟩ => ?_) fun ⟨_, hlen, _⟩ => hmod hlen
    simp only [List.length_cons] at hlen
    omega

/-- A text is valid exactly when it meets R232's conditions by position. -/
theorem base64Valid_iff_positions (t : Bytes) : base64Valid t = true ↔ Base64Positions t := by
  induction t using base64Valid.induct with
  | case1 => simp [base64Valid, Base64Positions]
  | case2 c0 c1 c2 c3 => rw [base64Valid_last_iff, base64Positions_last_iff]
  | case3 c0 c1 c2 c3 rest h ih => rw [base64Valid_cons_iff _ _ _ _ h, base64Positions_cons_iff _ _ _ _ h, ih]
  | case4 t h0 h4 hmore =>
    match t with
    | [] => exact absurd rfl h0
    | [_] => simp [base64Valid, Base64Positions]
    | [_, _] => simp [base64Valid, Base64Positions]
    | [_, _, _] => simp [base64Valid, Base64Positions]
    | c0 :: c1 :: c2 :: c3 :: rest => exact absurd rfl (hmore c0 c1 c2 c3 rest)

/-- Settles O50: the positions of the text, with the alphabet written out. -/
theorem base64ValidityIsPositional : Obligations.Base64ValidityIsPositional := by
  intro t
  simp only [base64Valid_iff_positions, Base64Positions, Base64LastPair, isBase64Char_iff]
  rfl

/-! ### Bits of bytes and of 6-bit values -/

theorem toNat_append_eq_add {m n : Nat} (x : BitVec m) (y : BitVec n) : (x ++ y).toNat = x.toNat * 2 ^ n + y.toNat := by
  rw [BitVec.toNat_append, ← Nat.shiftLeft_add_eq_or_of_lt y.isLt, Nat.shiftLeft_eq]

theorem ofNat_eq_append {m n a : Nat} (x : BitVec m) (y : BitVec n) (h : a = x.toNat * 2 ^ n + y.toNat) :
    BitVec.ofNat (m + n) a = x ++ y := by
  rw [h, ← toNat_append_eq_add, BitVec.ofNat_toNat, BitVec.setWidth_eq]

theorem toNat_extractLsb'_low {n : Nat} (x : BitVec n) (k : Nat) : (x.extractLsb' 0 k).toNat = x.toNat % 2 ^ k :=
  BitVec.extractLsb'_toNat 0 k x

theorem toNat_extractLsb'_top {n : Nat} (x : BitVec n) {s k : Nat} (h : s + k = n) :
    (x.extractLsb' s k).toNat = x.toNat / 2 ^ s := by
  subst h
  have hx : x.toNat < 2 ^ s * 2 ^ k := Nat.pow_add 2 s k ▸ x.isLt
  rw [BitVec.extractLsb'_toNat, Nat.shiftRight_eq_div_pow, Nat.mod_eq_of_lt (Nat.div_lt_of_lt_mul hx)]

theorem sextet_twoAndFour_toNat (b : Byte) (y : BitVec 4) :
    (b.extractLsb' 0 2 ++ y : BitVec 6).toNat = b.toNat % 4 * 16 + y.toNat :=
  (toNat_append_eq_add _ y).trans (by simp only [toNat_extractLsb'_low, Nat.reducePow])

theorem sextet_fourAndTwo_toNat (b : Byte) (y : BitVec 2) :
    (b.extractLsb' 0 4 ++ y : BitVec 6).toNat = b.toNat % 16 * 4 + y.toNat :=
  (toNat_append_eq_add _ y).trans (by simp only [toNat_extractLsb'_low, Nat.reducePow])

/-- The three bytes of four 6-bit values (R233). -/
theorem base64Group_toNat (v0 v1 v2 v3 : BitVec 6) :
    base64Group v0.toNat v1.toNat v2.toNat v3.toNat =
      (v0 ++ v1.extractLsb' 4 2, v1.extractLsb' 0 4 ++ v2.extractLsb' 2 4, v2.extractLsb' 0 2 ++ v3) := by
  rw [base64Group]
  refine congrArg₂ Prod.mk (ofNat_eq_append v0 (v1.extractLsb' 4 2) ?_) (congrArg₂ Prod.mk
    (ofNat_eq_append (v1.extractLsb' 0 4) (v2.extractLsb' 2 4) ?_) (ofNat_eq_append (v2.extractLsb' 0 2) v3 ?_))
  all_goals simp only [toNat_extractLsb'_low, toNat_extractLsb'_top, Nat.reducePow, Nat.reduceAdd]

/-- The character of a 6-bit value, as the statement writes it. -/
abbrev sextetChar (v : BitVec 6) : Byte := base64Char v.toNat

/-- Encoding joins the bits of neighbouring bytes, and a final group's missing bits are 0 (R230). -/
theorem base64Encode_bits :
    base64Encode [] = [] ∧
    (∀ b0 : Byte, base64Encode [b0] =
      [sextetChar (b0.extractLsb' 2 6), sextetChar (b0.extractLsb' 0 2 ++ (0 : BitVec 4)), base64Pad, base64Pad]) ∧
    (∀ b0 b1 : Byte, base64Encode [b0, b1] =
      [sextetChar (b0.extractLsb' 2 6), sextetChar (b0.extractLsb' 0 2 ++ b1.extractLsb' 4 4),
        sextetChar (b1.extractLsb' 0 4 ++ (0 : BitVec 2)), base64Pad]) ∧
    ∀ (b0 b1 b2 : Byte) (rest : Bytes), base64Encode (b0 :: b1 :: b2 :: rest) =
      sextetChar (b0.extractLsb' 2 6) :: sextetChar (b0.extractLsb' 0 2 ++ b1.extractLsb' 4 4) ::
        sextetChar (b1.extractLsb' 0 4 ++ b2.extractLsb' 6 2) :: sextetChar (b2.extractLsb' 0 6) ::
          base64Encode rest := by
  simp only [sextetChar, sextet_twoAndFour_toNat, sextet_fourAndTwo_toNat, toNat_extractLsb'_low,
    toNat_extractLsb'_top, Nat.reduceAdd]
  exact ⟨rfl, fun _ => rfl, fun _ _ => rfl, fun _ _ _ _ => rfl⟩

/-- Decoding joins the bits of neighbouring characters, and drops those a final group has left over (R233). -/
theorem base64Decode_bits (v0 v1 v2 v3 : BitVec 6) :
    base64Decode [sextetChar v0, sextetChar v1, base64Pad, base64Pad] = [(v0 ++ v1.extractLsb' 4 2 : BitVec 8)] ∧
    base64Decode [sextetChar v0, sextetChar v1, sextetChar v2, base64Pad] =
      [(v0 ++ v1.extractLsb' 4 2 : BitVec 8), (v1.extractLsb' 0 4 ++ v2.extractLsb' 2 4 : BitVec 8)] ∧
    ∀ rest : Bytes, base64Decode (sextetChar v0 :: sextetChar v1 :: sextetChar v2 :: sextetChar v3 :: rest) =
      (v0 ++ v1.extractLsb' 4 2 : BitVec 8) :: (v1.extractLsb' 0 4 ++ v2.extractLsb' 2 4 : BitVec 8) ::
        (v2.extractLsb' 0 2 ++ v3 : BitVec 8) :: base64Decode rest := by
  have hgroup := base64Group_toNat v0 v1
  refine ⟨(base64Decode_twoPads v0.isLt v1.isLt).trans ?_, (base64Decode_onePad v0.isLt v1.isLt v2.isLt).trans ?_,
    fun rest => (base64Decode_group v0.isLt v1.isLt v2.isLt v3.isLt rest).trans ?_⟩
  · exact congrArg (fun g => [g.1]) (hgroup 0 0)
  · exact congrArg (fun g => [g.1, g.2.1]) (hgroup v2 0)
  · rw [hgroup]

/-! ### Decoded length -/

theorem ne_base64Pad_of_isBase64Char {c : Byte} (h : IsBase64Char c) : c ≠ base64Pad := by
  rintro rfl
  exact absurd h (by decide)

theorem count_base64Pad_cons {c : Byte} (h : IsBase64Char c) (rest : Bytes) :
    (c :: rest).count base64Pad = rest.count base64Pad :=
  List.count_cons_of_ne (ne_base64Pad_of_isBase64Char h)

/-- Each padding character of a valid text stands for a byte less (R233). -/
theorem base64Decode_length {t : Bytes} (h : base64Valid t = true) :
    4 * ((base64Decode t).length + t.count base64Pad) = 3 * t.length := by
  induction t using base64Valid.induct with
  | case1 => rfl
  | case2 c0 c1 c2 c3 =>
    obtain ⟨⟨h0, h1⟩, hlast⟩ := (base64Valid_last_iff c0 c1 c2 c3).1 h
    rw [count_base64Pad_cons h0, count_base64Pad_cons h1]
    rcases hlast with ⟨h2, h3⟩ | ⟨h2, rfl⟩ | ⟨rfl, rfl⟩
    · rw [count_base64Pad_cons h2, count_base64Pad_cons h3, base64Decode,
        if_neg (ne_base64Pad_of_isBase64Char h2), if_neg (ne_base64Pad_of_isBase64Char h3)]
      rfl
    · rw [count_base64Pad_cons h2, base64Decode, if_neg (ne_base64Pad_of_isBase64Char h2)]
      rfl
    · rfl
  | case3 c0 c1 c2 c3 rest hne ih =>
    obtain ⟨⟨⟨⟨h0, h1⟩, h2⟩, h3⟩, hrest⟩ := (base64Valid_cons_iff c0 c1 c2 c3 hne).1 h
    rw [count_base64Pad_cons h0, count_base64Pad_cons h1, count_base64Pad_cons h2, count_base64Pad_cons h3,
      base64Decode, if_neg (ne_base64Pad_of_isBase64Char h2), if_neg (ne_base64Pad_of_isBase64Char h3)]
    have := ih hrest
    simp only [List.length_cons]
    omega
  | case4 t h0 h4 hmore =>
    rw [base64Valid.eq_4 t h0 h4 hmore] at h
    cases h

/-- Settles O51: the characters are checked value by value, the groups are joined bits, and each padding character of a
valid text stands for a byte less. -/
theorem base64DecodingInvertsEncoding : Obligations.Base64DecodingInvertsEncoding := by
  refine ⟨⟨by decide, by decide, by decide, rfl, rfl⟩, base64Encode_bits, ⟨rfl, base64Decode_bits⟩,
    fun x => ⟨base64Encode_length x, base64Encode_valid_decode x⟩, fun t h => ?_⟩
  have hlen := base64Decode_length h
  have hcount : t.countP (fun c => decide (c = 0x3D)) = t.count base64Pad := rfl
  rw [hcount]
  omega

end Sys2Proof.Machine
end

section
/-!
PROOFS. What ENC wrote goes back through DEC (43_envelope.md R238): ENC keeps the key table, so DEC finds the same keys,
and the cascades cancel up to the padding.
-/

namespace Sys2Proof.Machine

/-! ### The key table of a command that succeeded -/

/-- A keyed command succeeds only with its key table in order. -/
theorem keysOk_of_success {i : Instr} {s t : State} (hi : keyed i = true) (h : exec i s = .next t)
    (herr : t.err = .success) : ∃ ks len, KeysOk s (s.latch.row i) ks len := by
  cases hk : keyPhase s (s.latch.row i) with
  | ok r => exact ⟨r.keys, r.len, (keyPhase_eq_ok_iff s _ r).1 hk⟩
  | error e =>
    rw [exec_of_keyPhase_error hi ((ending_of_exec h).regionsOk_of_success herr) hk] at h
    cases h
    exact absurd herr (onlyCheckErrors_keyPhase s _ e hk).1

/-- Two regions that share a byte intersect (R77). -/
theorem Region.intersects_of_covers {r q : Region} {a : Nat} (hr : r.Covers a) (hq : q.Covers a) : r.Intersects q := by
  obtain ⟨hra, har⟩ := hr
  obtain ⟨hqa, haq⟩ := hq
  exact ⟨by omega, by omega, by omega, by omega⟩

/-- A command with no in-place form keeps what it reads. -/
theorem Ending.mem_read_kept {i : Instr} {s t : State} (h : Ending s i t) (hplace : (s.latch.row i).inPlace = false)
    (hdisjoint : (s.latch.row i).Disjoint) {g : Region} (hg : g ∈ (s.latch.row i).reads) {a : Nat} (ha : g.Covers a) :
    t.mem.read a = s.mem.read a := by
  refine h.mem_read_outside fun w hw hwa => ?_
  obtain ⟨hreads, -⟩ := hdisjoint
  obtain ⟨hexcused, -⟩ := hreads w hw g hg (Region.intersects_of_covers hwa ha)
  exact Bool.false_ne_true (hplace.symm.trans hexcused)

/-- A command keeps the keys it reads. -/
theorem Ending.mem_read_key_kept {i : Instr} {s t : State} (h : Ending s i t) {k : Nat}
    (hk : DescriptorOk s (s.latch.row i) k) {a : Nat} (ha : (s.latch.keyRegion s.mem k).Covers a) :
    t.mem.read a = s.mem.read a := by
  obtain ⟨-, hclear⟩ := hk
  exact h.mem_read_outside fun w hw hwa => hclear w hw (Region.intersects_of_covers ha hwa)

section
variable {s : State}

/-- KCHK reads the key table that ENC reads, and writes nothing. -/
theorem regionsOk_kchk_of_enc (h : RegionsOk s (s.latch.row .enc)) : RegionsOk s (s.latch.row .kchk) := by
  obtain ⟨hreads, -, -⟩ := h
  exact ⟨List.forall_mem_singleton.2 (hreads _ (keytab_mem_reads s.latch rfl)), nofun, nofun, .nil⟩

theorem keysOk_kchk_of_enc {ks : List Bytes} {len : Nat} (h : KeysOk s (s.latch.row .enc) ks len) :
    KeysOk s (s.latch.row .kchk) ks len := by
  obtain ⟨hcount, hvalid, hdesc⟩ := h
  refine ⟨hcount, hvalid, fun k hk => ?_⟩
  obtain ⟨⟨hin, -⟩, hkey⟩ := hdesc k hk
  exact ⟨⟨hin, nofun⟩, hkey⟩

end

/-- KCHK depends on nothing but the key table and its keys, so where these are the same the key set is. -/
theorem keysOk_kchk_congr {s u : State} {ks : List Bytes} {len : Nat} (h : SameInputs .kchk s u)
    (hr : RegionsOk s (s.latch.row .kchk)) (hk : KeysOk s (s.latch.row .kchk) ks len) :
    KeysOk u (u.latch.row .kchk) ks len := by
  have hphase := h.keyPhase_eq rfl hr
  rw [keyPhase_ok hk] at hphase
  exact (keyPhase_eq_ok_iff u _ _).1 hphase.symm

section
variable {s t u : State} {ks : List Bytes} {len : Nat} (hwf : s.mem.wf) (henc : exec .enc s = .next t)
  (hr : RegionsOk s (s.latch.row .enc)) (hk : KeysOk s (s.latch.row .enc) ks len) (hmem : u.mem = t.mem)
  (hparams : u.params = s.params) (htab : u.latch.ops.keytabAddr = s.latch.ops.keytabAddr)
  (hcount : u.latch.ops.keyCount = s.latch.ops.keyCount)
include hwf henc hr hk hmem hparams htab hcount

/-- ENC leaves the key table and its keys as they were. -/
theorem sameInputs_kchk_after_enc : SameInputs .kchk s u := by
  have hend := ending_of_exec henc
  obtain ⟨-, -, hdisjoint⟩ := hr
  obtain ⟨-, -, hdesc⟩ := hk
  refine ⟨hwf, hmem ▸ hend.mem_wf hwf, by rw [hparams], by simp only [Operands.readBy, htab, hcount],
    fun g hg a ha => ?_, nofun⟩
  rw [hmem]
  rcases List.mem_append.1 hg with htable | hkeys
  · obtain rfl := List.mem_singleton.1 htable
    exact (hend.mem_read_kept rfl hdisjoint (keytab_mem_reads s.latch rfl) ha).symm
  · obtain ⟨-, k, hlt, rfl⟩ := (mem_keyRegions_iff _ _ _ _ _).1 hkeys
    obtain ⟨hok, -⟩ := hdesc k hlt
    exact (hend.mem_read_key_kept hok ha).symm

/-- DEC with ENC's key table finds ENC's keys, when they are clear of what DEC writes. -/
theorem keysOk_dec_after_enc (hdesc : ∀ k < u.latch.ops.keyCount.toNat, DescriptorOk u (u.latch.row .dec) k) :
    KeysOk u (u.latch.row .dec) ks len := by
  have hsame : SameInputs .kchk s u := sameInputs_kchk_after_enc hwf henc hr hk hmem hparams htab hcount
  obtain ⟨hn, hvalid, hkeys⟩ := keysOk_kchk_congr hsame (regionsOk_kchk_of_enc hr) (keysOk_kchk_of_enc hk)
  refine ⟨hn, hvalid, fun k hlt => ?_⟩
  obtain ⟨-, hkey⟩ := hkeys k hlt
  exact ⟨hdesc k hlt, hkey⟩

end

/-! ### The round trip -/

/-- ENC succeeds only when its text fits in DST, and writes the cascade's bytes (R236). -/
theorem exec_enc_success {s t : State} {ks : List Bytes} {len : Nat} (hr : RegionsOk s (s.latch.row .enc))
    (hk : KeysOk s (s.latch.row .enc) ks len) (h : exec .enc s = .next t) (herr : t.err = .success) :
    let cipher := cascadeForward (s.latch.src.bytes s.mem) ks
    cipher.length = paddedLength s.latch.src.len len ∧
      t.mem = (s.mem.writeBytes s.latch.scr.addr cipher).writeBytes s.latch.dst.addr (base64Encode cipher) ∧
      t.resultLen.toNat = (base64Encode cipher).length ∧ t.resultKlen.toNat = len := by
  intro cipher
  have hcipher : cipher.length = paddedLength s.latch.src.len len := by
    rw [cascadeForward_keys_length (ks := ⟨len, ks⟩) hk, srcBytes_length]
  rw [exec_enc_of_keysOk hr hk] at h
  split at h
  next =>
    split at h
    next hdst =>
      cases h
      refine ⟨hcipher, rfl, ?_, hk.len_toNat⟩
      rw [base64Encode_length, hcipher]
      exact ofNat_toNat_of_le hdst
    next =>
      cases h
      cases herr
  next =>
    cases h
    cases herr

/-- DEC of the Base64 text of whole blocks that fit in SCR and DST deciphers those blocks (R237). -/
theorem exec_dec_of_encoded {u : State} {x : Bytes} {ks : List Bytes} {len : Nat} (hr : RegionsOk u (u.latch.row .dec))
    (hk : KeysOk u (u.latch.row .dec) ks len) (htext : u.latch.src.bytes u.mem = base64Encode x)
    (hscr : x.length ≤ u.latch.scr.len) (hblocks : x.length % len = 0) (hdst : x.length ≤ u.latch.dst.len) :
    exec .dec u = .next (ended u
      ((u.mem.writeBytes u.latch.scr.addr x).writeBytes u.latch.dst.addr (cascadeInverse x ks))
      .success 0 (stripZeros (cascadeInverse x ks)).length ks.length len) := by
  obtain ⟨hvalid, hdecode⟩ := base64Encode_valid_decode x
  rw [← htext] at hvalid hdecode
  rw [exec_dec_of_checks hr hk hvalid (by rwa [hdecode]) (by rwa [hdecode]) (by rwa [hdecode]), hdecode]

/-- The start of a written string, read back. -/
theorem readBytes_writeBytes_append {m : Memory} (hm : m.wf) (a : Nat) (x y : Bytes) :
    (m.writeBytes a (x ++ y)).readBytes a x.length = x := by
  apply List.ext_getElem?
  intro i
  by_cases h : i < x.length
  · have hin : i < (x ++ y).length := List.length_append ▸ Nat.lt_add_right _ h
    rw [Memory.readBytes_getElem? _ _ _ _ h, Memory.read_writeBytes_inside hm hin, List.getElem_append_left h,
      List.getElem?_eq_getElem h]
  · rw [List.getElem?_eq_none (by simpa using h), List.getElem?_eq_none (by simpa using h)]

/-- What DST holds within a depadded RESULT_LEN is the depadded string. -/
theorem readBytes_writeBytes_stripZeros {m : Memory} (hm : m.wf) (a : Nat) (x : Bytes) :
    (m.writeBytes a x).readBytes a (stripZeros x).length = stripZeros x := by
  obtain ⟨n, hn⟩ := eq_stripZeros_append_zeros x
  conv_lhs => enter [1]; rw [hn]
  exact readBytes_writeBytes_append hm a (stripZeros x) (zeros n)

/-- Settles O54: DEC reads the text ENC wrote with the keys ENC used, and DST holds the depadded plaintext. -/
theorem artifactsRoundTrip : Obligations.ArtifactsRoundTrip := by
  intro s t u hwf henc herr hmem hparams haddr hlen htab hcount hru hdesc hscr hdst
  have hr := (ending_of_exec henc).regionsOk_of_success herr
  obtain ⟨ks, len, hk⟩ := keysOk_of_success rfl henc herr
  have hku := keysOk_dec_after_enc hwf henc hr hk hmem hparams htab hcount hdesc
  obtain ⟨hcipher, htmem, htlen, htklen⟩ := exec_enc_success hr hk henc herr
  obtain ⟨-, hvalid, -⟩ := hk
  have hplain := cascadeInverse_cascadeForward hvalid (s.latch.src.bytes s.mem)
  generalize cascadeForward (s.latch.src.bytes s.mem) ks = x at hcipher htmem htlen hplain
  rw [htklen, ← hcipher] at hscr hdst
  have hwf1 : (s.mem.writeBytes s.latch.scr.addr x).wf := Memory.writeBytes_wf hwf _ _
  have htext : u.latch.src.bytes u.mem = base64Encode x :=
    src_bytes_of_written hwf1 (hmem.trans htmem) haddr (by rw [hlen, htlen])
  have hblocks : x.length % len = 0 := hcipher ▸ Nat.mod_eq_zero_of_dvd (paddedLength_dvd _ _)
  refine ⟨_, exec_dec_of_encoded hru hku htext hscr hblocks hdst, rfl, ?_⟩
  have hstrip : (stripZeros (cascadeInverse x ks)).length ≤ u.latch.dst.len :=
    (stripZeros_length_le _).trans ((cascadeInverse_length ks x).trans_le hdst)
  have hwfu : u.mem.wf := hmem ▸ htmem ▸ Memory.writeBytes_wf hwf1 _ _
  have hread := readBytes_writeBytes_stripZeros (Memory.writeBytes_wf hwfu u.latch.scr.addr x) u.latch.dst.addr
    (cascadeInverse x ks)
  simp only [ended, ofNat_toNat_of_le hstrip]
  rw [hread, hplain]
  exact stripZeros_padded_eq_iff len _

end Sys2Proof.Machine
end

section
/-!
PROOFS. The error codes (60_exceptions.md R261) and the interrupt output (R268): what a completion, a register write
and the reset input leave of IRQ.
-/

namespace Sys2Proof.Machine

/-! ### The error codes -/

/-- The error codes in the order of R261's table. -/
def ErrCode.listed : List ErrCode :=
  [.success, .illegalCommand, .capacityExceeded, .blockLength, .overlap, .noKeys, .invalidLength, .lengthMismatch,
    .invalidKey, .encodeFailed, .decodeFailed, .readFailed, .writeFailed, .noData, .randomBytes, .keySize,
    .wrongPasswordOrCorrupt]

theorem ErrCode.mem_listed (c : ErrCode) : c ∈ listed := by
  cases c <;> decide

theorem ErrCode.listed_map_value : listed.map value =
    [0x00, 0x01, 0x02, 0x03, 0x04, 0x10, 0x11, 0x12, 0x13, 0x20, 0x21, 0x30, 0x31, 0x32, 0x40, 0x41, 0x50] := rfl

/-- The table lists every code, and no value twice. -/
theorem ErrCode.value_injective : Function.Injective value := by
  have hnodup : (listed.map value).Nodup := by
    rw [listed_map_value]
    decide
  exact fun c d h => List.inj_on_of_nodup_map hnodup c.mem_listed d.mem_listed h

/-- Settles O12, from R261's table of codes and values. -/
theorem errorCodesAreTheListedOnes : Obligations.ErrorCodesAreTheListedOnes :=
  ⟨ErrCode.listed_map_value, ErrCode.value_injective⟩

/-! ### The interrupt output -/

/-- A completion sets DONE and keeps IE, so IRQ rises when IE = 1. -/
theorem CompletedFrom.irq {s t : State} (h : CompletedFrom s t) : t.irq = s.ie := by
  rw [State.irq, h.ie, h.done, Bool.and_true]

theorem State.writeCtrl_irq (s : State) (v : Word) : (s.writeCtrl v).irq = (v.getLsbD 0 && s.done) := rfl

theorem State.writeStatus_irq (s : State) (v : Word) : (s.writeStatus v).irq = (s.irq && !v.getLsbD 1) := by
  simp [State.irq, Bool.and_assoc]

/-- Acceptance clears DONE, and with it IRQ (R89). -/
theorem writeCmd_irq_of_idle {s : State} (h : s.sequencer = none) (w : Word) : (s.writeCmd w).irq = false := by
  rw [writeCmd_of_idle h]
  simp [State.irq]

theorem State.resetInput_irq (s : State) : s.resetInput.irq = false := by
  simp [State.resetInput, State.irq]

/-- Settles O13: each event's rule for IE and DONE, read off the completion, the register's write and the reset input. -/
theorem irqFollowsEnableAndDone : Obligations.IrqFollowsEnableAndDone := by
  refine ⟨fun s => rfl, fun s => ?completion, fun s v => ?ctrl, fun s v => ?status, fun s w hidle => ?cmd,
    fun s => ⟨_, rfl, s.resetInput_irq⟩⟩
  case completion =>
    obtain ⟨t, hrun, hc⟩ := runLatched_completes s
    exact ⟨t, hrun, hc.irq⟩
  case ctrl => exact ⟨_, hostWrite_register s v (k := 1) (by decide), s.writeCtrl_irq v⟩
  case status => exact ⟨_, hostWrite_register s v (k := 2) (by decide), s.writeStatus_irq v⟩
  case cmd => exact ⟨_, applyInput_writeCmd s w, writeCmd_irq_of_idle (s.busy_eq_false_iff.1 hidle) w⟩

end Sys2Proof.Machine
end

section
/-!
PROOFS. The statements of 70_reset_and_hazards.md: the first block of a cascade (R299), the reset input (R290, R291) and
the end of a run (R305).
-/

namespace Sys2Proof.Machine

/-! ### The first block of a cascade (R299) -/

theorem xorBytes_right_comm (x k q : Bytes) : xorBytes (xorBytes x k) q = xorBytes (xorBytes x q) k := by
  induction x generalizing k q with
  | nil => rfl
  | cons a x ih =>
    cases k with
    | nil => cases q <;> rfl
    | cons b k =>
      cases q with
      | nil => rfl
      | cons c q =>
        have hbyte : a ^^^ b ^^^ c = a ^^^ c ^^^ b := by rw [BitVec.xor_assoc, BitVec.xor_comm b, ← BitVec.xor_assoc]
        simp only [xorBytes_cons, hbyte, ih]

/-- XORing a string with several keys does not depend on their order. -/
theorem foldl_xorBytes_perm {ks js : List Bytes} (hp : ks.Perm js) (x : Bytes) :
    ks.foldl xorBytes x = js.foldl xorBytes x :=
  have : RightCommutative xorBytes := ⟨xorBytes_right_comm⟩
  hp.foldl_eq x

/-- The first block of a forward pass is XORed with the key (R132). -/
theorem firstBlock_forward {key : Bytes} (hk : 0 < key.length) (data : Bytes) :
    blockOf key.length (forward data key) 0 = xorBytes (blockOf key.length (padded key.length data) 0) key := by
  conv_lhs => rw [forward_eq_xorBytes hk, blockOf_xorBytes, blockOf_key_append, previousBlock, if_pos rfl]

/-- The first block of an inverse pass is XORed with the key (R134). -/
theorem firstBlock_inverse {data key : Bytes} (hd : key.length ∣ data.length) :
    blockOf key.length (inverse data key) 0 = xorBytes (blockOf key.length data 0) key := by
  rw [inverse_eq_xorBytes hd, blockOf_xorBytes, blockOf_key_append, previousBlock, if_pos rfl]

/-- A cascade XORs the first block with every key.  Its output is padded here so that the empty key list, which does not
pad, starts the induction. -/
theorem firstBlock_cascadeForward {ks : List Bytes} {len : Nat} (h0 : 0 < len) (hk : ∀ k ∈ ks, k.length = len)
    (data : Bytes) :
    blockOf len (padded len (cascadeForward data ks)) 0 = ks.foldl xorBytes (blockOf len (padded len data) 0) := by
  induction ks generalizing data with
  | nil => rfl
  | cons k ks ih =>
    obtain ⟨rfl, hks⟩ := List.forall_mem_cons.1 hk
    calc blockOf k.length (padded k.length (cascadeForward (forward data k) ks)) 0
        = ks.foldl xorBytes (blockOf k.length (padded k.length (forward data k)) 0) := ih hks _
      _ = ks.foldl xorBytes (xorBytes (blockOf k.length (padded k.length data) 0) k) := by
          rw [padded_of_dvd h0 (forward_dvd h0 data), firstBlock_forward h0]

/-- Inverse passes XOR the first block with every key. -/
theorem firstBlock_foldl_inverse {ks : List Bytes} {len : Nat} (hk : ∀ k ∈ ks, k.length = len) {data : Bytes}
    (hd : len ∣ data.length) : blockOf len (ks.foldl inverse data) 0 = ks.foldl xorBytes (blockOf len data 0) := by
  induction ks generalizing data with
  | nil => rfl
  | cons k ks ih =>
    obtain ⟨rfl, hks⟩ := List.forall_mem_cons.1 hk
    rw [List.foldl_cons, ih hks (by rwa [inverse_length]), firstBlock_inverse hd, List.foldl_cons]

section
variable {ks js : List Bytes} {len : Nat} (h : ValidKeys ks len)
include h

theorem ValidKeys.perm (hp : ks.Perm js) : ValidKeys js len := by
  obtain ⟨hne, hpos, hblocks, hkeys⟩ := h
  exact ⟨fun hnil => hne (hnil ▸ hp).eq_nil, hpos, hblocks, fun k hk => hkeys k (hp.mem_iff.2 hk)⟩

theorem ValidKeys.len_pos : 0 < len := Nat.pos_of_ne_zero h.2.1

theorem cascadeForward_dvd (data : Bytes) : len ∣ (cascadeForward data ks).length := by
  rw [cascadeForward_length data h.1 h.len_pos h.length_eq]
  exact paddedLength_dvd _ _

/-- The cascade has padded already. -/
theorem padded_cascadeForward (data : Bytes) : padded len (cascadeForward data ks) = cascadeForward data ks :=
  padded_of_dvd h.len_pos (cascadeForward_dvd h data)

theorem firstBlock_cascadeForward_perm (hp : ks.Perm js) (data : Bytes) :
    blockOf len (cascadeForward data ks) 0 = blockOf len (cascadeForward data js) 0 := by
  have hj : ValidKeys js len := h.perm hp
  rw [← padded_cascadeForward h, ← padded_cascadeForward hj, firstBlock_cascadeForward h.len_pos h.length_eq,
    firstBlock_cascadeForward h.len_pos hj.length_eq, foldl_xorBytes_perm hp]

theorem firstBlock_cascadeInverse_perm (hp : ks.Perm js) {data : Bytes} (hd : len ∣ data.length) :
    blockOf len (cascadeInverse data ks) 0 = blockOf len (cascadeInverse data js) 0 := by
  have hks : ∀ k ∈ ks.reverse, k.length = len := fun k hk => h.length_eq k (List.mem_reverse.1 hk)
  have hjs : ∀ k ∈ js.reverse, k.length = len := fun k hk => (h.perm hp).length_eq k (List.mem_reverse.1 hk)
  have hrev : ks.reverse.Perm js.reverse := (ks.reverse_perm.trans hp).trans js.reverse_perm.symm
  rw [cascadeInverse, cascadeInverse, firstBlock_foldl_inverse hks hd, firstBlock_foldl_inverse hjs hd,
    foldl_xorBytes_perm hrev]

end

/-- Settles O48: a cascade in either direction XORs the first block with every key, in any order; so deciphering in
another order gives what deciphering in the right one does. -/
theorem firstBlockIgnoresKeyOrder : Obligations.FirstBlockIgnoresKeyOrder := by
  intro data ks js len h hp
  refine ⟨firstBlock_cascadeForward_perm h hp data, ?_⟩
  calc blockOf len (cascadeInverse (cascadeForward data ks) js) 0
      = blockOf len (cascadeInverse (cascadeForward data ks) ks) 0 :=
        (firstBlock_cascadeInverse_perm h hp (cascadeForward_dvd h data)).symm
    _ = blockOf len (padded len data) 0 := by rw [cascadeInverse_cascadeForward h]

/-! ### The reset input (R290, R291) -/

theorem resetRegisters_readReg (s : State) {r : Reg} (hid : r ≠ .id) (hstatus : r ≠ .status) :
    s.resetRegisters.readReg r = 0 := by
  cases r with
  | id => exact absurd rfl hid
  | status => exact absurd rfl hstatus
  | _ => rfl

/-- The reset input sets the registers, and before that abandons the command the latched word decodes to if it runs:
entropy answers are lost and the command's write regions left unspecified. -/
theorem resetInput_cases (s : State) :
    s.resetInput = s.resetRegisters ∨
      ∃ i n, s.busy = true ∧ decode s.latch.cmd = .ok i ∧ s.resetInput =
        (({ s with entropy := s.entropy.skip n } : State).scramble (s.latch.row i).writes).resetRegisters := by
  unfold State.resetInput
  cases hb : s.busy with
  | false => exact .inl rfl
  | true =>
    cases hd : decode s.latch.cmd with
    | error e => exact .inl (by simp [State.abandon, hd])
    | ok i => exact .inr ⟨i, _, rfl, rfl, by rw [if_pos rfl, State.abandon, hd]⟩

/-- Settles O19: the reset input sets the registers whether or not it abandons a command, and abandoning one touches
memory in the command's write regions only. -/
theorem resetAbandonsTheCommandAndKeepsMemory : Obligations.ResetAbandonsTheCommandAndKeepsMemory := by
  refine fun s => ⟨s.resetInput, rfl, ?_⟩
  rcases resetInput_cases s with h | ⟨i, n, hb, hd, h⟩
  · rw [h]
    exact ⟨⟨rfl, fun r => resetRegisters_readReg s, rfl, rfl, rfl, rfl, rfl, rfl, rfl, rfl⟩, fun _ => ⟨rfl, rfl⟩,
      fun _ _ => ⟨rfl, rfl⟩, fun _ _ _ _ => rfl⟩
  · rw [h]
    refine ⟨⟨rfl, fun r => resetRegisters_readReg _, rfl, rfl, rfl, rfl, rfl, by simp, by simp, by simp⟩,
      fun hidle => ?idle, fun e hillegal => ?illegal, fun j hj a ha => ?frame⟩
    case idle => exact absurd (hidle.symm.trans hb) nofun
    case illegal => exact absurd (hillegal.symm.trans hd) nofun
    case frame =>
      cases hj.symm.trans hd
      exact scramble_mem_read (s := { s with entropy := s.entropy.skip n }) ha

/-! ### The end of a run (R305) -/

theorem endState_of_no_writes {s : State} (h : s.busyWrites = []) : s.endState = s := by
  rw [State.endState, h, State.scramble_nil]

/-- The end state has the bytes of the point where the run ends, outside the running command's write regions. -/
theorem endState_mem_read {s : State} {i : Instr} (hd : decode s.latch.cmd = .ok i) {a : Nat}
    (ha : ∀ w ∈ (s.latch.row i).writes, ¬ w.Covers a) : s.endState.mem.read a = s.mem.read a := by
  cases hb : s.busy with
  | false => rw [endState_of_no_writes (busyWrites_of_idle hb)]
  | true =>
    refine scramble_mem_read ?_
    rwa [busyWrites_of_running hb hd]

/-- Settles O60: how a run reaches its end state, and the end state with and without a running command. -/
theorem runsEndAfterTheLastStatement : Obligations.RunsEndAfterTheLastStatement := by
  refine ⟨fun s => Iff.rfl, fun s fuel h => runToEnd_ended h fuel, fun s t fuel h hs => runToEnd_step h hs fuel,
    fun s => ⟨fun hidle => endState_of_no_writes (busyWrites_of_idle hidle),
      fun e hillegal => endState_of_no_writes (busyWrites_of_illegal hillegal), ⟨_, endState_eq s⟩,
      fun i hd a => endState_mem_read hd⟩⟩

end Sys2Proof.Machine
end
